-- ==== Sys2Proof/Word.lean ====
section
/-! DEFINITION. The machine's words: the Byte every register, cell and bus value is (00_scope.md R2), the 4-bit
opcode, operand and address (R9, 30_encoding.md R70) and the 19-bit microcode word (30_encoding.md R77). Bits are numbered from the
least significant, bit 0 (00_scope.md R14). -/

namespace Sys2Proof

/-- An 8-bit Byte (00_scope.md R2). -/
abbrev Byte := BitVec 8

/-- A 4-bit opcode, operand or effective address (30_encoding.md R70, 10_state.md R31). -/
abbrev Nibble := BitVec 4

/-- A microcode word: bit `i` is the value of the pin at bit `i` of 30_encoding.md R76 (R77). -/
abbrev MicroWord := BitVec 19

end Sys2Proof
end

