-- ==== Sys2Proof/Config.lean ====
section
/-! DEFINITION. What a construction of the machine fixes: the parameters the spec leaves open (00_scope.md R10, R12),
each with the spec's default. They are constants of a machine (10_state.md R43): no step changes them. -/

namespace Sys2Proof

/-- ADRLEN, the effective address width: 4 (00_scope.md R9). -/
def adrLen : Nat := 4

/-- SWAP_SEMANTICS (44_swaps.md R180): what SWAB and SWAO do. -/
inductive SwapSemantics where
  /-- A and the other register change places through the scratch cell. -/
  | exchange
  /-- A is copied to the other register. -/
  | transfer
  deriving DecidableEq, Repr

/-- IR_DRIVE_WIDTH (40_cycle.md R117): what IR drives in WRITE mode. -/
inductive IrDriveWidth where
  /-- The whole instruction byte. -/
  | full
  /-- The operand, widened with zeros. -/
  | operand
  deriving DecidableEq, Repr

/-- OPCODE_MAP (30_encoding.md R72): the 4-bit opcode of each mnemonic. It is meant to be injective
(92_eei_decisions.md D1); `OpcodeMap.injective` of WellFormed.lean is that check. -/
structure OpcodeMap where
  lda : Nibble
  ldo : Nibble
  adda : Nibble
  addo : Nibble
  suba : Nibble
  subo : Nibble
  stoa : Nibble
  stoo : Nibble
  swab : Nibble
  swao : Nibble
  jmpz : Nibble
  jmpc : Nibble
  hlt : Nibble
  deriving DecidableEq, Repr

/-- The default OPCODE_MAP: the mnemonics in the listing order, from 0 (30_encoding.md R72). -/
def OpcodeMap.default : OpcodeMap where
  lda := 0x0
  ldo := 0x1
  adda := 0x2
  addo := 0x3
  suba := 0x4
  subo := 0x5
  stoa := 0x6
  stoo := 0x7
  swab := 0x8
  swao := 0x9
  jmpz := 0xA
  jmpc := 0xB
  hlt := 0xC

/-- The parameters of one machine (00_scope.md R10, R12). INIT_STATE is no part of them: it acts only at construction. -/
structure Params where
  /-- PAGES: the memory holds 2^PAGES bytes. -/
  pages : Nat
  swap : SwapSemantics
  irDrive : IrDriveWidth
  opcodes : OpcodeMap
  deriving DecidableEq, Repr

/-- The spec's defaults: PAGES = 4, SWAP_SEMANTICS = exchange, IR_DRIVE_WIDTH = full, the map of R72. -/
def Params.default : Params where
  pages := 4
  swap := .exchange
  irDrive := .full
  opcodes := .default

/-- The number of memory cells, 2^PAGES (20_memory.md R50). -/
def Params.cells (p : Params) : Nat := 2 ^ p.pages

end Sys2Proof
end

