-- ==== Sys2Proof/Syntax.lean ====
section
/-! DEFINITION. The instruction set: the thirteen instructions of 00_scope.md R3, one constructor for each row of
spec/opcode_table.json, every one with its 4-bit operand (30_encoding.md R70, R71, R74). -/

namespace Sys2Proof

/-- The thirteen mnemonics (00_scope.md R3), in the order of 30_encoding.md R72. -/
inductive Mnemonic where
  | lda
  | ldo
  | adda
  | addo
  | suba
  | subo
  | stoa
  | stoo
  | swab
  | swao
  | jmpz
  | jmpc
  | hlt
  deriving DecidableEq, Repr

/-- Every mnemonic, in the order of 30_encoding.md R72. -/
def Mnemonic.all : List Mnemonic :=
  [.lda, .ldo, .adda, .addo, .suba, .subo, .stoa, .stoo, .swab, .swao, .jmpz, .jmpc, .hlt]

/-- One instruction. The operand of ADDA, ADDO, SUBA, SUBO and HLT is not used but as the value left in AR
(30_encoding.md R71), so it is kept: two bytes that differ in it are two instructions (R74). -/
inductive Instr where
  /-- A <- mem[n] (41_loads.md R140). -/
  | lda (n : Nibble)
  /-- O <- mem[n] (41_loads.md R141). -/
  | ldo (n : Nibble)
  /-- A <- A + B (42_alu_arith.md R157). -/
  | adda (n : Nibble)
  /-- O <- A + B (42_alu_arith.md R158). -/
  | addo (n : Nibble)
  /-- A <- A - B (42_alu_arith.md R159). -/
  | suba (n : Nibble)
  /-- O <- A - B (42_alu_arith.md R160). -/
  | subo (n : Nibble)
  /-- mem[n] <- A (43_stores.md R170). -/
  | stoa (n : Nibble)
  /-- mem[n] <- O (43_stores.md R171). -/
  | stoo (n : Nibble)
  /-- Swap A with B (44_swaps.md R181). -/
  | swab (n : Nibble)
  /-- Swap A with O (44_swaps.md R182). -/
  | swao (n : Nibble)
  /-- Jump to n if ZERO (45_control.md R190). -/
  | jmpz (n : Nibble)
  /-- Jump to n if CARRY (45_control.md R191). -/
  | jmpc (n : Nibble)
  /-- Halt the clock (45_control.md R192). -/
  | hlt (n : Nibble)
  deriving DecidableEq, Repr

/-- The mnemonic of an instruction. -/
def Instr.mnemonic : Instr → Mnemonic
  | .lda _ => .lda
  | .ldo _ => .ldo
  | .adda _ => .adda
  | .addo _ => .addo
  | .suba _ => .suba
  | .subo _ => .subo
  | .stoa _ => .stoa
  | .stoo _ => .stoo
  | .swab _ => .swab
  | .swao _ => .swao
  | .jmpz _ => .jmpz
  | .jmpc _ => .jmpc
  | .hlt _ => .hlt

/-- The operand of an instruction. -/
def Instr.operand : Instr → Nibble
  | .lda n => n
  | .ldo n => n
  | .adda n => n
  | .addo n => n
  | .suba n => n
  | .subo n => n
  | .stoa n => n
  | .stoo n => n
  | .swab n => n
  | .swao n => n
  | .jmpz n => n
  | .jmpc n => n
  | .hlt n => n

/-- The instruction of a mnemonic and an operand. -/
def Mnemonic.instr : Mnemonic → Nibble → Instr
  | .lda => .lda
  | .ldo => .ldo
  | .adda => .adda
  | .addo => .addo
  | .suba => .suba
  | .subo => .subo
  | .stoa => .stoa
  | .stoo => .stoo
  | .swab => .swab
  | .swao => .swao
  | .jmpz => .jmpz
  | .jmpc => .jmpc
  | .hlt => .hlt

/-- The opcode a map gives a mnemonic. -/
def OpcodeMap.code (m : OpcodeMap) : Mnemonic → Nibble
  | .lda => m.lda
  | .ldo => m.ldo
  | .adda => m.adda
  | .addo => m.addo
  | .suba => m.suba
  | .subo => m.subo
  | .stoa => m.stoa
  | .stoo => m.stoo
  | .swab => m.swab
  | .swao => m.swao
  | .jmpz => m.jmpz
  | .jmpc => m.jmpc
  | .hlt => m.hlt

end Sys2Proof
end

