-- ==== Sys2Proof/WellFormed.lean ====
section
/-! DEFINITION. The checks on a machine's parameters and on an instruction under them. An operand needs no check: all 16
values are legal for every instruction (30_encoding.md R74), and its type holds no other. What can be ill-formed is an
OPCODE_MAP that gives two mnemonics one opcode (92_eei_decisions.md D1), and a PAGES above ADRLEN (60_exceptions.md R202). -/

namespace Sys2Proof

/-- No two mnemonics have one opcode (92_eei_decisions.md D1). -/
def OpcodeMap.injective (m : OpcodeMap) : Bool :=
  decide (Mnemonic.all.map m.code).Nodup

/-- An instruction is well-formed under a map when no other mnemonic has its opcode, so that its byte names it alone. -/
def Instr.wellFormed (m : OpcodeMap) (i : Instr) : Bool :=
  Mnemonic.all.all fun k => k == i.mnemonic || m.code k != m.code i.mnemonic

/-- The parameters of a machine that can be constructed: PAGES <= ADRLEN (60_exceptions.md R202) and an injective map. -/
def Params.wellFormed (p : Params) : Bool :=
  decide (p.pages ≤ adrLen) && p.opcodes.injective

end Sys2Proof
end

