-- ==== Sys2Proof/Decode.lean ====
section
/-! DEFINITION. The instruction byte: opcode in bits 7 to 4, operand in bits 3 to 0 (30_encoding.md R70). The decoder is total
and rejects by name; the encoder is written from the same layout and map. -/

namespace Sys2Proof

/-- `b[7:4]` (00_scope.md R14). -/
def Byte.high (b : Byte) : Nibble := b.extractLsb' 4 4

/-- `b[3:0]` (00_scope.md R14). -/
def Byte.low (b : Byte) : Nibble := b.extractLsb' 0 4

/-- `zext_8` of a 4-bit value (00_scope.md R16). -/
def Nibble.zext (n : Nibble) : Byte := n.setWidth 8

/-- Why a byte is no instruction. -/
inductive Reject where
  /-- The opcode has no entry in the map (30_encoding.md R73); the machine raises DecodeError on it (60_exceptions.md R204). -/
  | opcodeUnassigned (opcode : Nibble)
  deriving DecidableEq, Repr

/-- The mnemonic a map gives an opcode, if any. Under a map that is not injective it is the first in the order of
30_encoding.md R72; no machine is constructed with such a map (assumption log 13). -/
def OpcodeMap.mnemonic? (m : OpcodeMap) (op : Nibble) : Option Mnemonic :=
  Mnemonic.all.find? fun k => m.code k == op

/-- The instruction of a byte (30_encoding.md R70, R72, R73). -/
def decode (m : OpcodeMap) (b : Byte) : Except Reject Instr :=
  match m.mnemonic? b.high with
  | some k => .ok (k.instr b.low)
  | none => .error (.opcodeUnassigned b.high)

/-- The byte of an instruction: `opcode << 4 | operand` (30_encoding.md R70, R97). -/
def encode (m : OpcodeMap) (i : Instr) : Byte := m.code i.mnemonic ++ i.operand

/-- The instruction the decoder reads, under the default OPCODE_MAP, from an instruction whose bits are `w`. Every
instruction is one byte (30_encoding.md R75), so only the low 8 of the `nbits` bits are its own. -/
def decodeTableWord (nbits w : Nat) : Option Instr :=
  match decode .default (BitVec.ofNat 8 (w % 2 ^ nbits)) with
  | .ok i => some i
  | .error _ => none

end Sys2Proof
end

