-- ==== Sys2Proof/Machine/State.lean ====
section
/-! DEFINITION. The state of the core, whole (10_state.md R20), as plain data; the reasons a step can stop; the state right
after reset (R44). `params` is the model's own field: the construction's parameters, which nothing changes (R43). -/

namespace Sys2Proof.Machine

/-- A device's tri-state mode (10_state.md R37). -/
inductive Mode where
  | float
  | read
  | write
  deriving DecidableEq, Repr

/-- The eight devices on the bus, in the fan-out order of 40_cycle.md R108. -/
inductive Device where
  | alu
  | a
  | b
  | o
  | memory
  | pc
  | ar
  | ir
  deriving DecidableEq, Repr

/-- The tri-state mode of each of the eight devices (10_state.md R37). -/
structure Modes where
  alu : Mode
  a : Mode
  b : Mode
  o : Mode
  memory : Mode
  pc : Mode
  ar : Mode
  ir : Mode
  deriving DecidableEq, Repr

/-- Every device FLOAT: the modes at reset and at every instruction boundary (10_state.md R44, 40_cycle.md R121). -/
def Modes.allFloat : Modes := ⟨.float, .float, .float, .float, .float, .float, .float, .float⟩

/-- The ALU's internal state (10_state.md R36). -/
structure Alu where
  /-- The output byte; it changes only at a compute. -/
  out : Byte
  /-- Set from pin SU at every fan-out. -/
  subtractMode : Bool
  /-- The seed carry of the last compute. -/
  carryIn : Bool
  /-- The final carry of the last compute. -/
  carryOut : Bool
  deriving DecidableEq, Repr

/-- The clock's state (10_state.md R40). "Running or halted" is held as two facts, since a load is allowed only while the
clock has never been started (60_exceptions.md R220) and a start after a halt does nothing (40_cycle.md R101): see
`Clock.running` and assumption log 7. -/
structure Clock where
  /-- `start` has set this clock running at some time. -/
  started : Bool
  /-- `halt_clock()` has been called (40_cycle.md R103). -/
  haltCalled : Bool
  /-- The output bit: 0 to 1 is a rising edge, 1 to 0 a falling edge. -/
  output : Bool
  /-- The tick period of `start(period)`; no rule depends on it (00_scope.md R11). -/
  period : Nat
  /-- The number of ticks so far, unbounded. -/
  edges : Nat
  deriving DecidableEq, Repr

/-- The clock runs: it was started, and nothing has halted it (40_cycle.md R101, R103). -/
def Clock.running (c : Clock) : Bool := c.started && !c.haltCalled

/-- The errors of 60_exceptions.md R200, each with the information its own rule says is recorded. -/
inductive CoreError where
  /-- A bus write of more than 8 bits (R201). Non-fatal. -/
  | overflow (width : Nat)
  /-- Memory asked for with PAGES > ADRLEN (R202). Construction fails, so no state records it. -/
  | capacityExceeded (pages : Nat)
  /-- The ALU commanded into READ (R203). Non-fatal. -/
  | invalidMode
  /-- No microcode word for this opcode, flag variant and cursor (R204). Fatal. -/
  | decode (opcode : Nibble) (variant : Nat) (cursor : Nat)
  /-- A Memory action at a pointer past the end (R205). Fatal. -/
  | addressOutOfRange (pointer : Nibble)
  /-- A second device entering WRITE mode in one fan-out (R207). Fatal. -/
  | busContention (first second : Device)
  /-- A program load that does not fit (R208). The load is refused, so no state records it. -/
  | programTooLarge
  deriving DecidableEq, Repr

/-- The code of an error (60_exceptions.md R200). -/
def CoreError.code : CoreError → Nat
  | .overflow _ => 1
  | .capacityExceeded _ => 2
  | .invalidMode => 3
  | .decode _ _ _ => 4
  | .addressOutOfRange _ => 5
  | .busContention _ _ => 6
  | .programTooLarge => 7

/-- Memory: (address, byte) pairs in one canonical form, see `Memory.wf` of Ops.lean (20_memory.md R50). -/
abbrev Memory := List Host.Cell

/-- The state of the core (10_state.md R20). -/
structure State where
  /-- General register A (R21). -/
  a : Byte
  /-- General register B (R22). -/
  b : Byte
  /-- Output register (R23). -/
  o : Byte
  /-- Program Counter (R25). -/
  pc : Byte
  /-- Address Register, its 4 effective bits (R31). -/
  ar : Nibble
  /-- Instruction Register (R32). -/
  ir : Byte
  /-- The byte IR last published to the ControlUnit (R33). -/
  currentInstruction : Byte
  /-- The step cursor (R34). -/
  cursor : Nat
  /-- The pin mapping: bit i is the pin at bit i of 30_encoding.md R76 (R35). -/
  pins : MicroWord
  /-- Flag ZERO (R29). -/
  zero : Bool
  /-- Flag CARRY (R29). -/
  carry : Bool
  /-- The ALU's internal state (R36). -/
  alu : Alu
  /-- The devices' tri-state modes (R37). -/
  modes : Modes
  /-- The bus byte (R38). -/
  bus : Byte
  /-- The memory cells (R39). -/
  mem : Memory
  /-- Memory's current-address pointer, written only by AR (R39). -/
  pointer : Nibble
  /-- The clock (R40). -/
  clock : Clock
  /-- The error record, oldest first (R41). -/
  errors : List CoreError
  /-- Set by a fatal error, never cleared (R41). -/
  faulted : Bool
  /-- The parameters of the construction (R43): the model's own field, changed by nothing (assumption log 4). -/
  params : Params
  deriving DecidableEq, Repr

/-- Why there is no next step: all three are the spec's stuck state, a clock on which no edge occurs (40_cycle.md R101, R103;
93_implementation_defined.md items 16 and 27). Raised by `clockEdge`, by `step` and by every meaning (assumption log 8). -/
inductive Fault where
  /-- The clock was never started, so no edge has occurred (R101, R230). Safe: the machine stands still here too. -/
  | clockNeverStarted
  /-- The clock was halted by an HLT word or by the host (R103, R119, R223). Safe: the machine stands still here too. -/
  | clockHalted
  /-- A fatal error stopped the core; the state is final and no clean end (R206). Safe: the machine stands still here too. -/
  | coreFaulted
  deriving DecidableEq, Repr

/-- Why something asked of the machine is not done. -/
inductive Refusal where
  /-- An instruction that has no meaning yet. Raised only by an arm of `exec`; no arm raises it now. Safe. -/
  | notModelled (mnemonic : String)
  /-- The host's construct or load is turned away with an error of 60_exceptions.md R200: CapacityExceededError (R202) or
  ProgramTooLarge (R208). Raised by `hostConstruct` and `hostLoad`. Safe: the spec refuses it too. -/
  | hostError (e : CoreError)
  /-- A load after the first start, which the host has no move for (R220, R224). Raised by `hostLoad`. Safe. -/
  | loadAfterStart
  /-- A second start of a running clock: R224 gives the host one start (assumption log 7). Raised by `hostStart`. Safe. -/
  | startedTwice
  /-- A construction with an OPCODE_MAP that is not injective (92_eei_decisions.md D1; assumption log 13). Raised by
  `hostConstruct`. Safe. -/
  | opcodeMapNotInjective
  deriving DecidableEq, Repr

/-- The machine right after reset, which is construction (70_reset_and_hazards.md R230), with INIT_STATE = zero and the default
parameters: the table of 10_state.md R44. The clock is halted and never started. -/
def State.reset : State where
  a := 0
  b := 0
  o := 0
  pc := 0
  ar := 0
  ir := 0
  currentInstruction := 0
  cursor := 0
  pins := 0
  zero := false
  carry := false
  alu := ⟨0, false, false, false⟩
  modes := .allFloat
  bus := 0
  mem := []
  pointer := 0
  clock := ⟨false, false, false, 0, 0⟩
  errors := []
  faulted := false
  params := .default

end Sys2Proof.Machine
end

