-- ==== Sys2Proof/Machine/Flags.lean ====
section
/-! DEFINITION. The bit-serial arithmetic of the machine and its flags: the ALU's ripple sum (42_alu_arith.md R150, R151), the
two flags (R152), the flag variant (10_state.md R30) and the PC's ripple increment (R26). -/

namespace Sys2Proof.Machine

/-- One bit of the sum: `a XOR b XOR carry` (42_alu_arith.md R151). -/
def sumBit (a b c : Bool) : Bool := a ^^ b ^^ c

/-- One bit of the carry: `((a XOR b) AND carry) OR (a AND b)` (42_alu_arith.md R151). -/
def carryBit (a b c : Bool) : Bool := ((a ^^ b) && c) || (a && b)

/-- The ripple over bits `0` to `n - 1`, least significant first: the result bits, and the carry out of the last of them. -/
def rippleUpTo (a b : Byte) (carryIn : Bool) : Nat → Byte × Bool
  | 0 => (0, carryIn)
  | n + 1 =>
    let lower := rippleUpTo a b carryIn n
    (lower.1 ||| ((BitVec.ofBool (sumBit (a.getLsbD n) (b.getLsbD n) lower.2)).setWidth 8 <<< n),
      carryBit (a.getLsbD n) (b.getLsbD n) lower.2)

/-- What one compute yields (42_alu_arith.md R150 to R152). -/
structure AluResult where
  out : Byte
  carryIn : Bool
  carryOut : Bool
  zero : Bool
  carry : Bool
  deriving DecidableEq, Repr

/-- ZERO: the result byte is all zero (42_alu_arith.md R152). -/
def zeroFlag (r : Byte) : Bool := r == 0

/-- CARRY: the final carry-out is 1 and ZERO is not set by this result (42_alu_arith.md R152, 90_conflicts.md C5). -/
def carryFlag (r : Byte) (carryOut : Bool) : Bool := carryOut && !zeroFlag r

/-- `computeOutput()` on A and a copy of B: in subtract mode the copy is complemented and the seed carry is 1
(42_alu_arith.md R150). -/
def aluCompute (a b : Byte) (subtract : Bool) : AluResult :=
  let sum := rippleUpTo a (if subtract then ~~~b else b) subtract 8
  { out := sum.1
    carryIn := subtract
    carryOut := sum.2
    zero := zeroFlag sum.1
    carry := carryFlag sum.1 sum.2 }

/-- The PC's increment as toggles: toggle bit `i`; if it becomes 1 or `i = 7`, stop; else go on with bit `i + 1`
(10_state.md R26). The number is how many bits are left, so `i = 8 - left`. -/
def toggleFrom (b : Byte) : Nat → Byte
  | 0 => b
  | left + 1 =>
    let i := 7 - left
    let toggled := b ^^^ (1#8 <<< i)
    if toggled.getLsbD i then toggled else toggleFrom toggled left

/-- The PC's increment (10_state.md R26). -/
def incrementPc (b : Byte) : Byte := toggleFrom b 8

/-- The three flag variants the microcode table has (10_state.md R30). -/
inductive FlagVariant where
  /-- 0: neither flag. -/
  | neither
  /-- 1: ZERO. -/
  | zero
  /-- 2: CARRY. -/
  | carry
  deriving DecidableEq, Repr

/-- `flagVariant = CARRY*2 + ZERO`, the number a DecodeError records (10_state.md R30, 60_exceptions.md R204). -/
def variantNumber (zero carry : Bool) : Nat := carry.toNat * 2 + zero.toNat

/-- The table's variant for the two flags; none for 3, which no state that a run reaches has (10_state.md R29, R30). -/
def flagVariant? (zero carry : Bool) : Option FlagVariant :=
  match zero, carry with
  | false, false => some .neither
  | true, false => some .zero
  | false, true => some .carry
  | true, true => none

end Sys2Proof.Machine
end

