-- ==== Sys2Proof/Machine/Operands.lean ====
section
/-! DEFINITION. The control pins (30_encoding.md R76 to R78) and what each device offers the bus: the pins it obeys, and what it
drives in WRITE mode (40_cycle.md R112, R117). An instruction's only operand form is its 4-bit field, which reaches AR over the
bus from IR (30_encoding.md R71), so the operand forms of this machine are these drives. -/

namespace Sys2Proof.Machine

/-- The 19 named control lines (30_encoding.md R76). -/
inductive Pin where
  | eo
  | su
  | ai
  | ao
  | bi
  | bo
  | oi
  | oo
  | ri
  | ro
  | ce
  | co
  | ci
  | mi
  | mo
  | ii
  | io
  | yld
  | hlt
  deriving DecidableEq, Repr

/-- The bit of a microcode word that holds a pin (30_encoding.md R76). -/
def Pin.bit : Pin → Nat
  | .eo => 0
  | .su => 1
  | .ai => 2
  | .ao => 3
  | .bi => 4
  | .bo => 5
  | .oi => 6
  | .oo => 7
  | .ri => 8
  | .ro => 9
  | .ce => 10
  | .co => 11
  | .ci => 12
  | .mi => 13
  | .mo => 14
  | .ii => 15
  | .io => 16
  | .yld => 17
  | .hlt => 18

/-- The value of a pin in a word or in the pin mapping (30_encoding.md R77; "asserts", 00_scope.md R17). -/
def asserts (w : MicroWord) (p : Pin) : Bool := w.getLsbD p.bit

/-- The word that asserts the pins listed and no other (00_scope.md R17). -/
def word : List Pin → MicroWord
  | [] => 0
  | p :: ps => (1#19 <<< p.bit) ||| word ps

/-- The word without one pin: `pin[p] <- 0`. -/
def clearPin (w : MicroWord) (p : Pin) : MicroWord := w &&& ~~~(1#19 <<< p.bit)

/-- The fan-out order (40_cycle.md R108). -/
def fanOutOrder : List Device := [.alu, .a, .b, .o, .memory, .pc, .ar, .ir]

/-- The order in which the bus notifies its devices: the fan-out order (40_cycle.md R107). -/
def attachOrder : List Device := fanOutOrder

/-- The `in` pin of a register-like device; the ALU has none (30_encoding.md R76). -/
def Device.inPin? : Device → Option Pin
  | .alu => none
  | .a => some .ai
  | .b => some .bi
  | .o => some .oi
  | .memory => some .ri
  | .pc => some .ci
  | .ar => some .mi
  | .ir => some .ii

/-- The `out` pin of a device (30_encoding.md R76). -/
def Device.outPin : Device → Pin
  | .alu => .eo
  | .a => .ao
  | .b => .bo
  | .o => .oo
  | .memory => .ro
  | .pc => .co
  | .ar => .mo
  | .ir => .io

/-- The mode a device's pins ask for: READ if `in`, else WRITE if `out`, else FLOAT (30_encoding.md R78, 40_cycle.md R109). -/
def Device.modeOf (d : Device) (w : MicroWord) : Mode :=
  if (match d.inPin? with
      | some p => asserts w p
      | none => false) then .read
  else if asserts w d.outPin then .write
  else .float

/-- What IR drives in WRITE mode (40_cycle.md R117). -/
def irDrive (width : IrDriveWidth) (ir : Byte) : Byte :=
  match width with
  | .full => ir
  | .operand => (Byte.low ir).zext

end Sys2Proof.Machine
end

