-- ==== Sys2Proof/Machine/Ops.lean ====
section
/-! DEFINITION. The operations every meaning shares: memory cells, the error record and taking an error (this machine's only
exception), the devices' modes, latches and drives, the bus, and the pin fan-out. -/

namespace Sys2Proof.Machine

/-! ### Memory cells -/

/-- What a cell that is not listed holds: 0x00 (10_state.md R44, R46; assumption log 5). -/
def unlistedByte : Byte := 0

/-- The byte in cell `i` (`MemRead`, 20_memory.md R53). -/
def Memory.read : Memory → Nat → Byte
  | [], _ => unlistedByte
  | (k, v) :: rest, i => if k = i then v else Memory.read rest i

/-- The pair a cell is listed as: none for a cell that holds what an unlisted one reads as. -/
def Memory.cell (i : Nat) (v : Byte) : Memory := if v = unlistedByte then [] else [(i, v)]

/-- Write byte `v` into cell `i` (`MemWrite`, 20_memory.md R53), keeping the canonical form. -/
def Memory.write : Memory → Nat → Byte → Memory
  | [], i, v => Memory.cell i v
  | (k, w) :: rest, i, v =>
    if i < k then Memory.cell i v ++ (k, w) :: rest
    else if i = k then Memory.cell i v ++ rest
    else (k, w) :: Memory.write rest i v

/-- The canonical form from a lower bound on: addresses strictly rising, none below the bound, none listed as unlisted. -/
def Memory.wfFrom (lowest : Nat) : Memory → Bool
  | [] => true
  | (k, v) :: rest => decide (lowest ≤ k) && v != unlistedByte && Memory.wfFrom (k + 1) rest

/-- The canonical form: equal memories are equal lists. -/
def Memory.wf (m : Memory) : Bool := Memory.wfFrom 0 m

/-- Every listed cell is one of the first `cells` cells (20_memory.md R59). -/
def Memory.within (cells : Nat) (m : Memory) : Bool := m.all fun c => decide (c.1 < cells)

/-! ### The clock and the error record -/

/-- `halt_clock()` (40_cycle.md R103). -/
def State.haltClock (s : State) : State := { s with clock := { s.clock with haltCalled := true } }

/-- Append an error to the record (10_state.md R41, 60_exceptions.md R209). -/
def State.record (e : CoreError) (s : State) : State := { s with errors := s.errors ++ [e] }

/-- TAKING A FATAL ERROR, the one exception entry of this machine (60_exceptions.md R206): the error is recorded, `faulted` is
set and the clock halts. Nothing is saved, no mode changes and control goes nowhere (R211). There is no return from it: no
instruction, handler or resumption exists (R212), so no operation stands beside this one. -/
def State.raiseFatal (e : CoreError) (s : State) : State := { s.record e with faulted := true }.haltClock

/-- Why a clock that is not running stands still. -/
def State.stopReason (s : State) : Fault :=
  if s.faulted then .coreFaulted else if s.clock.haltCalled then .clockHalted else .clockNeverStarted

/-- How far an edge got: it goes on from a state, or a fatal error stopped it in one, with the rest of the edge not done
(60_exceptions.md R206). -/
inductive Flow where
  | going (s : State)
  | stopped (s : State)
  deriving DecidableEq, Repr

/-- Go on from where the edge got to, unless it has stopped. -/
def Flow.andThen (r : Flow) (f : State → Flow) : Flow :=
  match r with
  | .going s => f s
  | .stopped s => .stopped s

/-! ### Modes, latches and drives -/

/-- The mode of a device. -/
def Modes.get (m : Modes) : Device → Mode
  | .alu => m.alu
  | .a => m.a
  | .b => m.b
  | .o => m.o
  | .memory => m.memory
  | .pc => m.pc
  | .ar => m.ar
  | .ir => m.ir

/-- The modes with one device's mode replaced. -/
def Modes.set (m : Modes) (d : Device) (x : Mode) : Modes :=
  match d with
  | .alu => { m with alu := x }
  | .a => { m with a := x }
  | .b => { m with b := x }
  | .o => { m with o := x }
  | .memory => { m with memory := x }
  | .pc => { m with pc := x }
  | .ar => { m with ar := x }
  | .ir => { m with ir := x }

/-- Put a device into a mode. Commanding the ALU into READ is InvalidModeError: recorded, state unchanged, the cycle goes on
(60_exceptions.md R203, 40_cycle.md R113; assumption log 10). -/
def State.commandMode (d : Device) (x : Mode) (s : State) : State :=
  if d = .alu ∧ x = .read then s.record .invalidMode else { s with modes := s.modes.set d x }

/-- Memory's pointer names a cell: it is less than 2^PAGES (20_memory.md R55). -/
def State.pointerInRange (s : State) : Bool := decide (s.pointer.toNat < s.params.cells)

/-- The latch of each device in READ mode (40_cycle.md R112). AR keeps the low 4 bits and publishes them to Memory
(10_state.md R31), IR publishes its byte to the ControlUnit (R32), Memory writes the cell at its pointer, or raises
AddressOutOfRange (60_exceptions.md R205). The ALU has no latch: READ is an invalid operation for it (10_state.md R36). -/
def State.latch (d : Device) (v : Byte) (s : State) : Flow :=
  match d with
  | .alu => .going (s.record .invalidMode)
  | .a => .going { s with a := v }
  | .b => .going { s with b := v }
  | .o => .going { s with o := v }
  | .memory =>
    if s.pointerInRange then .going { s with mem := s.mem.write s.pointer.toNat v }
    else .stopped (s.raiseFatal (.addressOutOfRange s.pointer))
  | .pc => .going { s with pc := v }
  | .ar => .going { s with ar := v.low, pointer := v.low }
  | .ir => .going { s with ir := v, currentInstruction := v }

/-! ### The bus -/

/-- The bus byte after a write of `w <= 8` bits: right-aligned, the upper bits as they were (40_cycle.md R106). -/
def alignLow (bus : Byte) {w : Nat} (data : BitVec w) : Byte := (bus >>> w <<< w) ||| data.setWidth 8

/-- Notify the devices of a list that are in READ mode: each latches the bus byte (40_cycle.md R106). -/
def State.notify : List Device → State → Flow
  | [], s => .going s
  | d :: ds, s =>
    if s.modes.get d = .read then (s.latch d s.bus).andThen (State.notify ds) else s.notify ds

/-- `BusWrite(data)` of `w` bits (40_cycle.md R106). More than 8 bits is OverflowError: recorded, the low 8 bits are written,
and the readers are notified as for any write (60_exceptions.md R201). -/
def State.busWrite {w : Nat} (data : BitVec w) (s : State) : Flow :=
  if w ≤ 8 then { s with bus := alignLow s.bus data }.notify attachOrder
  else { s.record (.overflow w) with bus := data.setWidth 8 }.notify attachOrder

/-- The drive of each device in WRITE mode (40_cycle.md R112, R113, R117). AR's is 4 bits wide; Memory's raises
AddressOutOfRange at a pointer past the end, and then no bus write is performed (60_exceptions.md R205). -/
def State.drive (d : Device) (s : State) : Flow :=
  match d with
  | .alu => s.busWrite s.alu.out
  | .a => s.busWrite s.a
  | .b => s.busWrite s.b
  | .o => s.busWrite s.o
  | .memory =>
    if s.pointerInRange then s.busWrite (s.mem.read s.pointer.toNat)
    else .stopped (s.raiseFatal (.addressOutOfRange s.pointer))
  | .pc => s.busWrite s.pc
  | .ar => s.busWrite s.ar
  | .ir => s.busWrite (irDrive s.params.irDrive s.ir)

/-! ### The pin fan-out -/

/-- `computeOutput()`: the ALU reads A and a copy of B directly, and assigns its output, both carries and both flags
(42_alu_arith.md R150 to R152). -/
def State.computeOutput (s : State) : State :=
  let r := aluCompute s.a s.b s.alu.subtractMode
  { s with
    alu := { s.alu with out := r.out, carryIn := r.carryIn, carryOut := r.carryOut }
    zero := r.zero
    carry := r.carry }

/-- What a device does on its pins before its mode changes: the ALU records SU as its subtract mode and, if EO, computes
(40_cycle.md R113); the PC, if CE, increments and clears that pin (R115); the others do nothing. -/
def State.prepare (d : Device) (s : State) : State :=
  match d with
  | .alu =>
    let t := { s with alu := { s.alu with subtractMode := asserts s.pins .su } }
    if asserts s.pins .eo then t.computeOutput else t
  | .pc => if asserts s.pins .ce then { s with pc := incrementPc s.pc, pins := clearPin s.pins .ce } else s
  | .a | .b | .o | .memory | .ar | .ir => s

/-- `updateState(d)` (40_cycle.md R109). `writer` is the device that has already entered WRITE mode in this fan-out, if any: a
second one is BusContention, at its WRITE and before its bus write (R111, 60_exceptions.md R207; assumption log 9). -/
def State.updateState (d : Device) (writer : Option Device) (s : State) : Flow :=
  match s.modes.get d with
  | .read => s.latch d s.bus
  | .write =>
    match writer with
    | none => s.drive d
    | some first => .stopped (s.raiseFatal (.busContention first d))
  | .float => .going s

/-- `updateControlPins` of a device with the current pins: its own action, its mode, and at once its `updateState`
(40_cycle.md R109, R113, R115). -/
def State.updateControlPins (d : Device) (writer : Option Device) (s : State) : Flow :=
  let t := s.prepare d
  (t.commandMode d (d.modeOf t.pins)).updateState d writer

/-- The fan-out over a list of devices, one after another; a fatal error leaves the later ones out (60_exceptions.md R206). -/
def State.fanOut : List Device → Option Device → State → Flow
  | [], _, s => .going s
  | d :: ds, writer, s =>
    (s.updateControlPins d writer).andThen fun t =>
      t.fanOut ds (if t.modes.get d = .write then some d else writer)

/-- `updateAllPins()` (40_cycle.md R108). -/
def State.updateAllPins (s : State) : Flow := s.fanOut fanOutOrder none

end Sys2Proof.Machine
end

