-- ==== Sys2Proof/Machine/Cycle.lean ====
section
/-! DEFINITION. The clock's two edges over a looked-up microcode word (40_cycle.md R100, R116, R118), and a run of edges from one
instruction boundary to the next (R121), which every instruction's meaning is. -/

namespace Sys2Proof.Machine

/-- A row of the microcode table: the words of one opcode for each flag variant (30_encoding.md R90). -/
abbrev Row := FlagVariant → List MicroWord

/-- The word of a row at the state's flags and cursor: none for flag variant 3 and for a cursor past the row's end, which are
table misses (40_cycle.md R116). The variant is computed from the current flags at every rising edge (10_state.md R30). -/
def Row.word? (row : Row) (s : State) : Option MicroWord :=
  match flagVariant? s.zero s.carry with
  | some v => (row v)[s.cursor]?
  | none => none

/-- `raise DecodeError(op, v, cursor)`: fatal, with no pin assigned (40_cycle.md R116, 60_exceptions.md R204). -/
def State.decodeError (s : State) : State :=
  s.raiseFatal (.decode s.currentInstruction.high (variantNumber s.zero s.carry) s.cursor)

/-- The rising edge after its table lookup: `executeMicroInstruction()` (40_cycle.md R116). A miss is a DecodeError. A word's
bits become the pins (30_encoding.md R77); the yield word resets the cursor and fans nothing out (R120); another word fans out
and advances the cursor, and the HLT word then halts the clock (R119). A fatal error in the fan-out leaves the cursor. -/
def State.executeWord (lookup : Option MicroWord) (s : State) : State :=
  match lookup with
  | none => s.decodeError
  | some w =>
    let t := { s with pins := w }
    if asserts t.pins .yld then { t with cursor := 0 }
    else
      match t.updateAllPins with
      | .stopped u => u
      | .going u =>
        let v := { u with cursor := u.cursor + 1 }
        if asserts v.pins .hlt then v.haltClock else v

/-- The falling edge: `zeroPins()` (40_cycle.md R118). -/
def State.zeroPins (s : State) : State :=
  match { s with pins := 0 }.updateAllPins with
  | .going t => t
  | .stopped t => t

/-- One tick counted, and the output bit alternated (40_cycle.md R100, R102). -/
def State.countTick (s : State) : State :=
  { s with clock := { s.clock with output := !s.clock.output, edges := s.clock.edges + 1 } }

/-- One tick of a running clock, with a way to look up the rising edge's word: the output bit alternates; 0 to 1 is a rising
edge, 1 to 0 a falling edge (40_cycle.md R100). -/
def State.tick (lookup : State → Option MicroWord) (s : State) : State :=
  if s.clock.output then s.countTick.zeroPins else s.countTick.executeWord (lookup s)

/-- At most `fuel` ticks: until the condition holds, or until the clock has stopped. -/
def State.runEdges (lookup : State → Option MicroWord) (done : State → Bool) : Nat → State → State
  | 0, s => s
  | fuel + 1, s =>
    if s.clock.running && !done s then (s.tick lookup).runEdges lookup done fuel else s

/-- Between two instructions: the cursor is 0 and the last tick was a falling edge, or there was none (40_cycle.md R121). -/
def State.betweenInstructions (s : State) : Bool := s.cursor == 0 && !s.clock.output

/-- The instruction byte has been fetched: steps 0 and 1 of the common prefix are over, with their falling edges
(40_cycle.md R114). -/
def State.fetchDone (s : State) : Bool := decide (2 ≤ s.cursor) && !s.clock.output

/-- Enough ticks for steps 0 and 1 of the prefix: at most 4, and one falling edge before them. -/
def fetchFuel : Nat := 5

/-- Enough ticks for the words from step 2 on: at most 5 of them (30_encoding.md R96), two ticks each. -/
def bodyFuel : Nat := 10

/-- IR and `currentInstruction` hold a byte, as IR's latch leaves them (10_state.md R32). -/
def State.publish (v : Byte) (s : State) : State := { s with ir := v, currentInstruction := v }

/-- THE MEANING OF AN INSTRUCTION, given its row of the microcode table: the edges from where the state stands to the next
instruction boundary (40_cycle.md R121, R122). The fetch, if it is still to be done, is steps 0 and 1; then IR holds the byte of
this instruction, whatever memory held; then the row's words run from step 2, or from where the state stands, to the yield
word. A fatal error or an HLT word ends the run, with the clock halted. In a step of the machine the byte published here is
the byte the fetch has just latched (assumption log 3). A clock that is not running has no next edge. -/
def State.runInstruction (i : Instr) (row : Row) (s : State) : Host.Outcome State Fault Refusal :=
  if s.clock.running then
    let fetched := s.runEdges row.word? State.fetchDone fetchFuel
    if fetched.clock.running then
      .next ((fetched.publish (encode s.params.opcodes i)).runEdges row.word? State.betweenInstructions bodyFuel)
    else .next fetched
  else .fault s.stopReason

/-! ### The words every row has -/

/-- The common prefix: `CO|MI`, `RO|II|CE`, `IO|MI` (30_encoding.md R91). -/
def prefixWords : List MicroWord := [word [.co, .mi], word [.ro, .ii, .ce], word [.io, .mi]]

/-- The yield word, the last of every sequence (30_encoding.md R90). -/
def yieldWord : MicroWord := word [.yld]

/-- A sequence: the common prefix, a body, the yield word (30_encoding.md R90). -/
def sequence (body : List MicroWord) : List MicroWord := prefixWords ++ body ++ [yieldWord]

end Sys2Proof.Machine
end

