-- ==== Sys2Proof/Machine/Arith.lean ====
section
/-! DEFINITION. The ALU instructions (42_alu_arith.md): their microcode rows (30_encoding.md R92) and meanings. The sum, the
difference and the flags are `aluCompute` of Flags.lean; the ALU is first in the fan-out, so it computes from the registers as
the instruction found them (R156). -/

namespace Sys2Proof.Machine

/-- ADDA: `EO|AI`, in every variant (30_encoding.md R92). -/
def rowAdda : Row := fun _ => sequence [word [.eo, .ai]]

/-- ADDO: `EO|OI`, in every variant (30_encoding.md R92). -/
def rowAddo : Row := fun _ => sequence [word [.eo, .oi]]

/-- SUBA: `EO|SU|AI`, in every variant (30_encoding.md R92). -/
def rowSuba : Row := fun _ => sequence [word [.eo, .su, .ai]]

/-- SUBO: `EO|SU|OI`, in every variant (30_encoding.md R92). -/
def rowSubo : Row := fun _ => sequence [word [.eo, .su, .oi]]

/-- ADDA: A <- A + B, with both flags (42_alu_arith.md R157). -/
def execAdda (n : Nibble) (s : State) : Host.Outcome State Fault Refusal := s.runInstruction (.adda n) rowAdda

/-- ADDO: O <- A + B, with both flags (42_alu_arith.md R158). -/
def execAddo (n : Nibble) (s : State) : Host.Outcome State Fault Refusal := s.runInstruction (.addo n) rowAddo

/-- SUBA: A <- A - B, with both flags (42_alu_arith.md R159). -/
def execSuba (n : Nibble) (s : State) : Host.Outcome State Fault Refusal := s.runInstruction (.suba n) rowSuba

/-- SUBO: O <- A - B, with both flags (42_alu_arith.md R160). -/
def execSubo (n : Nibble) (s : State) : Host.Outcome State Fault Refusal := s.runInstruction (.subo n) rowSubo

end Sys2Proof.Machine
end

