-- ==== Sys2Proof/Machine/Control.lean ====
section
/-! DEFINITION. The jumps and the halt (45_control.md): their microcode rows (30_encoding.md R92) and meanings. -/

namespace Sys2Proof.Machine

/-- JMPZ: `IO|CI` in variant 1 (ZERO); no body word in the others (30_encoding.md R92). -/
def rowJmpz : Row
  | .neither => sequence []
  | .zero => sequence [word [.io, .ci]]
  | .carry => sequence []

/-- JMPC: `IO|CI` in variant 2 (CARRY); no body word in the others (30_encoding.md R92). -/
def rowJmpc : Row
  | .neither => sequence []
  | .zero => sequence []
  | .carry => sequence [word [.io, .ci]]

/-- HLT: the HLT word, in every variant (30_encoding.md R92). -/
def rowHlt : Row := fun _ => sequence [word [.hlt]]

/-- JMPZ n: PC <- IR's drive if ZERO, so the next fetch is from n (45_control.md R190). -/
def execJmpz (n : Nibble) (s : State) : Host.Outcome State Fault Refusal := s.runInstruction (.jmpz n) rowJmpz

/-- JMPC n: PC <- IR's drive if CARRY, so the next fetch is from n (45_control.md R191). -/
def execJmpc (n : Nibble) (s : State) : Host.Outcome State Fault Refusal := s.runInstruction (.jmpc n) rowJmpc

/-- HLT: halt the clock in step 3, within its rising edge (45_control.md R192). -/
def execHlt (n : Nibble) (s : State) : Host.Outcome State Fault Refusal := s.runInstruction (.hlt n) rowHlt

end Sys2Proof.Machine
end

