-- ==== Sys2Proof/Machine/Loads.lean ====
section
/-! DEFINITION. The loads (41_loads.md): their microcode rows (30_encoding.md R92) and meanings. -/

namespace Sys2Proof.Machine

/-- LDA: `RO|AI`, in every variant (30_encoding.md R92). -/
def rowLda : Row := fun _ => sequence [word [.ro, .ai]]

/-- LDO: `RO|OI`, in every variant (30_encoding.md R92). -/
def rowLdo : Row := fun _ => sequence [word [.ro, .oi]]

/-- LDA n: A <- mem[n] (41_loads.md R140). -/
def execLda (n : Nibble) (s : State) : Host.Outcome State Fault Refusal := s.runInstruction (.lda n) rowLda

/-- LDO n: O <- mem[n] (41_loads.md R141). -/
def execLdo (n : Nibble) (s : State) : Host.Outcome State Fault Refusal := s.runInstruction (.ldo n) rowLdo

end Sys2Proof.Machine
end

