-- ==== Sys2Proof/Machine/Stores.lean ====
section
/-! DEFINITION. The stores (43_stores.md): their microcode rows (30_encoding.md R92) and meanings. -/

namespace Sys2Proof.Machine

/-- STOA: `AO|RI`, in every variant (30_encoding.md R92). -/
def rowStoa : Row := fun _ => sequence [word [.ao, .ri]]

/-- STOO: `OO|RI`, in every variant (30_encoding.md R92). -/
def rowStoo : Row := fun _ => sequence [word [.oo, .ri]]

/-- STOA n: mem[n] <- A (43_stores.md R170). -/
def execStoa (n : Nibble) (s : State) : Host.Outcome State Fault Refusal := s.runInstruction (.stoa n) rowStoa

/-- STOO n: mem[n] <- O (43_stores.md R171). -/
def execStoo (n : Nibble) (s : State) : Host.Outcome State Fault Refusal := s.runInstruction (.stoo n) rowStoo

end Sys2Proof.Machine
end

