-- ==== Sys2Proof/Machine/Swaps.lean ====
section
/-! DEFINITION. The register swaps (44_swaps.md): their microcode rows under both settings of SWAP_SEMANTICS (30_encoding.md
R92, R93) and meanings. -/

namespace Sys2Proof.Machine

/-- SWAB: `AO|RI`, `BO|AI`, `RO|BI` under exchange (30_encoding.md R92), `AO|BI` under transfer (R93), in every variant. -/
def rowSwab (semantics : SwapSemantics) : Row := fun _ =>
  match semantics with
  | .exchange => sequence [word [.ao, .ri], word [.bo, .ai], word [.ro, .bi]]
  | .transfer => sequence [word [.ao, .bi]]

/-- SWAO: `AO|RI`, `OO|AI`, `RO|OI` under exchange (30_encoding.md R92), `AO|OI` under transfer (R93), in every variant. -/
def rowSwao (semantics : SwapSemantics) : Row := fun _ =>
  match semantics with
  | .exchange => sequence [word [.ao, .ri], word [.oo, .ai], word [.ro, .oi]]
  | .transfer => sequence [word [.ao, .oi]]

/-- SWAB n: exchange A and B through cell n, or B <- A (44_swaps.md R181). -/
def execSwab (n : Nibble) (s : State) : Host.Outcome State Fault Refusal := s.runInstruction (.swab n) (rowSwab s.params.swap)

/-- SWAO n: exchange A and O through cell n, or O <- A (44_swaps.md R182). -/
def execSwao (n : Nibble) (s : State) : Host.Outcome State Fault Refusal := s.runInstruction (.swao n) (rowSwao s.params.swap)

end Sys2Proof.Machine
end

