-- ==== Sys2Proof/Machine/Microcode.lean ====
section
/-! DEFINITION. The microcode table whole (30_encoding.md R90 to R93), its lookup by the ControlUnit, one clock edge of the
machine, and the fetch of an instruction's byte. -/

namespace Sys2Proof.Machine

/-- The rows of the table by mnemonic (30_encoding.md R92, R93). -/
def microcodeRow (semantics : SwapSemantics) : Mnemonic → Row
  | .lda => rowLda
  | .ldo => rowLdo
  | .adda => rowAdda
  | .addo => rowAddo
  | .suba => rowSuba
  | .subo => rowSubo
  | .stoa => rowStoa
  | .stoo => rowStoo
  | .swab => rowSwab semantics
  | .swao => rowSwao semantics
  | .jmpz => rowJmpz
  | .jmpc => rowJmpc
  | .hlt => rowHlt

/-- The table's row for an opcode, if it has an entry (30_encoding.md R72, R73, R90). -/
def tableRow? (p : Params) (opcode : Nibble) : Option Row :=
  (p.opcodes.mnemonic? opcode).map (microcodeRow p.swap)

/-- `table[opcode][flagVariant][cursor]` at the state's `currentInstruction`, flags and cursor (40_cycle.md R116). -/
def State.tableWord? (s : State) : Option MicroWord :=
  match tableRow? s.params s.currentInstruction.high with
  | some row => row.word? s
  | none => none

/-- ONE CLOCK EDGE of the machine (00_scope.md R8, 40_cycle.md R100). A clock that is not running has none (R103). -/
def clockEdge (s : State) : Host.Outcome State Fault Refusal :=
  if s.clock.running then .next (s.tick State.tableWord?) else .fault s.stopReason

/-- The fetch of the next instruction's byte: steps 0 and 1 of the prefix, looked up as the ControlUnit does, under the byte
`currentInstruction` still holds (40_cycle.md R114, 10_state.md R45). Nothing is done if the fetch is over already. -/
def State.fetch (s : State) : State := s.runEdges State.tableWord? State.fetchDone fetchFuel

/-- The address the next fetch reads: PC[3:0] (10_state.md R27). -/
def State.fetchAddress (s : State) : Nat := s.pc.low.toNat

/-- The byte the next fetch reads. -/
def State.fetchByte (s : State) : Byte := s.mem.read s.fetchAddress

end Sys2Proof.Machine
end

