-- ==== Sys2Proof/Machine/Dispatch.lean ====
section
/-! DEFINITION. The dispatch of an instruction to its meaning. -/

namespace Sys2Proof.Machine

def exec (i : Instr) (s : State) : Host.Outcome State Fault Refusal :=
  match i with
  | .lda n => Sys2Proof.Machine.execLda n s
  | .ldo n => Sys2Proof.Machine.execLdo n s
  | .adda n => Sys2Proof.Machine.execAdda n s
  | .addo n => Sys2Proof.Machine.execAddo n s
  | .suba n => Sys2Proof.Machine.execSuba n s
  | .subo n => Sys2Proof.Machine.execSubo n s
  | .stoa n => Sys2Proof.Machine.execStoa n s
  | .stoo n => Sys2Proof.Machine.execStoo n s
  | .swab n => Sys2Proof.Machine.execSwab n s
  | .swao n => Sys2Proof.Machine.execSwao n s
  | .jmpz n => Sys2Proof.Machine.execJmpz n s
  | .jmpc n => Sys2Proof.Machine.execJmpc n s
  | .hlt n => Sys2Proof.Machine.execHlt n s

end Sys2Proof.Machine
end

