-- ==== Sys2Proof/Machine/Step.lean ====
section
/-! DEFINITION. One step of the machine: the clock edges from where the state stands to the next instruction boundary
(40_cycle.md R121, R122; assumption log 1). One clock edge is `clockEdge` of Microcode.lean. -/

namespace Sys2Proof.Machine

/-- One step. A clock that is not running has no next step. Right after a yield word's rising edge the step is the falling
edge that ends that instruction. Otherwise the byte is fetched, unless a fatal error stops the fetch, and decoded from
`currentInstruction` as the ControlUnit does; the instruction then runs, or the rising edge that looks it up raises
DecodeError (60_exceptions.md R204). -/
def step (s : State) : Host.Outcome State Fault Refusal :=
  if s.clock.running then
    if s.cursor == 0 && s.clock.output then clockEdge s
    else
      let fetched := s.fetch
      if fetched.clock.running then
        match decode fetched.params.opcodes fetched.currentInstruction with
        | .ok i => exec i fetched
        | .error _ => clockEdge fetched
      else .next fetched
  else .fault s.stopReason

/-- The state with an instruction's byte in the cell the next fetch reads, and with the clock started: what a program load and a
`start` of the host do (70_reset_and_hazards.md R231; assumption log 2). Nothing else changes. It makes the next step fetch that
byte from an instruction boundary whose clock has not been halted, such as State.reset; a halted clock stays halted. -/
def State.withFetchWord (s : State) (nbits w : Nat) : State :=
  { s with
    mem := s.mem.write s.fetchAddress (BitVec.ofNat 8 (w % 2 ^ nbits))
    clock := { s.clock with started := true } }

end Sys2Proof.Machine
end

