-- ==== Sys2Proof/Machine/HostInterface.lean ====
section
/-! DEFINITION. The host interface, whole (60_exceptions.md R220 to R224): construct, load, start, halt and snapshot, and a run
as a list of moves, each one clock edge or one host action between edges. -/

namespace Sys2Proof.Machine

/-- INIT_STATE (10_state.md R47). Under `arbitrary` the values of A, B, O and of the memory cells, from cell 0, are drawn once, at
construction: they are arguments here, so a statement about them holds for every draw (assumption log 14). -/
inductive InitState where
  | zero
  | arbitrary (a b o : Byte) (cells : List Byte)
  deriving DecidableEq, Repr

/-- Write a list of bytes into the cells from an address on. -/
def Memory.writeFrom (m : Memory) (start : Nat) : List Byte → Memory
  | [] => m
  | v :: vs => Memory.writeFrom (m.write start v) (start + 1) vs

/-- Write a list of (address, byte) entries, in the list's order. -/
def Memory.writeEntries (m : Memory) : List (Nat × Byte) → Memory
  | [] => m
  | (i, v) :: rest => Memory.writeEntries (m.write i v) rest

/-- The state of a new core (10_state.md R44, R47). -/
def State.constructed (p : Params) (init : InitState) : State :=
  match init with
  | .zero => { State.reset with params := p }
  | .arbitrary a b o cells =>
    { State.reset with a := a, b := b, o := o, mem := Memory.writeFrom [] 0 (cells.take p.cells), params := p }

/-- `construct(PAGES)`, with the other parameters (60_exceptions.md R224). PAGES > ADRLEN is CapacityExceededError (R202). -/
def hostConstruct (p : Params) (init : InitState) : Host.Outcome State Fault Refusal :=
  if adrLen < p.pages then .refused (.hostError (.capacityExceeded p.pages))
  else if p.opcodes.injective then .next (State.constructed p init)
  else .refused .opcodeMapNotInjective

/-- A load fits: no more instruction bytes than cells, no data address past the end, no byte wider than 8 bits
(60_exceptions.md R208). -/
def loadFits (cells : Nat) (program : List Nat) (data : List (Nat × Nat)) : Bool :=
  decide (program.length ≤ cells) && program.all (fun v => decide (v < 256)) &&
    data.all fun e => decide (e.1 < cells) && decide (e.2 < 256)

/-- `load(program, data)` (60_exceptions.md R220): instruction byte k at address k, then each data entry at its address. It is
allowed only while the clock has never been started; one that does not fit is ProgramTooLarge and writes nothing (R208). -/
def hostLoad (program : List Nat) (data : List (Nat × Nat)) (s : State) : Host.Outcome State Fault Refusal :=
  if s.clock.started then .refused .loadAfterStart
  else if loadFits s.params.cells program data then
    .next { s with
      mem := Memory.writeEntries (s.mem.writeFrom 0 (program.map fun v => BitVec.ofNat 8 v))
        (data.map fun e => (e.1, BitVec.ofNat 8 e.2)) }
  else .refused (.hostError .programTooLarge)

/-- `start(period)` (40_cycle.md R101, 60_exceptions.md R221). On a clock that has been halted it does nothing; a second start of
a running clock is no move of the host's (R224). -/
def hostStart (period : Nat) (s : State) : Host.Outcome State Fault Refusal :=
  if s.clock.haltCalled then .next s
  else if s.clock.started then .refused .startedTwice
  else .next { s with clock := { s.clock with started := true, period := period } }

/-- `halt()`: stops the clock for good, between any two edges (60_exceptions.md R223). -/
def hostHalt (s : State) : Host.Outcome State Fault Refusal := .next s.haltClock

/-- The storage contents of one device in a snapshot (60_exceptions.md R222). -/
inductive Storage where
  | alu (contents : Alu)
  | byte (contents : Byte)
  | memory (cells : List Byte) (pointer : Nibble)
  | address (contents : Nibble)
  deriving DecidableEq, Repr

/-- The state snapshot (60_exceptions.md R222): for each device its mode and storage, and the ControlUnit's, bus's and clock's
state and the error record. -/
structure Snapshot where
  devices : List (Device × Mode × Storage)
  pins : MicroWord
  zero : Bool
  carry : Bool
  cursor : Nat
  currentInstruction : Byte
  bus : Byte
  clock : Clock
  errors : List CoreError
  faulted : Bool
  deriving DecidableEq, Repr

/-- The storage contents of a device: every cell and the pointer for Memory, the 4-bit value for AR (60_exceptions.md R222). -/
def State.storage (s : State) : Device → Storage
  | .alu => .alu s.alu
  | .a => .byte s.a
  | .b => .byte s.b
  | .o => .byte s.o
  | .memory => .memory ((List.range s.params.cells).map s.mem.read) s.pointer
  | .pc => .byte s.pc
  | .ar => .address s.ar
  | .ir => .byte s.ir

/-- `snapshot()` (60_exceptions.md R222). -/
def State.snapshot (s : State) : Snapshot where
  devices := fanOutOrder.map fun d => (d, s.modes.get d, s.storage d)
  pins := s.pins
  zero := s.zero
  carry := s.carry
  cursor := s.cursor
  currentInstruction := s.currentInstruction
  bus := s.bus
  clock := s.clock
  errors := s.errors
  faulted := s.faulted

/-- What the host may do after construction (60_exceptions.md R224): the complete list. -/
inductive HostAction where
  | load (program : List Nat) (data : List (Nat × Nat))
  | start (period : Nat)
  | halt
  | snapshot
  deriving DecidableEq, Repr

/-- One host action, between two edges. A snapshot changes nothing (60_exceptions.md R222). -/
def hostAction (h : HostAction) (s : State) : Host.Outcome State Fault Refusal :=
  match h with
  | .load program data => hostLoad program data s
  | .start period => hostStart period s
  | .halt => hostHalt s
  | .snapshot => .next s

/-- One move of the whole system: a clock edge, or a host action between edges (40_cycle.md R102). -/
inductive Move where
  | edge
  | host (h : HostAction)
  deriving DecidableEq, Repr

/-- One move from a state. -/
def move (m : Move) (s : State) : Host.Outcome State Fault Refusal :=
  match m with
  | .edge => clockEdge s
  | .host h => hostAction h s

/-- A run: a list of moves, up to the first that has no next state. -/
def runMoves : List Move → State → Host.Outcome State Fault Refusal
  | [], s => .next s
  | m :: ms, s =>
    match move m s with
    | .next t => runMoves ms t
    | .fault f => .fault f
    | .refused r => .refused r

end Sys2Proof.Machine
end

