-- ==== Sys2Proof/Safety.lean ====
section
/-! DEFINITION. What a good state is, in the spec's terms: an instruction boundary, a state that is ready to run a given
instruction, the invariant every edge keeps, and a run of clock edges to the next boundary. Statements are made with these. -/

namespace Sys2Proof.Machine

/-! ### Between edges -/

/-- What every state after a falling edge has: every pin 0, every device FLOAT, `subtractMode` 0, the output bit 0
(40_cycle.md R118, R121). -/
abbrev State.Quiet (s : State) : Prop :=
  s.pins = 0 ∧ s.modes = .allFloat ∧ s.alu.subtractMode = false ∧ s.clock.output = false

/-- An instruction boundary (40_cycle.md R121). -/
abbrev State.AtBoundary (s : State) : Prop := s.cursor = 0 ∧ s.Quiet

/-- The flags are not both 1 (10_state.md R29). -/
abbrev State.FlagsExclusive (s : State) : Prop := ¬(s.zero = true ∧ s.carry = true)

/-- The next edge begins an instruction: the clock runs and the state is a boundary, with the flags as every reachable state has
them. -/
abbrev State.CanBegin (s : State) : Prop := s.clock.running = true ∧ s.AtBoundary ∧ s.FlagsExclusive

/-- The address names a memory cell (20_memory.md R55). At PAGES = 4 every 4-bit address does. -/
abbrev State.InMemory (s : State) (n : Nibble) : Prop := n.toNat < s.params.cells

/-- The next edge begins instruction `i`: the cell the fetch reads exists and holds its byte. -/
abbrev State.ReadyFor (s : State) (i : Instr) : Prop :=
  s.CanBegin ∧ s.InMemory s.pc.low ∧ s.fetchByte = encode s.params.opcodes i

/-- The byte `currentInstruction` still holds has an entry in the table, so the fetch words can be looked up under it
(10_state.md R45). Every instruction that has run, and reset under the default map, leaves it so. -/
abbrev State.LookupKnown (s : State) : Prop := (s.params.opcodes.mnemonic? s.currentInstruction.high).isSome = true

/-! ### What the common prefix leaves, and how a run stops -/

/-- The effect every instruction has besides its own: PC, IR and `currentInstruction`, AR and the pointer, and the ticks counted
(40_cycle.md R114, 70_reset_and_hazards.md R246). -/
def State.afterPrefix (s : State) (i : Instr) (ticks : Nat) : State :=
  { s with
    pc := s.pc + 1
    ir := s.fetchByte
    currentInstruction := s.fetchByte
    ar := i.operand
    pointer := i.operand
    clock := { s.clock with edges := s.clock.edges + ticks } }

/-- What IR drives onto the bus in step 2 of the fetched instruction, and in a taken jump (40_cycle.md R117). -/
def State.fetchedDrive (s : State) : Byte := irDrive s.params.irDrive s.fetchByte

/-- A run that stopped inside a rising edge: the output bit is 1 and the clock is halted for good (40_cycle.md R103). -/
def State.stoppedHigh (s : State) : State := { s with clock := { s.clock with output := true, haltCalled := true } }

/-- A run that a fatal error stopped inside a rising edge (60_exceptions.md R206). -/
def State.stoppedBy (s : State) (e : CoreError) : State :=
  { s.stoppedHigh with errors := s.errors ++ [e], faulted := true }

/-- The stop at the step 1 of a fetch from an address past the end (60_exceptions.md R205, R211): the PC has driven its value in
step 0, Memory is in WRITE mode and has driven nothing, and the devices after it have not acted. -/
def State.fetchOutOfRange (s : State) : State :=
  { s with
    ar := s.pc.low
    pointer := s.pc.low
    bus := s.pc
    cursor := 1
    pins := word [.ro, .ii, .ce]
    modes := { Modes.allFloat with memory := .write }
    clock := { s.clock with edges := s.clock.edges + 3 } }.stoppedBy (.addressOutOfRange s.pc.low)

/-- The step 3 of an instruction as a fatal error in it leaves the core (60_exceptions.md R206): the prefix is done, the word is
on the pins, the cursor is still 3, 7 ticks are counted. -/
def State.stoppedAtStep3 (s : State) (i : Instr) (w : MicroWord) (modes : Modes) : State :=
  { (s.afterPrefix i 7) with cursor := 3, pins := w, modes := modes }.stoppedBy (.addressOutOfRange i.operand)

/-- The stop at step 2 of a byte whose opcode has no entry: DecodeError (60_exceptions.md R204). The fetch is done, no pin is
assigned, 5 ticks are counted. -/
def State.stoppedByDecode (s : State) : State :=
  { s with
    pc := s.pc + 1
    ir := s.fetchByte
    currentInstruction := s.fetchByte
    ar := s.pc.low
    pointer := s.pc.low
    bus := s.fetchByte
    cursor := 2
    clock := { s.clock with edges := s.clock.edges + 5 } }.stoppedBy
      (.decode s.fetchByte.high (variantNumber s.zero s.carry) 2)

/-- The ticks an instruction takes (70_reset_and_hazards.md R246). -/
def State.ticksOf (s : State) : Instr → Nat
  | .lda _ | .ldo _ | .adda _ | .addo _ | .suba _ | .subo _ | .stoa _ | .stoo _ => 10
  | .swab _ | .swao _ =>
    match s.params.swap with
    | .exchange => 14
    | .transfer => 10
  | .jmpz _ => if s.zero then 10 else 8
  | .jmpc _ => if s.carry then 10 else 8
  | .hlt _ => 7

/-! ### Runs of clock edges -/

/-- The clock edges from a state to the next instruction boundary, or until the clock stops: one edge, then at most 14 more. -/
def State.toNextBoundary (s : State) : State :=
  (s.tick State.tableWord?).runEdges State.tableWord? State.betweenInstructions 14

/-- `n` clock edges, which stop with the clock. -/
def clockEdges : Nat → State → Host.Outcome State Fault Refusal
  | 0, s => .next s
  | n + 1, s =>
    match clockEdge s with
    | .next t => clockEdges n t
    | .fault f => .fault f
    | .refused r => .refused r

/-! ### The invariant -/

/-- At most one device is in WRITE mode (10_state.md R37). -/
def Modes.singleWriter (m : Modes) : Bool := decide ((fanOutOrder.filter fun d => m.get d == .write).length ≤ 1)

/-- The cursor is inside the current sequence (10_state.md R34). For an opcode with no entry it stands where the lookup misses:
at 2, after the fetch of that opcode, or at 0, on a machine whose map does not assign 0x0 (10_state.md R45). -/
def State.cursorInSequence (s : State) : Bool :=
  match tableRow? s.params s.currentInstruction.high with
  | some row =>
    match flagVariant? s.zero s.carry with
    | some v => decide (s.cursor < (row v).length)
    | none => false
  | none => s.cursor == 0 || s.cursor == 2

/-- What every state of a run has: parameters a construction allows, memory in canonical form and inside the address space
(20_memory.md R50), AR's and IR's published copies (10_state.md R31, R32), exclusive flags (R29), one writer and an ALU that is
never in READ (R37), the quiet after a falling edge (40_cycle.md R118), a cursor in its sequence (10_state.md R34), and a halted
clock after a fatal error (60_exceptions.md R206). -/
abbrev State.Inv (s : State) : Prop :=
  s.params.wellFormed = true ∧ s.mem.wf = true ∧ s.mem.within s.params.cells = true ∧
  s.pointer = s.ar ∧ s.currentInstruction = s.ir ∧ s.FlagsExclusive ∧
  s.modes.singleWriter = true ∧ s.modes.alu ≠ .read ∧
  (s.clock.output = false → s.Quiet) ∧ s.cursorInSequence = true ∧
  (s.faulted = true → s.clock.haltCalled = true)

/-- What a program can observe, and so must be equal for two machines to be the same to it: A, B, O, memory, the flags and the
address of the next fetch (10_state.md R42), with the parameters that decide what bytes and swaps mean. PC[7:4], AR, IR, the
bus, the ALU's internal state, the clock's counts and IR_DRIVE_WIDTH are left out. -/
abbrev State.SameToProgram (s t : State) : Prop :=
  s.a = t.a ∧ s.b = t.b ∧ s.o = t.o ∧ s.mem = t.mem ∧ s.zero = t.zero ∧ s.carry = t.carry ∧
  s.pc.low = t.pc.low ∧ s.params.pages = t.params.pages ∧ s.params.swap = t.params.swap ∧
  s.params.opcodes = t.params.opcodes

end Sys2Proof.Machine
end

