-- ==== Sys2Proof/Certificates/Slice0/Obligations.lean ====
section
/-! DEFINITION. The statements for the provers. Each docstring names the rule of spec/ it formalises, or says what choice of the
model it rests on. A statement about an instruction gives the whole next state, so everything it does not name is unchanged. -/

open Sys2Proof Sys2Proof.Machine

/-! ### Bytes and instructions -/

/-- Decoding the byte of a well-formed instruction gives it back, under every OPCODE_MAP (30_encoding.md R70, R72, R74). -/
def Obligations.DecodeOfEncodeIsTheInstruction : Prop :=
  ∀ (m : OpcodeMap) (i : Instr), i.wellFormed m = true → decode m (encode m i) = .ok i

/-- A byte that decodes is the byte of its instruction, so no two bytes are one instruction (30_encoding.md R74). -/
def Obligations.EncodeOfDecodeIsTheByte : Prop :=
  ∀ (m : OpcodeMap) (b : Byte) (i : Instr), decode m b = .ok i → encode m i = b

/-- The decoder rejects exactly the bytes whose opcode no mnemonic has (30_encoding.md R73), and under an injective map every
instruction is well-formed. -/
def Obligations.DecodeRejectsExactlyUnassignedOpcodes : Prop :=
  ∀ (m : OpcodeMap) (b : Byte),
    (decode m b = .error (.opcodeUnassigned b.high) ↔ ∀ k : Mnemonic, m.code k ≠ b.high) ∧
    (m.injective = true → ∀ i : Instr, i.wellFormed m = true)

/-- Bytes written out bit by bit from the table of 30_encoding.md R72, one or more of each family, decode as it says; the three
opcodes with no entry are rejected (R73). -/
def Obligations.TableBytesDecodeAsListed : Prop :=
  decode .default 0b00001111#8 = .ok (.lda 15) ∧ decode .default 0b00011001#8 = .ok (.ldo 9) ∧
  decode .default 0b00101001#8 = .ok (.adda 9) ∧ decode .default 0b01010000#8 = .ok (.subo 0) ∧
  decode .default 0b01101100#8 = .ok (.stoa 12) ∧ decode .default 0b10001110#8 = .ok (.swab 14) ∧
  decode .default 0b10011111#8 = .ok (.swao 15) ∧ decode .default 0b10100101#8 = .ok (.jmpz 5) ∧
  decode .default 0b10110111#8 = .ok (.jmpc 7) ∧ decode .default 0b11000000#8 = .ok (.hlt 0) ∧
  decode .default 0b11010111#8 = .error (.opcodeUnassigned 13) ∧
  decode .default 0b11100000#8 = .error (.opcodeUnassigned 14) ∧
  decode .default 0b11110001#8 = .error (.opcodeUnassigned 15)

/-! ### Arithmetic and flags -/

/-- 42_alu_arith.md R153: the law of addition, with the carry-out and both flags. -/
def Obligations.AddIsModularWithExclusiveFlags : Prop :=
  ∀ a b : Byte,
    (aluCompute a b false).out = a + b ∧
    ((aluCompute a b false).carryOut = true ↔ 256 ≤ a.toNat + b.toNat) ∧
    ((aluCompute a b false).zero = true ↔ a.toNat + b.toNat = 0 ∨ a.toNat + b.toNat = 256) ∧
    ((aluCompute a b false).carry = true ↔ 256 < a.toNat + b.toNat) ∧
    ((aluCompute a b false).zero = false ∧ (aluCompute a b false).carry = false ↔
      0 < a.toNat + b.toNat ∧ a.toNat + b.toNat < 256) ∧
    ((aluCompute a b false).carryOut ≠ (aluCompute a b false).carry ↔ a.toNat + b.toNat = 256)

/-- 42_alu_arith.md R154: the law of subtraction; the flags are the unsigned comparison of A with B. -/
def Obligations.SubtractIsModularAndCompares : Prop :=
  ∀ a b : Byte,
    (aluCompute a b true).out = a - b ∧ (aluCompute a b true).out = a + ~~~b + 1 ∧
    ((aluCompute a b true).carryOut = true ↔ b.toNat ≤ a.toNat) ∧
    ((aluCompute a b true).zero = true ↔ a = b) ∧
    ((aluCompute a b true).carry = true ↔ b.toNat < a.toNat) ∧
    (flagVariant? (aluCompute a b true).zero (aluCompute a b true).carry =
      some (if a.toNat < b.toNat then .neither else if a = b then .zero else .carry)) ∧
    (b = 0 → (aluCompute a b true).carryOut = true ∧ ((aluCompute a b true).carry = true ↔ a ≠ 0) ∧
      ((aluCompute a b true).zero = true ↔ a = 0))

/-- 10_state.md R26: the ripple of toggles is the increment modulo 256. With it, R27: 256 increments are the identity, and
after address 15 the next fetch is from 0 while the PC holds 16. -/
def Obligations.PcRippleIsIncrementModulo256 : Prop :=
  (∀ b : Byte, (incrementPc b).toNat = (b.toNat + 1) % 256) ∧ (∀ b : Byte, incrementPc^[256] b = b) ∧
  (∀ b : Byte, (incrementPc b).low.toNat = (b.low.toNat + 1) % 16) ∧ incrementPc 15 = 16 ∧ (incrementPc 15).low = 0

/-! ### The loads -/

/-- 41_loads.md R140, LDA: its words, its byte, its effect, and its two AddressOutOfRange stops. -/
def Obligations.LdaLoadsTheCellIntoA : Prop :=
  (∀ v, rowLda v = [0x02800, 0x08600, 0x12000, 0x00204, 0x20000]) ∧
  (∀ n : Nibble, encode .default (.lda n) = 0x0#4 ++ n) ∧
  ∀ (n : Nibble) (s : State),
    (s.ReadyFor (.lda n) → s.InMemory n →
      exec (.lda n) s = .next { s.afterPrefix (.lda n) 10 with a := s.mem.read n.toNat, bus := s.mem.read n.toNat }) ∧
    (s.ReadyFor (.lda n) → ¬s.InMemory n →
      exec (.lda n) s = .next
        { s.stoppedAtStep3 (.lda n) 0x00204 { Modes.allFloat with a := .read, memory := .write } with
          a := s.fetchedDrive, bus := s.fetchedDrive }) ∧
    (s.CanBegin → ¬s.InMemory s.pc.low → exec (.lda n) s = .next s.fetchOutOfRange)

/-- 41_loads.md R141, LDO: its words, its byte, its effect, and its two AddressOutOfRange stops. -/
def Obligations.LdoLoadsTheCellIntoO : Prop :=
  (∀ v, rowLdo v = [0x02800, 0x08600, 0x12000, 0x00240, 0x20000]) ∧
  (∀ n : Nibble, encode .default (.ldo n) = 0x1#4 ++ n) ∧
  ∀ (n : Nibble) (s : State),
    (s.ReadyFor (.ldo n) → s.InMemory n →
      exec (.ldo n) s = .next { s.afterPrefix (.ldo n) 10 with o := s.mem.read n.toNat, bus := s.mem.read n.toNat }) ∧
    (s.ReadyFor (.ldo n) → ¬s.InMemory n →
      exec (.ldo n) s = .next
        { s.stoppedAtStep3 (.ldo n) 0x00240 { Modes.allFloat with o := .read, memory := .write } with
          o := s.fetchedDrive, bus := s.fetchedDrive }) ∧
    (s.CanBegin → ¬s.InMemory s.pc.low → exec (.ldo n) s = .next s.fetchOutOfRange)

/-! ### The ALU instructions -/

/-- 42_alu_arith.md R157, ADDA: its words, its byte, its effect with both flags, and the stop of its fetch. -/
def Obligations.AddaAddsIntoA : Prop :=
  (∀ v, rowAdda v = [0x02800, 0x08600, 0x12000, 0x00005, 0x20000]) ∧
  (∀ n : Nibble, encode .default (.adda n) = 0x2#4 ++ n) ∧
  ∀ (n : Nibble) (s : State),
    (s.ReadyFor (.adda n) →
      exec (.adda n) s = .next
        { s.afterPrefix (.adda n) 10 with
          a := s.a + s.b
          zero := decide ((s.a.toNat + s.b.toNat) % 256 = 0)
          carry := decide (256 < s.a.toNat + s.b.toNat)
          alu := ⟨s.a + s.b, false, false, decide (256 ≤ s.a.toNat + s.b.toNat)⟩
          bus := s.a + s.b }) ∧
    (s.CanBegin → ¬s.InMemory s.pc.low → exec (.adda n) s = .next s.fetchOutOfRange)

/-- 42_alu_arith.md R158, ADDO: its words, its byte, its effect with both flags, and the stop of its fetch. -/
def Obligations.AddoAddsIntoO : Prop :=
  (∀ v, rowAddo v = [0x02800, 0x08600, 0x12000, 0x00041, 0x20000]) ∧
  (∀ n : Nibble, encode .default (.addo n) = 0x3#4 ++ n) ∧
  ∀ (n : Nibble) (s : State),
    (s.ReadyFor (.addo n) →
      exec (.addo n) s = .next
        { s.afterPrefix (.addo n) 10 with
          o := s.a + s.b
          zero := decide ((s.a.toNat + s.b.toNat) % 256 = 0)
          carry := decide (256 < s.a.toNat + s.b.toNat)
          alu := ⟨s.a + s.b, false, false, decide (256 ≤ s.a.toNat + s.b.toNat)⟩
          bus := s.a + s.b }) ∧
    (s.CanBegin → ¬s.InMemory s.pc.low → exec (.addo n) s = .next s.fetchOutOfRange)

/-- 42_alu_arith.md R159, SUBA: its words, its byte, its effect with both flags, and the stop of its fetch. -/
def Obligations.SubaSubtractsIntoA : Prop :=
  (∀ v, rowSuba v = [0x02800, 0x08600, 0x12000, 0x00007, 0x20000]) ∧
  (∀ n : Nibble, encode .default (.suba n) = 0x4#4 ++ n) ∧
  ∀ (n : Nibble) (s : State),
    (s.ReadyFor (.suba n) →
      exec (.suba n) s = .next
        { s.afterPrefix (.suba n) 10 with
          a := s.a - s.b
          zero := decide (s.a = s.b)
          carry := decide (s.b.toNat < s.a.toNat)
          alu := ⟨s.a - s.b, false, true, decide (s.b.toNat ≤ s.a.toNat)⟩
          bus := s.a - s.b }) ∧
    (s.CanBegin → ¬s.InMemory s.pc.low → exec (.suba n) s = .next s.fetchOutOfRange)

/-- 42_alu_arith.md R160, SUBO: its words, its byte, its effect with both flags, and the stop of its fetch. -/
def Obligations.SuboSubtractsIntoO : Prop :=
  (∀ v, rowSubo v = [0x02800, 0x08600, 0x12000, 0x00043, 0x20000]) ∧
  (∀ n : Nibble, encode .default (.subo n) = 0x5#4 ++ n) ∧
  ∀ (n : Nibble) (s : State),
    (s.ReadyFor (.subo n) →
      exec (.subo n) s = .next
        { s.afterPrefix (.subo n) 10 with
          o := s.a - s.b
          zero := decide (s.a = s.b)
          carry := decide (s.b.toNat < s.a.toNat)
          alu := ⟨s.a - s.b, false, true, decide (s.b.toNat ≤ s.a.toNat)⟩
          bus := s.a - s.b }) ∧
    (s.CanBegin → ¬s.InMemory s.pc.low → exec (.subo n) s = .next s.fetchOutOfRange)

/-! ### The stores -/

/-- 43_stores.md R170, STOA: its words, its byte, its effect, and its two AddressOutOfRange stops. -/
def Obligations.StoaStoresAIntoTheCell : Prop :=
  (∀ v, rowStoa v = [0x02800, 0x08600, 0x12000, 0x00108, 0x20000]) ∧
  (∀ n : Nibble, encode .default (.stoa n) = 0x6#4 ++ n) ∧
  ∀ (n : Nibble) (s : State),
    (s.ReadyFor (.stoa n) → s.InMemory n →
      exec (.stoa n) s = .next { s.afterPrefix (.stoa n) 10 with mem := s.mem.write n.toNat s.a, bus := s.a }) ∧
    (s.ReadyFor (.stoa n) → ¬s.InMemory n →
      exec (.stoa n) s = .next
        { s.stoppedAtStep3 (.stoa n) 0x00108 { Modes.allFloat with a := .write, memory := .read } with bus := s.a }) ∧
    (s.CanBegin → ¬s.InMemory s.pc.low → exec (.stoa n) s = .next s.fetchOutOfRange)

/-- 43_stores.md R171, STOO: its words, its byte, its effect, and its two AddressOutOfRange stops. -/
def Obligations.StooStoresOIntoTheCell : Prop :=
  (∀ v, rowStoo v = [0x02800, 0x08600, 0x12000, 0x00180, 0x20000]) ∧
  (∀ n : Nibble, encode .default (.stoo n) = 0x7#4 ++ n) ∧
  ∀ (n : Nibble) (s : State),
    (s.ReadyFor (.stoo n) → s.InMemory n →
      exec (.stoo n) s = .next { s.afterPrefix (.stoo n) 10 with mem := s.mem.write n.toNat s.o, bus := s.o }) ∧
    (s.ReadyFor (.stoo n) → ¬s.InMemory n →
      exec (.stoo n) s = .next
        { s.stoppedAtStep3 (.stoo n) 0x00180 { Modes.allFloat with o := .write, memory := .read } with bus := s.o }) ∧
    (s.CanBegin → ¬s.InMemory s.pc.low → exec (.stoo n) s = .next s.fetchOutOfRange)

/-! ### The swaps -/

/-- 44_swaps.md R181, SWAB: its words, its byte, its effect under both settings of SWAP_SEMANTICS, and its stops. -/
def Obligations.SwabSwapsAWithB : Prop :=
  (∀ v, rowSwab .exchange v = [0x02800, 0x08600, 0x12000, 0x00108, 0x00024, 0x00210, 0x20000]) ∧
  (∀ v, rowSwab .transfer v = [0x02800, 0x08600, 0x12000, 0x00018, 0x20000]) ∧
  (∀ n : Nibble, encode .default (.swab n) = 0x8#4 ++ n) ∧
  ∀ (n : Nibble) (s : State),
    (s.ReadyFor (.swab n) → s.params.swap = .exchange → s.mem.wf = true → s.InMemory n →
      exec (.swab n) s = .next
        { s.afterPrefix (.swab n) 14 with mem := s.mem.write n.toNat s.a, a := s.b, b := s.a, bus := s.a }) ∧
    (s.ReadyFor (.swab n) → s.params.swap = .exchange → ¬s.InMemory n →
      exec (.swab n) s = .next
        { s.stoppedAtStep3 (.swab n) 0x00108 { Modes.allFloat with a := .write, memory := .read } with bus := s.a }) ∧
    (s.ReadyFor (.swab n) → s.params.swap = .transfer →
      exec (.swab n) s = .next { s.afterPrefix (.swab n) 10 with b := s.a, bus := s.a }) ∧
    (s.CanBegin → ¬s.InMemory s.pc.low → exec (.swab n) s = .next s.fetchOutOfRange)

/-- 44_swaps.md R182, SWAO: its words, its byte, its effect under both settings of SWAP_SEMANTICS, and its stops. -/
def Obligations.SwaoSwapsAWithO : Prop :=
  (∀ v, rowSwao .exchange v = [0x02800, 0x08600, 0x12000, 0x00108, 0x00084, 0x00240, 0x20000]) ∧
  (∀ v, rowSwao .transfer v = [0x02800, 0x08600, 0x12000, 0x00048, 0x20000]) ∧
  (∀ n : Nibble, encode .default (.swao n) = 0x9#4 ++ n) ∧
  ∀ (n : Nibble) (s : State),
    (s.ReadyFor (.swao n) → s.params.swap = .exchange → s.mem.wf = true → s.InMemory n →
      exec (.swao n) s = .next
        { s.afterPrefix (.swao n) 14 with mem := s.mem.write n.toNat s.a, a := s.o, o := s.a, bus := s.a }) ∧
    (s.ReadyFor (.swao n) → s.params.swap = .exchange → ¬s.InMemory n →
      exec (.swao n) s = .next
        { s.stoppedAtStep3 (.swao n) 0x00108 { Modes.allFloat with a := .write, memory := .read } with bus := s.a }) ∧
    (s.ReadyFor (.swao n) → s.params.swap = .transfer →
      exec (.swao n) s = .next { s.afterPrefix (.swao n) 10 with o := s.a, bus := s.a }) ∧
    (s.CanBegin → ¬s.InMemory s.pc.low → exec (.swao n) s = .next s.fetchOutOfRange)

/-! ### The jumps and the halt -/

/-- 45_control.md R190, JMPZ: its words for each flag variant, its byte, its effect taken and not taken under both settings of
IR_DRIVE_WIDTH, with the next fetch from n when taken, and the stop of its fetch. -/
def Obligations.JmpzJumpsIfZero : Prop :=
  rowJmpz .zero = [0x02800, 0x08600, 0x12000, 0x11000, 0x20000] ∧
  rowJmpz .neither = [0x02800, 0x08600, 0x12000, 0x20000] ∧ rowJmpz .carry = [0x02800, 0x08600, 0x12000, 0x20000] ∧
  (∀ n : Nibble, encode .default (.jmpz n) = 0xA#4 ++ n) ∧
  ∀ (n : Nibble) (s : State),
    (s.ReadyFor (.jmpz n) → s.zero = true →
      exec (.jmpz n) s = .next { s.afterPrefix (.jmpz n) 10 with pc := s.fetchedDrive, bus := s.fetchedDrive } ∧
        s.fetchedDrive.low = n ∧ (s.params.irDrive = .full → s.fetchedDrive = s.fetchByte) ∧
        (s.params.irDrive = .operand → s.fetchedDrive = n.zext)) ∧
    (s.ReadyFor (.jmpz n) → s.zero = false →
      exec (.jmpz n) s = .next { s.afterPrefix (.jmpz n) 8 with bus := s.fetchedDrive }) ∧
    (s.CanBegin → ¬s.InMemory s.pc.low → exec (.jmpz n) s = .next s.fetchOutOfRange)

/-- 45_control.md R191, JMPC: as JMPZ, with CARRY and flag variant 2. -/
def Obligations.JmpcJumpsIfCarry : Prop :=
  rowJmpc .carry = [0x02800, 0x08600, 0x12000, 0x11000, 0x20000] ∧
  rowJmpc .neither = [0x02800, 0x08600, 0x12000, 0x20000] ∧ rowJmpc .zero = [0x02800, 0x08600, 0x12000, 0x20000] ∧
  (∀ n : Nibble, encode .default (.jmpc n) = 0xB#4 ++ n) ∧
  ∀ (n : Nibble) (s : State),
    (s.ReadyFor (.jmpc n) → s.carry = true →
      exec (.jmpc n) s = .next { s.afterPrefix (.jmpc n) 10 with pc := s.fetchedDrive, bus := s.fetchedDrive } ∧
        s.fetchedDrive.low = n ∧ (s.params.irDrive = .full → s.fetchedDrive = s.fetchByte) ∧
        (s.params.irDrive = .operand → s.fetchedDrive = n.zext)) ∧
    (s.ReadyFor (.jmpc n) → s.carry = false →
      exec (.jmpc n) s = .next { s.afterPrefix (.jmpc n) 8 with bus := s.fetchedDrive }) ∧
    (s.CanBegin → ¬s.InMemory s.pc.low → exec (.jmpc n) s = .next s.fetchOutOfRange)

/-- 45_control.md R192, HLT: its words, its byte, its final state, the stop of its fetch; and no edge occurs after it, nor does a
start of the host's restart the clock. -/
def Obligations.HltStopsTheClockForGood : Prop :=
  (∀ v, rowHlt v = [0x02800, 0x08600, 0x12000, 0x40000, 0x20000]) ∧
  (∀ n : Nibble, encode .default (.hlt n) = 0xC#4 ++ n) ∧
  ∀ (n : Nibble) (s : State),
    (s.ReadyFor (.hlt n) →
      ∃ t, t = { s.afterPrefix (.hlt n) 7 with bus := s.fetchedDrive, cursor := 4, pins := 0x40000 }.stoppedHigh ∧
        exec (.hlt n) s = .next t ∧ (∃ f, clockEdge t = .fault f) ∧ ∀ period, hostStart period t = .next t) ∧
    (s.CanBegin → ¬s.InMemory s.pc.low → exec (.hlt n) s = .next s.fetchOutOfRange)

/-! ### One step of the machine -/

/-- A step runs the decoded instruction: at a boundary whose fetched byte decodes to `i`, the step is `exec i`, whole and at
the same state (the fetch is part of `exec`; assumption log 1 and 3). -/
def Obligations.StepRunsTheDecodedInstruction : Prop :=
  ∀ (s : State) (i : Instr), s.CanBegin → s.LookupKnown → s.InMemory s.pc.low →
    decode s.params.opcodes s.fetchByte = .ok i → step s = exec i s

/-- 60_exceptions.md R204: a byte whose opcode has no entry raises DecodeError at its step 2, after its fetch, and this is the
state at the stop. -/
def Obligations.UnassignedOpcodeRaisesDecodeError : Prop :=
  ∀ s : State, s.CanBegin → s.LookupKnown → s.InMemory s.pc.low → (∀ k, s.params.opcodes.code k ≠ s.fetchByte.high) →
    step s = .next s.stoppedByDecode ∧ step s.stoppedByDecode = .fault .coreFaulted

/-- A fetch from an address past the end raises AddressOutOfRange in step 1, with the state of the devices before Memory as
they had acted (20_memory.md R55, 60_exceptions.md R205, R211). -/
def Obligations.FetchPastTheEndStopsTheCore : Prop :=
  ∀ s : State, s.CanBegin → s.LookupKnown → ¬s.InMemory s.pc.low →
    step s = .next s.fetchOutOfRange ∧ step s.fetchOutOfRange = .fault .coreFaulted

/-- One step is exactly the clock edges to the next boundary, for every state of a run, also one inside an instruction: the
instruction-level machine refines the machine of edges (00_scope.md R8, 40_cycle.md R116, R121, R122). -/
def Obligations.StepIsTheEdgesToTheNextBoundary : Prop :=
  ∀ s : State, s.Inv → s.clock.running = true → step s = .next s.toNextBoundary

/-- What a step ends in, for every state of a run: a boundary with a running clock, or a stopped clock (40_cycle.md R121, R125). -/
def Obligations.StepEndsAtABoundaryOrStops : Prop :=
  ∀ s t : State, s.Inv → step s = .next t →
    (t.clock.running = true ∧ t.AtBoundary) ∨ t.clock.running = false

/-- 70_reset_and_hazards.md R246: the ticks each instruction takes, and the 5 of a byte with no entry. -/
def Obligations.InstructionsTakeTheListedTicks : Prop :=
  ∀ s : State, s.CanBegin → s.LookupKnown → s.InMemory s.pc.low → s.mem.wf = true →
    (∀ i, decode s.params.opcodes s.fetchByte = .ok i → s.InMemory i.operand →
      ∃ t, step s = .next t ∧ t.clock.edges = s.clock.edges + s.ticksOf i) ∧
    ((∀ k, s.params.opcodes.code k ≠ s.fetchByte.high) →
      ∃ t, step s = .next t ∧ t.clock.edges = s.clock.edges + 5)

/-! ### Frames over all instructions -/

/-- Who writes what, instruction by instruction, as the matrix of 10_state.md R48 has it, whatever way the instruction ends:
A, B, O, the flags, the ALU's output, and the PC beyond its increment. -/
def Obligations.OnlyTheListedInstructionsWriteEachRegister : Prop :=
  ∀ (i : Instr) (s t : State), s.ReadyFor i → s.InMemory i.operand → exec i s = .next t →
    (i.mnemonic ∉ [.lda, .adda, .suba, .swab, .swao] → t.a = s.a) ∧
    (i.mnemonic ≠ .swab → t.b = s.b) ∧
    (i.mnemonic ∉ [.ldo, .addo, .subo, .swao] → t.o = s.o) ∧
    (i.mnemonic ∉ [.adda, .addo, .suba, .subo] → t.zero = s.zero ∧ t.carry = s.carry ∧ t.alu = s.alu) ∧
    (t.pc = s.pc + 1 ∨ (i.mnemonic = .jmpz ∧ s.zero = true) ∨ (i.mnemonic = .jmpc ∧ s.carry = true)) ∧
    t.params = s.params ∧ t.errors = s.errors ∧ t.faulted = s.faulted

/-- Every byte of memory but the one stored to is as before, and that one holds what the instruction stores; an instruction
that stores nothing, SWAB and SWAO under SWAP_SEMANTICS = transfer among them, leaves every byte (20_memory.md R51, R58, R66). -/
def Obligations.OnlyTheStoredCellOfMemoryChanges : Prop :=
  ∀ (i : Instr) (s : State), s.ReadyFor i → s.InMemory i.operand → s.mem.wf = true →
    ∃ t, exec i s = .next t ∧
      (∀ k : Nat, k ≠ i.operand.toNat → t.mem.read k = s.mem.read k) ∧
      t.mem.read i.operand.toNat =
        (match i with
          | .stoa _ => s.a
          | .stoo _ => s.o
          | .swab _ | .swao _ =>
            (match s.params.swap with
              | .exchange => s.a
              | .transfer => s.mem.read i.operand.toNat)
          | _ => s.mem.read i.operand.toNat)

/-- Flags persist: from any state at all, only ADDA, ADDO, SUBA and SUBO can change ZERO or CARRY or the ALU's output and
carries (10_state.md R29, R36, 70_reset_and_hazards.md R244). -/
def Obligations.FlagsPersistUnlessTheAluComputes : Prop :=
  ∀ (i : Instr) (s t : State), i.mnemonic ∉ [.adda, .addo, .suba, .subo] → exec i s = .next t →
    t.zero = s.zero ∧ t.carry = s.carry ∧ t.alu.out = s.alu.out ∧ t.alu.carryIn = s.alu.carryIn ∧
      t.alu.carryOut = s.alu.carryOut

/-- A store to the address of the next instruction is what runs next, with nothing in between (20_memory.md R64,
70_reset_and_hazards.md R242), and the running instruction is not affected. -/
def Obligations.AStoredByteIsTheNextInstruction : Prop :=
  ∀ (i : Instr) (s : State) (v : Byte), s.ReadyFor i → s.mem.wf = true → i.operand = (s.pc + 1).low →
    s.InMemory i.operand →
    ((i.mnemonic = .stoa ∧ v = s.a) ∨ (i.mnemonic = .stoo ∧ v = s.o) ∨
      (i.mnemonic ∈ [.swab, .swao] ∧ s.params.swap = .exchange ∧ v = s.a)) →
    ∃ t, exec i s = .next t ∧ t.ir = encode s.params.opcodes i ∧ t.fetchByte = v ∧
      ((∀ j, decode s.params.opcodes v = .ok j → step t = exec j t) ∧
       ((∀ k, s.params.opcodes.code k ≠ v.high) → step t = .next t.stoppedByDecode))

/-- What a program can observe decides what it observes next: two machines that agree on A, B, O, memory, the flags and
PC[3:0] agree again after any number of steps, whatever PC[7:4], AR, IR, the bus, the ALU's state, the edge counts, the
period and even IR_DRIVE_WIDTH are (10_state.md R42, 40_cycle.md R117). It is stated at PAGES = 4, this hardware's value. -/
def Obligations.WhatAProgramObservesDecidesItsRun : Prop :=
  ∀ (n : Nat) (s t s' : State), s.Inv → t.Inv → s.params.pages = 4 → s.CanBegin → t.CanBegin → s.LookupKnown → t.LookupKnown →
    s.SameToProgram t → Sys2Proof.core.run n s = .next s' →
    ∃ t' : State, Sys2Proof.core.run n t = .next t' ∧ s'.SameToProgram t' ∧ s'.clock.running = t'.clock.running

/-! ### Clock edges -/

/-- 40_cycle.md R118: the falling edge, from any state: every pin 0, every device FLOAT, `subtractMode` 0, nothing else but the
tick. -/
def Obligations.FallingEdgeOnlyFloats : Prop :=
  ∀ s : State, s.clock.running = true → s.clock.output = true →
    clockEdge s = .next
      { s with
        pins := 0
        modes := .allFloat
        alu := { s.alu with subtractMode := false }
        clock := { s.clock with output := false, edges := s.clock.edges + 1 } }

/-- Every edge alternates the output bit and counts one tick, and changes neither the period, nor whether the clock was started,
nor the parameters, whatever else happens in it (40_cycle.md R100, R102, 10_state.md R40, R43). -/
def Obligations.EveryEdgeAlternatesAndCounts : Prop :=
  ∀ s t : State, clockEdge s = .next t →
    s.clock.running = true ∧ t.clock.output = !s.clock.output ∧ t.clock.edges = s.clock.edges + 1 ∧
    t.clock.period = s.clock.period ∧ t.clock.started = s.clock.started ∧ t.params = s.params

/-- 40_cycle.md R119: the HLT word's rising edge changes the pins, the cursor and the clock alone, and no edge follows it.
40_cycle.md R120: the yield word's rising edge changes the pins and the cursor alone besides the clock, and with the falling edge
after it only the cursor and the count have changed. -/
def Obligations.HltAndYieldWordsMoveNothing : Prop :=
  ∀ s : State, s.clock.running = true → s.Quiet →
    (s.tableWord? = some 0x40000 →
      ∃ t, t = { s with cursor := s.cursor + 1, pins := 0x40000, clock := { s.clock with edges := s.clock.edges + 1 } }.stoppedHigh ∧
        clockEdge s = .next t ∧ ∃ f, clockEdge t = .fault f) ∧
    (s.tableWord? = some 0x20000 →
      clockEdge s = .next
        { s with cursor := 0, pins := 0x20000, clock := { s.clock with output := true, edges := s.clock.edges + 1 } } ∧
      clockEdges 2 s = .next { s with cursor := 0, clock := { s.clock with edges := s.clock.edges + 2 } })

/-- A clock that is not running has no edge, no step and no instruction (40_cycle.md R103, R125): this stop, with its reason,
is the model's answer (assumption log 8). -/
def Obligations.AClockThatIsNotRunningStandsStill : Prop :=
  ∀ (s : State) (i : Instr), s.clock.running = false →
    clockEdge s = .fault s.stopReason ∧ step s = .fault s.stopReason ∧ exec i s = .fault s.stopReason

/-- The settling property (40_cycle.md R110, 30_encoding.md R95). After every rising edge of a run that no fatal error stops, the bus
byte is what the word's WRITE device drove (R112, R113, R117), every device in READ mode holds it, and where a device is in READ
mode one is in WRITE mode. AR never drives: no word of the table asserts MO. -/
def Obligations.ReadersSettleOnTheBusByte : Prop :=
  ∀ s t : State, s.Inv → s.clock.output = false → clockEdge s = .next t → t.faulted = false →
    (t.modes.a = .read → t.a = t.bus) ∧ (t.modes.b = .read → t.b = t.bus) ∧ (t.modes.o = .read → t.o = t.bus) ∧
    (t.modes.memory = .read → t.mem.read t.pointer.toNat = t.bus) ∧ (t.modes.pc = .read → t.pc = t.bus) ∧
    (t.modes.ar = .read → t.ar = t.bus.low) ∧ (t.modes.ir = .read → t.ir = t.bus) ∧
    ((∃ d, t.modes.get d = .read) → ∃ d, t.modes.get d = .write) ∧
    (t.modes.alu = .write → t.bus = t.alu.out ∧ t.alu.out = (aluCompute s.a s.b t.alu.subtractMode).out) ∧
    (t.modes.a = .write → t.bus = s.a) ∧ (t.modes.b = .write → t.bus = s.b) ∧ (t.modes.o = .write → t.bus = s.o) ∧
    (t.modes.memory = .write → t.bus = s.mem.read s.pointer.toNat) ∧ (t.modes.pc = .write → t.bus = s.pc) ∧
    (t.modes.ir = .write → t.bus = irDrive s.params.irDrive s.ir) ∧ t.modes.ar ≠ .write

/-- The constant table keeps what 30_encoding.md R95 lists: at most one WRITE pin in a word, exactly one where a READ pin is; RI
never with MI, CO, MO or IO; CE never with CO or CI; MO never; no word puts the ALU in READ mode; YLD last, alone and only
there; HLT alone, in HLT's row only. -/
def Obligations.MicrocodeTableKeepsItsDiscipline : Prop :=
  ∀ (semantics : SwapSemantics) (k : Mnemonic) (v : FlagVariant),
    (microcodeRow semantics k v).getLast? = some 0x20000 ∧
    (∀ w ∈ (microcodeRow semantics k v).dropLast, asserts w .yld = false) ∧
    ∀ w ∈ microcodeRow semantics k v,
      ([Pin.eo, .ao, .bo, .oo, .ro, .co, .mo, .io].filter (asserts w)).length ≤ 1 ∧
      (([Pin.ai, .bi, .oi, .ri, .ci, .mi, .ii].any (asserts w)) = true →
        ([Pin.eo, .ao, .bo, .oo, .ro, .co, .mo, .io].filter (asserts w)).length = 1) ∧
      (asserts w .ri = true → ∀ p ∈ [Pin.mi, .co, .mo, .io], asserts w p = false) ∧
      (asserts w .ce = true → asserts w .co = false ∧ asserts w .ci = false) ∧
      asserts w .mo = false ∧ Device.modeOf .alu w ≠ .read ∧ (asserts w .hlt = true → w = 0x40000 ∧ k = .hlt)

/-- 30_encoding.md R94: for every opcode but JMPZ and JMPC the three variants are one sequence; R96: every sequence has 4, 5 or 7
words. -/
def Obligations.OnlyJumpsBranchOnTheFlagVariant : Prop :=
  (∀ (semantics : SwapSemantics) (k : Mnemonic) (v w : FlagVariant), k ≠ .jmpz → k ≠ .jmpc →
    microcodeRow semantics k v = microcodeRow semantics k w) ∧
  ∀ (semantics : SwapSemantics) (k : Mnemonic) (v : FlagVariant),
    (microcodeRow semantics k v).length ∈ [4, 5, 7]

/-! ### The bus and the errors no table word reaches -/

/-- 40_cycle.md R106: a bus write of at most 8 bits sets the low bits and leaves the upper ones, a wider one writes its low 8 bits
and records OverflowError (60_exceptions.md R201); either way the devices in READ mode, and no others, latch the bus, with the
copies AR and IR publish (R112), and nothing else changes. An ALU in READ mode is left out: it is in that mode in no state of a
run, and it has no latch (10_state.md R36, R37). -/
def Obligations.BusWriteAlignsNotifiesAndRecordsOverflow : Prop :=
  ∀ (w : Nat) (data : BitVec w) (s t : State), s.modes.alu ≠ .read → s.busWrite data = .going t →
    (∀ i : Nat, i < 8 → t.bus.getLsbD i = if i < w then data.getLsbD i else s.bus.getLsbD i) ∧
    t.errors = (if w ≤ 8 then s.errors else s.errors ++ [.overflow w]) ∧ t.faulted = s.faulted ∧
    t.a = (if s.modes.a = .read then t.bus else s.a) ∧ t.b = (if s.modes.b = .read then t.bus else s.b) ∧
    t.o = (if s.modes.o = .read then t.bus else s.o) ∧ t.pc = (if s.modes.pc = .read then t.bus else s.pc) ∧
    t.ar = (if s.modes.ar = .read then t.bus.low else s.ar) ∧ t.ir = (if s.modes.ir = .read then t.bus else s.ir) ∧
    t.mem = (if s.modes.memory = .read then s.mem.write s.pointer.toNat t.bus else s.mem) ∧
    t.pointer = (if s.modes.ar = .read then t.bus.low else s.pointer) ∧
    t.currentInstruction = (if s.modes.ir = .read then t.bus else s.currentInstruction) ∧
    t.alu = s.alu ∧ t.zero = s.zero ∧ t.carry = s.carry ∧ t.modes = s.modes ∧ t.pins = s.pins ∧ t.cursor = s.cursor ∧
    t.clock = s.clock ∧ t.params = s.params

/-- A device that enters WRITE mode in a fan-out in which another already has is stopped there and drives nothing, with
BusContention naming the two, `faulted` set and the clock halted (40_cycle.md R111, 60_exceptions.md R207). Stated for every second
device (the ALU is first in the order, so it never is one), and for two whole fan-outs, in which the bus keeps the first
device's byte. That the second's mode is WRITE at the stop is the model's choice (assumption log 9). -/
def Obligations.TwoWritersAreBusContention : Prop :=
  (∀ (s : State) (first d : Device), d ≠ .alu → asserts s.pins .ce = false → d.modeOf s.pins = .write →
    s.updateControlPins d (some first) =
      .stopped ({ s with modes := s.modes.set d .write }.raiseFatal (.busContention first d))) ∧
  ∀ s : State, s.modes = .allFloat → s.alu.subtractMode = false →
    ({ s with pins := word [.ao, .bo] }.updateAllPins =
      .stopped ({ s with
        pins := word [.ao, .bo], bus := s.a
        modes := { Modes.allFloat with a := .write, b := .write } }.raiseFatal (.busContention .a .b))) ∧
    ({ s with pins := word [.co, .io] }.updateAllPins =
      .stopped ({ s with
        pins := word [.co, .io], bus := s.pc
        modes := { Modes.allFloat with pc := .write, ir := .write } }.raiseFatal (.busContention .pc .ir)))

/-- Commanding the ALU into READ is InvalidModeError: recorded, non-fatal, and nothing else changes (60_exceptions.md R203, R209);
no pins of any word command it. That the model gives the command a form of its own is its choice (assumption log 10). -/
def Obligations.AluReadIsRecordedAndHarmless : Prop :=
  (∀ s : State, s.commandMode .alu .read = { s with errors := s.errors ++ [.invalidMode] }) ∧
  ∀ w : MicroWord, Device.modeOf .alu w ≠ .read

/-- One edge of a run raises at most one error, and a fatal one halts the clock with the cursor not advanced; at PAGES = 4 the
only one is a DecodeError for an opcode with no entry (60_exceptions.md R200, R206, R210). -/
def Obligations.AnEdgeRaisesAtMostOneFatalError : Prop :=
  ∀ s t : State, s.Inv → clockEdge s = .next t →
    (t.errors = s.errors ∧ t.faulted = s.faulted) ∨
    ∃ e, t.errors = s.errors ++ [e] ∧ t.faulted = true ∧ t.clock.running = false ∧ t.cursor = s.cursor ∧
      ((∃ p, e = .addressOutOfRange p ∧ s.params.cells ≤ p.toNat) ∨
       (e = .decode s.currentInstruction.high (variantNumber s.zero s.carry) s.cursor ∧ t.pins = s.pins ∧
        ∀ k, s.params.opcodes.code k ≠ s.currentInstruction.high)) ∧
      (s.params.pages = 4 → ∀ p, e ≠ .addressOutOfRange p)

/-! ### The invariant -/

/-- Every clock edge keeps the invariant: canonical memory inside the address space, AR's and IR's published copies, exclusive
flags, one writer, quiet after a falling edge, the cursor in its sequence, a halted clock after a fatal error. -/
def Obligations.EveryEdgeKeepsTheInvariant : Prop :=
  ∀ s t : State, s.Inv → clockEdge s = .next t → t.Inv

/-- Every step keeps the invariant. -/
def Obligations.EveryStepKeepsTheInvariant : Prop :=
  ∀ s t : State, s.Inv → step s = .next t → t.Inv

/-- Any list of moves, edges and host actions mixed, keeps the invariant (60_exceptions.md R223, R224). -/
def Obligations.EveryRunOfMovesKeepsTheInvariant : Prop :=
  ∀ (ms : List Move) (s t : State), s.Inv → runMoves ms s = .next t → t.Inv

/-- The invariant holds at reset. -/
def Obligations.ResetHasTheInvariant : Prop := State.reset.Inv

/-- The invariant holds after every construction that is not refused, under every setting of the parameters and every draw of
INIT_STATE = arbitrary (10_state.md R47, 60_exceptions.md R202). -/
def Obligations.EveryConstructionHasTheInvariant : Prop :=
  ∀ (p : Params) (init : InitState) (s : State), hostConstruct p init = .next s → s.Inv ∧ s.params = p ∧ p.pages ≤ 4

/-! ### Reset and the host interface -/

/-- 10_state.md R44: the reset value of every state element (the period is the model's choice: assumption log 6). -/
def Obligations.ResetValuesAreAsListed : Prop :=
  State.reset.a = 0x00 ∧ State.reset.b = 0x00 ∧ State.reset.o = 0x00 ∧ State.reset.pc = 0x00 ∧ State.reset.ar = 0 ∧
  State.reset.pointer = 0 ∧ State.reset.ir = 0x00 ∧ State.reset.currentInstruction = 0x00 ∧ State.reset.cursor = 0 ∧
  (∀ p, asserts State.reset.pins p = false) ∧ State.reset.zero = false ∧ State.reset.carry = false ∧
  State.reset.alu = ⟨0x00, false, false, false⟩ ∧ (∀ d, State.reset.modes.get d = .float) ∧ State.reset.bus = 0x00 ∧
  (∀ i, State.reset.mem.read i = 0x00) ∧ State.reset.clock.running = false ∧ State.reset.clock.started = false ∧
  State.reset.clock.output = false ∧ State.reset.clock.edges = 0 ∧ State.reset.errors = [] ∧ State.reset.faulted = false

/-- 10_state.md R47: under INIT_STATE = arbitrary A, B, O and the cells hold what was drawn, and every other element is as at
reset. The draws are arguments, so this is for every draw (assumption log 14). -/
def Obligations.ArbitraryInitHoldsTheDraws : Prop :=
  ∀ (p : Params) (a b o : Byte) (cells : List Byte),
    (State.constructed p (.arbitrary a b o cells)).a = a ∧ (State.constructed p (.arbitrary a b o cells)).b = b ∧
    (State.constructed p (.arbitrary a b o cells)).o = o ∧
    (∀ i : Nat, i < p.cells → (State.constructed p (.arbitrary a b o cells)).mem.read i = cells.getD i 0) ∧
    { State.constructed p (.arbitrary a b o cells) with a := 0, b := 0, o := 0, mem := [] } = State.constructed p .zero

/-- 10_state.md R45: after reset and a start, the first word is looked up under 0x00. Where the map assigns 0x0 it is step 0 of the
fetch; where it does not, the first rising edge raises DecodeError. -/
def Obligations.FirstFetchLooksUpOpcodeZero : Prop :=
  ∀ (p : Params) (period : Nat), p.wellFormed = true →
    ∃ s, hostStart period (State.constructed p .zero) = .next s ∧
      ((∃ k, p.opcodes.code k = 0) → s.CanBegin ∧ s.LookupKnown ∧ s.tableWord? = some 0x02800) ∧
      ((∀ k, p.opcodes.code k ≠ 0) →
        clockEdge s = .next
          ({ s with clock := { s.clock with edges := 1 } }.stoppedBy (.decode 0 0 0)))

/-- 60_exceptions.md R220: what a load that is allowed and fits leaves: instruction byte k in cell k, the data entries over them,
every other cell as it was, and nothing but memory changed. The data map is a list in which no address comes twice (log 12). -/
def Obligations.LoadPlacesProgramThenData : Prop :=
  ∀ (program : List Nat) (data : List (Nat × Nat)) (s : State), s.mem.wf = true → s.clock.started = false →
    loadFits s.params.cells program data = true → (data.map Prod.fst).Nodup →
    ∃ t, hostLoad program data s = .next t ∧ t = { s with mem := t.mem } ∧
      (∀ i v, (i, v) ∈ data → t.mem.read i = BitVec.ofNat 8 v) ∧
      (∀ i, i ∉ data.map Prod.fst →
        t.mem.read i = match program[i]? with
          | some v => BitVec.ofNat 8 v
          | none => s.mem.read i)

/-- A load that does not fit is refused with ProgramTooLarge (60_exceptions.md R208), and one after the first start is no move of
the host's (R220, R224). Neither has a next state, so neither writes anything. That a late load is refused as late whether or
not it fits, and that a refusal carries the error, are the model's choices (assumption log 12). -/
def Obligations.LoadsThatDoNotFitOrComeLateAreRefused : Prop :=
  ∀ (program : List Nat) (data : List (Nat × Nat)) (s : State),
    (s.clock.started = true → hostLoad program data s = .refused .loadAfterStart) ∧
    (s.clock.started = false →
      (s.params.cells < program.length ∨ (∃ e ∈ data, s.params.cells ≤ e.1) ∨ (∃ v ∈ program, 256 ≤ v) ∨
        (∃ e ∈ data, 256 ≤ e.2)) →
      hostLoad program data s = .refused (.hostError .programTooLarge))

/-- 60_exceptions.md R202: PAGES above ADRLEN = 4 is refused with CapacityExceededError; a construction within it, with an
injective map, succeeds. That a map that is not injective is refused is the model's choice (assumption log 13). -/
def Obligations.ConstructionChecksItsParameters : Prop :=
  ∀ (p : Params) (init : InitState),
    (4 < p.pages → hostConstruct p init = .refused (.hostError (.capacityExceeded p.pages))) ∧
    (p.pages ≤ 4 → p.opcodes.injective = true → hostConstruct p init = .next (State.constructed p init)) ∧
    (p.pages ≤ 4 → p.opcodes.injective = false → hostConstruct p init = .refused .opcodeMapNotInjective)

/-- The boot order (70_reset_and_hazards.md R231): construct, load, start; then the first step runs the byte at address 0. -/
def Obligations.BootRunsTheByteAtAddressZero : Prop :=
  ∀ (v period : Nat) (rest : List Nat) (data : List (Nat × Nat)) (i : Instr),
    loadFits 16 (v :: rest) data = true → 0 ∉ data.map Prod.fst → decode .default (BitVec.ofNat 8 v) = .ok i →
    ∃ s, runMoves [.host (.load (v :: rest) data), .host (.start period)] State.reset = .next s ∧
      s.clock.period = period ∧ s.ReadyFor i ∧ step s = exec i s

/-- Placing a byte for the next fetch makes the very next step after reset run its instruction (assumption log 2). -/
def Obligations.PlacedByteRunsAsTheFirstInstruction : Prop :=
  ∀ (w : Nat) (i : Instr), decodeTableWord 8 w = some i →
    (State.reset.withFetchWord 8 w).ReadyFor i ∧
      step (State.reset.withFetchWord 8 w) = exec i (State.reset.withFetchWord 8 w)

/-- A halt is for good (40_cycle.md R101, R103, 60_exceptions.md R212, R219): after it no list of moves, edges, starts, loads and
snapshots among them, changes anything in a core that had been started. -/
def Obligations.AHaltedCoreNeverChangesAgain : Prop :=
  ∀ (ms : List Move) (s t : State), s.clock.started = true → s.clock.haltCalled = true → runMoves ms s = .next t → t = s

/-- The host's halt stops the clock between any two edges and leaves everything else as it is, also in the middle of an
instruction (60_exceptions.md R223). -/
def Obligations.HostHaltFreezesTheStateInPlace : Prop :=
  ∀ (ms : List Move) (s t : State), runMoves (ms ++ [.host .halt]) s = .next t →
    ∃ u, runMoves ms s = .next u ∧ t = { u with clock := { u.clock with haltCalled := true } } ∧
      ∃ f, clockEdge t = .fault f

/-- 60_exceptions.md R222 and 10_state.md R42: taking a snapshot changes nothing, and the host sees the whole state in it: two states
of runs with the same parameters and the same snapshot are equal. -/
def Obligations.SnapshotShowsTheWholeState : Prop :=
  (∀ s : State, hostAction .snapshot s = .next s) ∧
  ∀ s t : State, s.Inv → t.Inv → s.params = t.params → s.snapshot = t.snapshot → s = t
end

