-- ==== Sys2Proof/Laws/State.lean ====
section
/-! SUPPORT. The small lemmas of the named updates of the state: one for each field and update, so that no later proof unfolds
an update. -/

namespace Sys2Proof.Machine

/-! ### `haltClock` -/

@[simp] theorem haltClock_a (s : State) : (s.haltClock).a = s.a := rfl
@[simp] theorem haltClock_b (s : State) : (s.haltClock).b = s.b := rfl
@[simp] theorem haltClock_o (s : State) : (s.haltClock).o = s.o := rfl
@[simp] theorem haltClock_pc (s : State) : (s.haltClock).pc = s.pc := rfl
@[simp] theorem haltClock_ar (s : State) : (s.haltClock).ar = s.ar := rfl
@[simp] theorem haltClock_ir (s : State) : (s.haltClock).ir = s.ir := rfl
@[simp] theorem haltClock_currentInstruction (s : State) : (s.haltClock).currentInstruction = s.currentInstruction := rfl
@[simp] theorem haltClock_cursor (s : State) : (s.haltClock).cursor = s.cursor := rfl
@[simp] theorem haltClock_pins (s : State) : (s.haltClock).pins = s.pins := rfl
@[simp] theorem haltClock_zero (s : State) : (s.haltClock).zero = s.zero := rfl
@[simp] theorem haltClock_carry (s : State) : (s.haltClock).carry = s.carry := rfl
@[simp] theorem haltClock_alu (s : State) : (s.haltClock).alu = s.alu := rfl
@[simp] theorem haltClock_modes (s : State) : (s.haltClock).modes = s.modes := rfl
@[simp] theorem haltClock_bus (s : State) : (s.haltClock).bus = s.bus := rfl
@[simp] theorem haltClock_mem (s : State) : (s.haltClock).mem = s.mem := rfl
@[simp] theorem haltClock_pointer (s : State) : (s.haltClock).pointer = s.pointer := rfl
@[simp] theorem haltClock_clock (s : State) : (s.haltClock).clock = { s.clock with haltCalled := true } := rfl
@[simp] theorem haltClock_errors (s : State) : (s.haltClock).errors = s.errors := rfl
@[simp] theorem haltClock_faulted (s : State) : (s.haltClock).faulted = s.faulted := rfl
@[simp] theorem haltClock_params (s : State) : (s.haltClock).params = s.params := rfl

/-! ### `record` -/

@[simp] theorem record_a (e : CoreError) (s : State) : (s.record e).a = s.a := rfl
@[simp] theorem record_b (e : CoreError) (s : State) : (s.record e).b = s.b := rfl
@[simp] theorem record_o (e : CoreError) (s : State) : (s.record e).o = s.o := rfl
@[simp] theorem record_pc (e : CoreError) (s : State) : (s.record e).pc = s.pc := rfl
@[simp] theorem record_ar (e : CoreError) (s : State) : (s.record e).ar = s.ar := rfl
@[simp] theorem record_ir (e : CoreError) (s : State) : (s.record e).ir = s.ir := rfl
@[simp] theorem record_currentInstruction (e : CoreError) (s : State) : (s.record e).currentInstruction = s.currentInstruction := rfl
@[simp] theorem record_cursor (e : CoreError) (s : State) : (s.record e).cursor = s.cursor := rfl
@[simp] theorem record_pins (e : CoreError) (s : State) : (s.record e).pins = s.pins := rfl
@[simp] theorem record_zero (e : CoreError) (s : State) : (s.record e).zero = s.zero := rfl
@[simp] theorem record_carry (e : CoreError) (s : State) : (s.record e).carry = s.carry := rfl
@[simp] theorem record_alu (e : CoreError) (s : State) : (s.record e).alu = s.alu := rfl
@[simp] theorem record_modes (e : CoreError) (s : State) : (s.record e).modes = s.modes := rfl
@[simp] theorem record_bus (e : CoreError) (s : State) : (s.record e).bus = s.bus := rfl
@[simp] theorem record_mem (e : CoreError) (s : State) : (s.record e).mem = s.mem := rfl
@[simp] theorem record_pointer (e : CoreError) (s : State) : (s.record e).pointer = s.pointer := rfl
@[simp] theorem record_clock (e : CoreError) (s : State) : (s.record e).clock = s.clock := rfl
@[simp] theorem record_errors (e : CoreError) (s : State) : (s.record e).errors = s.errors ++ [e] := rfl
@[simp] theorem record_faulted (e : CoreError) (s : State) : (s.record e).faulted = s.faulted := rfl
@[simp] theorem record_params (e : CoreError) (s : State) : (s.record e).params = s.params := rfl

/-! ### `raiseFatal` -/

@[simp] theorem raiseFatal_a (e : CoreError) (s : State) : (s.raiseFatal e).a = s.a := rfl
@[simp] theorem raiseFatal_b (e : CoreError) (s : State) : (s.raiseFatal e).b = s.b := rfl
@[simp] theorem raiseFatal_o (e : CoreError) (s : State) : (s.raiseFatal e).o = s.o := rfl
@[simp] theorem raiseFatal_pc (e : CoreError) (s : State) : (s.raiseFatal e).pc = s.pc := rfl
@[simp] theorem raiseFatal_ar (e : CoreError) (s : State) : (s.raiseFatal e).ar = s.ar := rfl
@[simp] theorem raiseFatal_ir (e : CoreError) (s : State) : (s.raiseFatal e).ir = s.ir := rfl
@[simp] theorem raiseFatal_currentInstruction (e : CoreError) (s : State) : (s.raiseFatal e).currentInstruction = s.currentInstruction := rfl
@[simp] theorem raiseFatal_cursor (e : CoreError) (s : State) : (s.raiseFatal e).cursor = s.cursor := rfl
@[simp] theorem raiseFatal_pins (e : CoreError) (s : State) : (s.raiseFatal e).pins = s.pins := rfl
@[simp] theorem raiseFatal_zero (e : CoreError) (s : State) : (s.raiseFatal e).zero = s.zero := rfl
@[simp] theorem raiseFatal_carry (e : CoreError) (s : State) : (s.raiseFatal e).carry = s.carry := rfl
@[simp] theorem raiseFatal_alu (e : CoreError) (s : State) : (s.raiseFatal e).alu = s.alu := rfl
@[simp] theorem raiseFatal_modes (e : CoreError) (s : State) : (s.raiseFatal e).modes = s.modes := rfl
@[simp] theorem raiseFatal_bus (e : CoreError) (s : State) : (s.raiseFatal e).bus = s.bus := rfl
@[simp] theorem raiseFatal_mem (e : CoreError) (s : State) : (s.raiseFatal e).mem = s.mem := rfl
@[simp] theorem raiseFatal_pointer (e : CoreError) (s : State) : (s.raiseFatal e).pointer = s.pointer := rfl
@[simp] theorem raiseFatal_clock (e : CoreError) (s : State) : (s.raiseFatal e).clock = { s.clock with haltCalled := true } := rfl
@[simp] theorem raiseFatal_errors (e : CoreError) (s : State) : (s.raiseFatal e).errors = s.errors ++ [e] := rfl
@[simp] theorem raiseFatal_faulted (e : CoreError) (s : State) : (s.raiseFatal e).faulted = true := rfl
@[simp] theorem raiseFatal_params (e : CoreError) (s : State) : (s.raiseFatal e).params = s.params := rfl

/-! ### `countTick` -/

@[simp] theorem countTick_a (s : State) : (s.countTick).a = s.a := rfl
@[simp] theorem countTick_b (s : State) : (s.countTick).b = s.b := rfl
@[simp] theorem countTick_o (s : State) : (s.countTick).o = s.o := rfl
@[simp] theorem countTick_pc (s : State) : (s.countTick).pc = s.pc := rfl
@[simp] theorem countTick_ar (s : State) : (s.countTick).ar = s.ar := rfl
@[simp] theorem countTick_ir (s : State) : (s.countTick).ir = s.ir := rfl
@[simp] theorem countTick_currentInstruction (s : State) : (s.countTick).currentInstruction = s.currentInstruction := rfl
@[simp] theorem countTick_cursor (s : State) : (s.countTick).cursor = s.cursor := rfl
@[simp] theorem countTick_pins (s : State) : (s.countTick).pins = s.pins := rfl
@[simp] theorem countTick_zero (s : State) : (s.countTick).zero = s.zero := rfl
@[simp] theorem countTick_carry (s : State) : (s.countTick).carry = s.carry := rfl
@[simp] theorem countTick_alu (s : State) : (s.countTick).alu = s.alu := rfl
@[simp] theorem countTick_modes (s : State) : (s.countTick).modes = s.modes := rfl
@[simp] theorem countTick_bus (s : State) : (s.countTick).bus = s.bus := rfl
@[simp] theorem countTick_mem (s : State) : (s.countTick).mem = s.mem := rfl
@[simp] theorem countTick_pointer (s : State) : (s.countTick).pointer = s.pointer := rfl
@[simp] theorem countTick_clock (s : State) : (s.countTick).clock = { s.clock with output := !s.clock.output, edges := s.clock.edges + 1 } := rfl
@[simp] theorem countTick_errors (s : State) : (s.countTick).errors = s.errors := rfl
@[simp] theorem countTick_faulted (s : State) : (s.countTick).faulted = s.faulted := rfl
@[simp] theorem countTick_params (s : State) : (s.countTick).params = s.params := rfl

/-! ### `publish` -/

@[simp] theorem publish_a (v : Byte) (s : State) : (s.publish v).a = s.a := rfl
@[simp] theorem publish_b (v : Byte) (s : State) : (s.publish v).b = s.b := rfl
@[simp] theorem publish_o (v : Byte) (s : State) : (s.publish v).o = s.o := rfl
@[simp] theorem publish_pc (v : Byte) (s : State) : (s.publish v).pc = s.pc := rfl
@[simp] theorem publish_ar (v : Byte) (s : State) : (s.publish v).ar = s.ar := rfl
@[simp] theorem publish_ir (v : Byte) (s : State) : (s.publish v).ir = v := rfl
@[simp] theorem publish_currentInstruction (v : Byte) (s : State) : (s.publish v).currentInstruction = v := rfl
@[simp] theorem publish_cursor (v : Byte) (s : State) : (s.publish v).cursor = s.cursor := rfl
@[simp] theorem publish_pins (v : Byte) (s : State) : (s.publish v).pins = s.pins := rfl
@[simp] theorem publish_zero (v : Byte) (s : State) : (s.publish v).zero = s.zero := rfl
@[simp] theorem publish_carry (v : Byte) (s : State) : (s.publish v).carry = s.carry := rfl
@[simp] theorem publish_alu (v : Byte) (s : State) : (s.publish v).alu = s.alu := rfl
@[simp] theorem publish_modes (v : Byte) (s : State) : (s.publish v).modes = s.modes := rfl
@[simp] theorem publish_bus (v : Byte) (s : State) : (s.publish v).bus = s.bus := rfl
@[simp] theorem publish_mem (v : Byte) (s : State) : (s.publish v).mem = s.mem := rfl
@[simp] theorem publish_pointer (v : Byte) (s : State) : (s.publish v).pointer = s.pointer := rfl
@[simp] theorem publish_clock (v : Byte) (s : State) : (s.publish v).clock = s.clock := rfl
@[simp] theorem publish_errors (v : Byte) (s : State) : (s.publish v).errors = s.errors := rfl
@[simp] theorem publish_faulted (v : Byte) (s : State) : (s.publish v).faulted = s.faulted := rfl
@[simp] theorem publish_params (v : Byte) (s : State) : (s.publish v).params = s.params := rfl

/-! ### `computeOutput` -/

@[simp] theorem computeOutput_a (s : State) : (s.computeOutput).a = s.a := rfl
@[simp] theorem computeOutput_b (s : State) : (s.computeOutput).b = s.b := rfl
@[simp] theorem computeOutput_o (s : State) : (s.computeOutput).o = s.o := rfl
@[simp] theorem computeOutput_pc (s : State) : (s.computeOutput).pc = s.pc := rfl
@[simp] theorem computeOutput_ar (s : State) : (s.computeOutput).ar = s.ar := rfl
@[simp] theorem computeOutput_ir (s : State) : (s.computeOutput).ir = s.ir := rfl
@[simp] theorem computeOutput_currentInstruction (s : State) : (s.computeOutput).currentInstruction = s.currentInstruction := rfl
@[simp] theorem computeOutput_cursor (s : State) : (s.computeOutput).cursor = s.cursor := rfl
@[simp] theorem computeOutput_pins (s : State) : (s.computeOutput).pins = s.pins := rfl
@[simp] theorem computeOutput_zero (s : State) : (s.computeOutput).zero = (aluCompute s.a s.b s.alu.subtractMode).zero := rfl
@[simp] theorem computeOutput_carry (s : State) : (s.computeOutput).carry = (aluCompute s.a s.b s.alu.subtractMode).carry := rfl
@[simp] theorem computeOutput_alu (s : State) : (s.computeOutput).alu = { s.alu with
      out := (aluCompute s.a s.b s.alu.subtractMode).out
      carryIn := (aluCompute s.a s.b s.alu.subtractMode).carryIn
      carryOut := (aluCompute s.a s.b s.alu.subtractMode).carryOut } := rfl
@[simp] theorem computeOutput_modes (s : State) : (s.computeOutput).modes = s.modes := rfl
@[simp] theorem computeOutput_bus (s : State) : (s.computeOutput).bus = s.bus := rfl
@[simp] theorem computeOutput_mem (s : State) : (s.computeOutput).mem = s.mem := rfl
@[simp] theorem computeOutput_pointer (s : State) : (s.computeOutput).pointer = s.pointer := rfl
@[simp] theorem computeOutput_clock (s : State) : (s.computeOutput).clock = s.clock := rfl
@[simp] theorem computeOutput_errors (s : State) : (s.computeOutput).errors = s.errors := rfl
@[simp] theorem computeOutput_faulted (s : State) : (s.computeOutput).faulted = s.faulted := rfl
@[simp] theorem computeOutput_params (s : State) : (s.computeOutput).params = s.params := rfl

/-! ### `withFetchWord` -/

@[simp] theorem withFetchWord_a (nbits w : Nat) (s : State) : (s.withFetchWord nbits w).a = s.a := rfl
@[simp] theorem withFetchWord_b (nbits w : Nat) (s : State) : (s.withFetchWord nbits w).b = s.b := rfl
@[simp] theorem withFetchWord_o (nbits w : Nat) (s : State) : (s.withFetchWord nbits w).o = s.o := rfl
@[simp] theorem withFetchWord_pc (nbits w : Nat) (s : State) : (s.withFetchWord nbits w).pc = s.pc := rfl
@[simp] theorem withFetchWord_ar (nbits w : Nat) (s : State) : (s.withFetchWord nbits w).ar = s.ar := rfl
@[simp] theorem withFetchWord_ir (nbits w : Nat) (s : State) : (s.withFetchWord nbits w).ir = s.ir := rfl
@[simp] theorem withFetchWord_currentInstruction (nbits w : Nat) (s : State) : (s.withFetchWord nbits w).currentInstruction = s.currentInstruction := rfl
@[simp] theorem withFetchWord_cursor (nbits w : Nat) (s : State) : (s.withFetchWord nbits w).cursor = s.cursor := rfl
@[simp] theorem withFetchWord_pins (nbits w : Nat) (s : State) : (s.withFetchWord nbits w).pins = s.pins := rfl
@[simp] theorem withFetchWord_zero (nbits w : Nat) (s : State) : (s.withFetchWord nbits w).zero = s.zero := rfl
@[simp] theorem withFetchWord_carry (nbits w : Nat) (s : State) : (s.withFetchWord nbits w).carry = s.carry := rfl
@[simp] theorem withFetchWord_alu (nbits w : Nat) (s : State) : (s.withFetchWord nbits w).alu = s.alu := rfl
@[simp] theorem withFetchWord_modes (nbits w : Nat) (s : State) : (s.withFetchWord nbits w).modes = s.modes := rfl
@[simp] theorem withFetchWord_bus (nbits w : Nat) (s : State) : (s.withFetchWord nbits w).bus = s.bus := rfl
@[simp] theorem withFetchWord_mem (nbits w : Nat) (s : State) : (s.withFetchWord nbits w).mem = s.mem.write s.fetchAddress (BitVec.ofNat 8 (w % 2 ^ nbits)) := rfl
@[simp] theorem withFetchWord_pointer (nbits w : Nat) (s : State) : (s.withFetchWord nbits w).pointer = s.pointer := rfl
@[simp] theorem withFetchWord_clock (nbits w : Nat) (s : State) : (s.withFetchWord nbits w).clock = { s.clock with started := true } := rfl
@[simp] theorem withFetchWord_errors (nbits w : Nat) (s : State) : (s.withFetchWord nbits w).errors = s.errors := rfl
@[simp] theorem withFetchWord_faulted (nbits w : Nat) (s : State) : (s.withFetchWord nbits w).faulted = s.faulted := rfl
@[simp] theorem withFetchWord_params (nbits w : Nat) (s : State) : (s.withFetchWord nbits w).params = s.params := rfl

/-! ### Clock facts of the updates -/

@[simp] theorem haltClock_running (s : State) : s.haltClock.clock.running = false := by
  simp [Clock.running]

@[simp] theorem raiseFatal_running (e : CoreError) (s : State) : (s.raiseFatal e).clock.running = false := by
  simp [Clock.running]

@[simp] theorem countTick_running (s : State) : s.countTick.clock.running = s.clock.running := rfl

@[simp] theorem Clock.running_with_output (c : Clock) (x : Bool) (n : Nat) :
    ({ c with output := x, edges := n } : Clock).running = c.running := rfl

@[simp] theorem Clock.running_with_edges (c : Clock) (n : Nat) : ({ c with edges := n } : Clock).running = c.running := rfl

/-! ### Modes -/

@[simp] theorem Modes.get_allFloat (d : Device) : Modes.allFloat.get d = .float := by cases d <;> rfl

@[simp] theorem Modes.get_set_same (m : Modes) (d : Device) (x : Mode) : (m.set d x).get d = x := by cases d <;> rfl

theorem Modes.get_set_other (m : Modes) {d e : Device} (h : e ≠ d) (x : Mode) : (m.set d x).get e = m.get e := by
  cases d <;> cases e <;> first | rfl | exact absurd rfl h

/-- Commanding a mode changes that device's mode, or, for the ALU and READ, only the error record. -/
theorem commandMode_cases (d : Device) (x : Mode) (s : State) :
    (s.commandMode d x = s.record .invalidMode ∧ d = .alu ∧ x = .read) ∨
      s.commandMode d x = { s with modes := s.modes.set d x } := by
  unfold State.commandMode
  split
  · exact .inl ⟨rfl, ‹_›⟩
  · exact .inr rfl

end Sys2Proof.Machine
end

