-- ==== Sys2Proof/Laws/Memory.lean ====
section
/-! SUPPORT. Memory: reading after writing, and the canonical form that every memory operation keeps. -/

namespace Sys2Proof.Machine

theorem Memory.read_below {m : Memory} {lowest i : Nat} (h : m.wfFrom lowest = true) (hi : i < lowest) :
    m.read i = unlistedByte := by
  induction m generalizing lowest with
  | nil => rfl
  | cons c rest ih =>
    obtain ⟨k, v⟩ := c
    simp only [Memory.wfFrom, Bool.and_eq_true, decide_eq_true_eq] at h
    have hk : k ≠ i := by omega
    simpa [Memory.read, hk] using ih h.2 (by omega)

theorem Memory.wfFrom_mono {m : Memory} {lo hi : Nat} (h : m.wfFrom hi = true) (le : lo ≤ hi) : m.wfFrom lo = true := by
  cases m with
  | nil => rfl
  | cons c rest =>
    simp only [Memory.wfFrom, Bool.and_eq_true, decide_eq_true_eq] at h ⊢
    exact ⟨⟨by omega, h.1.2⟩, h.2⟩

theorem Memory.wfFrom_cell_append {rest : Memory} {lowest i : Nat} {v : Byte} (hi : lowest ≤ i)
    (h : rest.wfFrom (i + 1) = true) : (Memory.cell i v ++ rest).wfFrom lowest = true := by
  unfold Memory.cell
  split
  · exact Memory.wfFrom_mono h (by omega)
  · simp_all [Memory.wfFrom]

/-- Writing keeps the canonical form from any bound the address is not below. -/
theorem Memory.wfFrom_write {m : Memory} {lowest i : Nat} {v : Byte} (h : m.wfFrom lowest = true) (hi : lowest ≤ i) :
    (m.write i v).wfFrom lowest = true := by
  induction m generalizing lowest with
  | nil => simpa [Memory.write] using Memory.wfFrom_cell_append (rest := []) (v := v) hi rfl
  | cons c rest ih =>
    obtain ⟨k, w⟩ := c
    simp only [Memory.wfFrom, Bool.and_eq_true, decide_eq_true_eq] at h
    unfold Memory.write
    split
    · exact Memory.wfFrom_cell_append hi (by simp_all [Memory.wfFrom])
    · split
      · subst k; exact Memory.wfFrom_cell_append hi h.2
      · simp only [Memory.wfFrom, Bool.and_eq_true, decide_eq_true_eq]
        exact ⟨h.1, ih h.2 (by omega)⟩

/-- Every write keeps the canonical form. -/
theorem Memory.wf_write {m : Memory} (h : m.wf = true) (i : Nat) (v : Byte) : (m.write i v).wf = true :=
  Memory.wfFrom_write h (Nat.zero_le i)

/-- What a written memory lists: the cell written, and cells that were listed. -/
theorem Memory.mem_write {m : Memory} {i : Nat} {v : Byte} {c : Host.Cell} (h : c ∈ m.write i v) : c.1 = i ∨ c ∈ m := by
  have inCell : c ∈ Memory.cell i v → c.1 = i := by
    unfold Memory.cell
    split <;> simp_all
  induction m with
  | nil => exact .inl (inCell h)
  | cons d rest ih =>
    obtain ⟨k, w⟩ := d
    unfold Memory.write at h
    split at h
    · rcases List.mem_append.1 h with h | h
      · exact .inl (inCell h)
      · exact .inr h
    · split at h
      · rcases List.mem_append.1 h with h | h
        · exact .inl (inCell h)
        · exact .inr (List.mem_cons_of_mem _ h)
      · rcases List.mem_cons.1 h with h | h
        · exact .inr (h ▸ List.mem_cons_self)
        · exact (ih h).imp_right (List.mem_cons_of_mem _)

theorem Memory.within_iff {m : Memory} {cells : Nat} : m.within cells = true ↔ ∀ c ∈ m, c.1 < cells := by
  simp [Memory.within]

/-- A write to an existing cell keeps memory inside the address space. -/
theorem Memory.within_write {m : Memory} {cells i : Nat} {v : Byte} (h : m.within cells = true) (hi : i < cells) :
    (m.write i v).within cells = true :=
  Memory.within_iff.2 fun c hc =>
    (Memory.mem_write hc).elim (fun e => e ▸ hi) (Memory.within_iff.1 h c)

theorem Memory.read_cell_append (rest : Memory) (i j : Nat) (v : Byte) (hj : j = i → rest.read i = unlistedByte) :
    Memory.read (Memory.cell i v ++ rest) j = if j = i then v else rest.read j := by
  unfold Memory.cell
  split
  · next hv =>
    split
    · next hji => subst hji; simpa [hv] using hj rfl
    · simp
  · by_cases hji : j = i
    · simp [Memory.read, hji]
    · have : i ≠ j := fun h => hji h.symm
      simp [Memory.read, hji, this]

/-- Reading after a write, from a bound the address is not below. -/
theorem Memory.read_write_from {m : Memory} {lowest : Nat} (h : m.wfFrom lowest = true) (i j : Nat) (v : Byte) :
    (m.write i v).read j = if j = i then v else m.read j := by
  induction m generalizing lowest with
  | nil => simpa [Memory.write, Memory.read] using Memory.read_cell_append [] i j v fun _ => rfl
  | cons c rest ih =>
    obtain ⟨k, w⟩ := c
    have hw : Memory.wfFrom lowest ((k, w) :: rest) = true := h
    simp only [Memory.wfFrom, Bool.and_eq_true, decide_eq_true_eq] at h
    unfold Memory.write
    split
    · next hik =>
      exact Memory.read_cell_append _ i j v fun _ =>
        Memory.read_below (lowest := k) (by simp_all [Memory.wfFrom]) hik
    · split
      · next hik =>
        subst k
        rw [Memory.read_cell_append rest i j v fun _ => Memory.read_below h.2 (by omega)]
        by_cases hji : j = i
        · simp [hji]
        · have : i ≠ j := fun h => hji h.symm
          simp [Memory.read, hji, this]
      · next hik =>
        by_cases hkj : k = j
        · have : j ≠ i := fun h => hik (by omega)
          simp [Memory.read, hkj, this]
        · simpa [Memory.read, hkj] using ih h.2

/-- Two canonical memories with the same bytes are the same list. -/
theorem Memory.eq_of_read_from {m n : Memory} {lowest : Nat} (hm : m.wfFrom lowest = true) (hn : n.wfFrom lowest = true)
    (h : ∀ i, m.read i = n.read i) : m = n := by
  induction m generalizing n lowest with
  | nil =>
    cases n with
    | nil => rfl
    | cons d _ =>
      have := h d.1
      simp_all [Memory.read, Memory.wfFrom]
  | cons c rest ih =>
    obtain ⟨k, v⟩ := c
    cases n with
    | nil =>
      have := h k
      simp_all [Memory.read, Memory.wfFrom]
    | cons d rest' =>
      obtain ⟨l, w⟩ := d
      simp only [Memory.wfFrom, Bool.and_eq_true, decide_eq_true_eq, bne_iff_ne] at hm hn
      have hkl : k = l := by
        rcases Nat.lt_trichotomy k l with hlt | heq | hgt
        · have h1 := h k
          have h2 := Memory.read_below (i := k) hn.2 (by omega)
          have : l ≠ k := by omega
          simp_all [Memory.read]
        · exact heq
        · have h1 := h l
          have h2 := Memory.read_below (i := l) hm.2 (by omega)
          have : k ≠ l := by omega
          simp_all [Memory.read]
      subst hkl
      have hv : v = w := by simpa [Memory.read] using h k
      subst hv
      refine congrArg _ (ih hm.2 hn.2 fun i => ?_)
      by_cases hki : k = i
      · subst hki
        rw [Memory.read_below hm.2 (by omega), Memory.read_below hn.2 (by omega)]
      · simpa [Memory.read, hki] using h i

theorem Memory.wf_writeFrom {m : Memory} (h : m.wf = true) (start : Nat) (vs : List Byte) :
    (m.writeFrom start vs).wf = true := by
  induction vs generalizing m start with
  | nil => exact h
  | cons v vs ih => exact ih (Memory.wf_write h start v) (start + 1)

theorem Memory.within_writeFrom {m : Memory} {cells : Nat} (h : m.within cells = true) (start : Nat) (vs : List Byte)
    (hs : start + vs.length ≤ cells) : (m.writeFrom start vs).within cells = true := by
  induction vs generalizing m start with
  | nil => exact h
  | cons v vs ih =>
    simp only [List.length_cons] at hs
    exact ih (Memory.within_write h (by omega)) (start + 1) (by omega)

theorem Memory.wf_writeEntries {m : Memory} (h : m.wf = true) (es : List (Nat × Byte)) : (m.writeEntries es).wf = true := by
  induction es generalizing m with
  | nil => exact h
  | cons e es ih => exact ih (Memory.wf_write h e.1 e.2)

theorem Memory.within_writeEntries {m : Memory} {cells : Nat} (h : m.within cells = true) (es : List (Nat × Byte))
    (he : ∀ e ∈ es, e.1 < cells) : (m.writeEntries es).within cells = true := by
  induction es generalizing m with
  | nil => exact h
  | cons e es ih =>
    exact ih (Memory.within_write h (he e (by simp))) fun x hx => he x (by simp [hx])

end Sys2Proof.Machine
end

