-- ==== Sys2Proof/Laws/FanOut.lean ====
section
/-! SUPPORT. The fan-out: what the bus does with a byte, what the falling edge does to any state, and what the fan-out of each
word of the microcode table does to a state whose devices all float. Each lemma is everything that word can do, so a proof
about an instruction cites it and never unfolds a fan-out. -/

namespace Sys2Proof.Machine

/-! ### The bus -/

/-- A write of 8 bits replaces the bus byte. -/
theorem alignLow_byte (bus v : Byte) : alignLow bus v = v := by
  simp only [alignLow]
  ext i hi
  simp

/-- A write of a byte is the bus byte replaced, and then the notification. -/
theorem busWrite_byte (v : Byte) (s : State) : s.busWrite v = { s with bus := v }.notify attachOrder := by
  simp [State.busWrite, alignLow_byte]

/-- With no device in READ mode the notification changes nothing. -/
theorem notify_none_reading {s : State} {ds : List Device} (h : ∀ d ∈ ds, s.modes.get d ≠ .read) :
    s.notify ds = .going s := by
  induction ds with
  | nil => rfl
  | cons d ds ih =>
    simp only [State.notify, if_neg (h d List.mem_cons_self)]
    exact ih fun e he => h e (List.mem_cons_of_mem _ he)

/-! ### What a word asks of the devices -/

/-- What the pins of a word come to: the modes they ask for, and the ALU's and the PC's own pins. -/
structure Asks (w : MicroWord) (m : Modes) (eo su ce : Bool) : Prop where
  modes : ∀ d, d.modeOf w = m.get d
  eo : asserts w .eo = eo
  su : asserts w .su = su
  ce : asserts w .ce = ce

/-! ### The falling edge -/

theorem asks_zero : Asks 0 .allFloat false false false := ⟨by intro d; cases d <;> rfl, rfl, rfl, rfl⟩

/-- A word that asks nothing floats every device and clears `subtractMode`, and changes nothing else. -/
theorem fanOut_nothing {s : State} {w : MicroWord} (hw : Asks w .allFloat false false false) (hp : s.pins = w) :
    s.updateAllPins = .going { s with modes := .allFloat, alu := { s.alu with subtractMode := false } } := by
  simp [State.updateAllPins, fanOutOrder, State.fanOut, State.updateControlPins, State.prepare, State.commandMode,
    State.updateState, Flow.andThen, Modes.get, Modes.set, Modes.allFloat, hw.modes, hw.eo, hw.su, hw.ce, hp]

/-- The falling edge, on any state (40_cycle.md R118). -/
theorem zeroPins_eq (s : State) :
    s.zeroPins = { s with pins := 0, modes := .allFloat, alu := { s.alu with subtractMode := false } } := by
  unfold State.zeroPins
  rw [fanOut_nothing asks_zero rfl]

/-! ### The words of the table -/

theorem asks_co_mi : Asks (word [.co, .mi])
    { Modes.allFloat with pc := .write, ar := .read } false false false :=
  ⟨by intro d; cases d <;> rfl, rfl, rfl, rfl⟩

/-- Step 0: the PC drives, AR latches. -/
theorem fanOut_co_mi {s : State} {w : MicroWord} (hw : Asks w
    { Modes.allFloat with pc := .write, ar := .read } false false false)
    (hm : s.modes = .allFloat) (hp : s.pins = w) :
    s.updateAllPins = .going
      { s with
        ar := s.pc.low
        pointer := s.pc.low
        bus := s.pc
        modes := { Modes.allFloat with pc := .write, ar := .read }
        alu := { s.alu with subtractMode := false } } := by
  simp [State.updateAllPins, fanOutOrder, State.fanOut, State.updateControlPins, State.prepare, State.commandMode,
    State.updateState, State.latch, Flow.andThen, Modes.get, Modes.set, Modes.allFloat, hw.modes, hw.eo, hw.su, hw.ce, hm, hp, State.drive,
    busWrite_byte, State.notify, attachOrder]

theorem asks_ro_ii_ce : Asks (word [.ro, .ii, .ce])
    { Modes.allFloat with memory := .write, ir := .read } false false true :=
  ⟨by intro d; cases d <;> rfl, rfl, rfl, rfl⟩

theorem asks_ro_ii : Asks (clearPin (word [.ro, .ii, .ce]) .ce)
    { Modes.allFloat with memory := .write, ir := .read } false false false :=
  ⟨by intro d; cases d <;> rfl, rfl, rfl, rfl⟩

/-- Step 1: Memory drives, the PC increments and clears CE, IR latches and publishes. -/
theorem fanOut_ro_ii_ce {s : State} {w : MicroWord} (hw : Asks w
    { Modes.allFloat with memory := .write, ir := .read } false false true)
    (hc : Asks (clearPin w .ce) { Modes.allFloat with memory := .write, ir := .read } false false false)
    (hm : s.modes = .allFloat) (hp : s.pins = w) (hr : s.pointerInRange = true) :
    s.updateAllPins = .going
      { s with
        bus := s.mem.read s.pointer.toNat
        pc := incrementPc s.pc
        pins := clearPin w .ce
        ir := s.mem.read s.pointer.toNat
        currentInstruction := s.mem.read s.pointer.toNat
        modes := { Modes.allFloat with memory := .write, ir := .read }
        alu := { s.alu with subtractMode := false } } := by
  simp [State.updateAllPins, fanOutOrder, State.fanOut, State.updateControlPins, State.prepare, State.commandMode,
    State.updateState, State.latch, Flow.andThen, Modes.get, Modes.set, Modes.allFloat, hw.modes, hw.eo, hw.su, hw.ce, hm, hp, State.drive,
    busWrite_byte, State.notify, attachOrder, hc.modes, State.pointerInRange, of_decide_eq_true hr]

/-- The same word where the pointer is past the end: AddressOutOfRange stops the fan-out at Memory (60_exceptions.md R205). -/
theorem fanOut_ro_ii_ce_outOfRange {s : State} {w : MicroWord} (hw : Asks w
    { Modes.allFloat with memory := .write, ir := .read } false false true)
    (hm : s.modes = .allFloat) (hp : s.pins = w) (hr : s.pointerInRange = false) :
    s.updateAllPins = .stopped ({ s with
        modes := { Modes.allFloat with memory := .write }
        alu := { s.alu with subtractMode := false } }.raiseFatal (.addressOutOfRange s.pointer)) := by
  have hr' : s.params.cells ≤ s.pointer.toNat := by simpa [State.pointerInRange] using hr
  simp [State.updateAllPins, fanOutOrder, State.fanOut, State.updateControlPins, State.prepare, State.commandMode,
    State.updateState, Flow.andThen, Modes.get, Modes.set, Modes.allFloat, hw.modes, hw.eo, hw.su, hm, hp, State.drive, State.pointerInRange, Nat.not_lt.2 hr']

theorem asks_io_mi : Asks (word [.io, .mi])
    { Modes.allFloat with ar := .read, ir := .write } false false false :=
  ⟨by intro d; cases d <;> rfl, rfl, rfl, rfl⟩

/-- Step 2: IR drives, AR latches the operand. -/
theorem fanOut_io_mi {s : State} {w : MicroWord} (hw : Asks w
    { Modes.allFloat with ar := .read, ir := .write } false false false)
    (hm : s.modes = .allFloat) (hp : s.pins = w) :
    s.updateAllPins = .going
      { s with
        bus := irDrive s.params.irDrive s.ir
        ar := (irDrive s.params.irDrive s.ir).low
        pointer := (irDrive s.params.irDrive s.ir).low
        modes := { Modes.allFloat with ar := .read, ir := .write }
        alu := { s.alu with subtractMode := false } } := by
  simp [State.updateAllPins, fanOutOrder, State.fanOut, State.updateControlPins, State.prepare, State.commandMode,
    State.updateState, State.latch, Flow.andThen, Modes.get, Modes.set, Modes.allFloat, hw.modes, hw.eo, hw.su, hw.ce, hm, hp, State.drive,
    busWrite_byte, State.notify, attachOrder]

theorem asks_ro_ai : Asks (word [.ro, .ai])
    { Modes.allFloat with a := .read, memory := .write } false false false :=
  ⟨by intro d; cases d <;> rfl, rfl, rfl, rfl⟩

/-- A latches the addressed cell. -/
theorem fanOut_ro_ai {s : State} {w : MicroWord} (hw : Asks w
    { Modes.allFloat with a := .read, memory := .write } false false false)
    (hm : s.modes = .allFloat) (hp : s.pins = w) (hr : s.pointerInRange = true) :
    s.updateAllPins = .going
      { s with
        a := s.mem.read s.pointer.toNat
        bus := s.mem.read s.pointer.toNat
        modes := { Modes.allFloat with a := .read, memory := .write }
        alu := { s.alu with subtractMode := false } } := by
  simp [State.updateAllPins, fanOutOrder, State.fanOut, State.updateControlPins, State.prepare, State.commandMode,
    State.updateState, State.latch, Flow.andThen, Modes.get, Modes.set, Modes.allFloat, hw.modes, hw.eo, hw.su, hw.ce, hm, hp, State.drive,
    busWrite_byte, State.notify, attachOrder, State.pointerInRange, of_decide_eq_true hr]

/-- The same word where the pointer is past the end: AddressOutOfRange stops the fan-out at Memory (60_exceptions.md R205). -/
theorem fanOut_ro_ai_outOfRange {s : State} {w : MicroWord} (hw : Asks w
    { Modes.allFloat with a := .read, memory := .write } false false false)
    (hm : s.modes = .allFloat) (hp : s.pins = w) (hr : s.pointerInRange = false) :
    s.updateAllPins = .stopped ({ s with
        a := s.bus
        alu := { s.alu with subtractMode := false }
        modes := { Modes.allFloat with a := .read, memory := .write } }.raiseFatal (.addressOutOfRange s.pointer)) := by
  have hr' : s.params.cells ≤ s.pointer.toNat := by simpa [State.pointerInRange] using hr
  simp [State.updateAllPins, fanOutOrder, State.fanOut, State.updateControlPins, State.prepare, State.commandMode,
    State.updateState, State.latch, Flow.andThen, Modes.get, Modes.set, Modes.allFloat, hw.modes, hw.eo, hw.su, hm, hp, State.drive, State.pointerInRange, Nat.not_lt.2 hr']

theorem asks_ro_bi : Asks (word [.ro, .bi])
    { Modes.allFloat with b := .read, memory := .write } false false false :=
  ⟨by intro d; cases d <;> rfl, rfl, rfl, rfl⟩

/-- B latches the addressed cell. -/
theorem fanOut_ro_bi {s : State} {w : MicroWord} (hw : Asks w
    { Modes.allFloat with b := .read, memory := .write } false false false)
    (hm : s.modes = .allFloat) (hp : s.pins = w) (hr : s.pointerInRange = true) :
    s.updateAllPins = .going
      { s with
        b := s.mem.read s.pointer.toNat
        bus := s.mem.read s.pointer.toNat
        modes := { Modes.allFloat with b := .read, memory := .write }
        alu := { s.alu with subtractMode := false } } := by
  simp [State.updateAllPins, fanOutOrder, State.fanOut, State.updateControlPins, State.prepare, State.commandMode,
    State.updateState, State.latch, Flow.andThen, Modes.get, Modes.set, Modes.allFloat, hw.modes, hw.eo, hw.su, hw.ce, hm, hp, State.drive,
    busWrite_byte, State.notify, attachOrder, State.pointerInRange, of_decide_eq_true hr]

/-- The same word where the pointer is past the end: AddressOutOfRange stops the fan-out at Memory (60_exceptions.md R205). -/
theorem fanOut_ro_bi_outOfRange {s : State} {w : MicroWord} (hw : Asks w
    { Modes.allFloat with b := .read, memory := .write } false false false)
    (hm : s.modes = .allFloat) (hp : s.pins = w) (hr : s.pointerInRange = false) :
    s.updateAllPins = .stopped ({ s with
        b := s.bus
        alu := { s.alu with subtractMode := false }
        modes := { Modes.allFloat with b := .read, memory := .write } }.raiseFatal (.addressOutOfRange s.pointer)) := by
  have hr' : s.params.cells ≤ s.pointer.toNat := by simpa [State.pointerInRange] using hr
  simp [State.updateAllPins, fanOutOrder, State.fanOut, State.updateControlPins, State.prepare, State.commandMode,
    State.updateState, State.latch, Flow.andThen, Modes.get, Modes.set, Modes.allFloat, hw.modes, hw.eo, hw.su, hm, hp, State.drive, State.pointerInRange, Nat.not_lt.2 hr']

theorem asks_ro_oi : Asks (word [.ro, .oi])
    { Modes.allFloat with o := .read, memory := .write } false false false :=
  ⟨by intro d; cases d <;> rfl, rfl, rfl, rfl⟩

/-- O latches the addressed cell. -/
theorem fanOut_ro_oi {s : State} {w : MicroWord} (hw : Asks w
    { Modes.allFloat with o := .read, memory := .write } false false false)
    (hm : s.modes = .allFloat) (hp : s.pins = w) (hr : s.pointerInRange = true) :
    s.updateAllPins = .going
      { s with
        o := s.mem.read s.pointer.toNat
        bus := s.mem.read s.pointer.toNat
        modes := { Modes.allFloat with o := .read, memory := .write }
        alu := { s.alu with subtractMode := false } } := by
  simp [State.updateAllPins, fanOutOrder, State.fanOut, State.updateControlPins, State.prepare, State.commandMode,
    State.updateState, State.latch, Flow.andThen, Modes.get, Modes.set, Modes.allFloat, hw.modes, hw.eo, hw.su, hw.ce, hm, hp, State.drive,
    busWrite_byte, State.notify, attachOrder, State.pointerInRange, of_decide_eq_true hr]

/-- The same word where the pointer is past the end: AddressOutOfRange stops the fan-out at Memory (60_exceptions.md R205). -/
theorem fanOut_ro_oi_outOfRange {s : State} {w : MicroWord} (hw : Asks w
    { Modes.allFloat with o := .read, memory := .write } false false false)
    (hm : s.modes = .allFloat) (hp : s.pins = w) (hr : s.pointerInRange = false) :
    s.updateAllPins = .stopped ({ s with
        o := s.bus
        alu := { s.alu with subtractMode := false }
        modes := { Modes.allFloat with o := .read, memory := .write } }.raiseFatal (.addressOutOfRange s.pointer)) := by
  have hr' : s.params.cells ≤ s.pointer.toNat := by simpa [State.pointerInRange] using hr
  simp [State.updateAllPins, fanOutOrder, State.fanOut, State.updateControlPins, State.prepare, State.commandMode,
    State.updateState, State.latch, Flow.andThen, Modes.get, Modes.set, Modes.allFloat, hw.modes, hw.eo, hw.su, hm, hp, State.drive, State.pointerInRange, Nat.not_lt.2 hr']

theorem asks_ao_ri : Asks (word [.ao, .ri])
    { Modes.allFloat with a := .write, memory := .read } false false false :=
  ⟨by intro d; cases d <;> rfl, rfl, rfl, rfl⟩

/-- The addressed cell latches A. -/
theorem fanOut_ao_ri {s : State} {w : MicroWord} (hw : Asks w
    { Modes.allFloat with a := .write, memory := .read } false false false)
    (hm : s.modes = .allFloat) (hp : s.pins = w) (hr : s.pointerInRange = true) :
    s.updateAllPins = .going
      { s with
        mem := s.mem.write s.pointer.toNat s.a
        bus := s.a
        modes := { Modes.allFloat with a := .write, memory := .read }
        alu := { s.alu with subtractMode := false } } := by
  simp [State.updateAllPins, fanOutOrder, State.fanOut, State.updateControlPins, State.prepare, State.commandMode,
    State.updateState, State.latch, Flow.andThen, Modes.get, Modes.set, Modes.allFloat, hw.modes, hw.eo, hw.su, hw.ce, hm, hp, State.drive,
    busWrite_byte, State.notify, attachOrder, State.pointerInRange, of_decide_eq_true hr]

/-- The same word where the pointer is past the end: AddressOutOfRange stops the fan-out at Memory (60_exceptions.md R205). -/
theorem fanOut_ao_ri_outOfRange {s : State} {w : MicroWord} (hw : Asks w
    { Modes.allFloat with a := .write, memory := .read } false false false)
    (hm : s.modes = .allFloat) (hp : s.pins = w) (hr : s.pointerInRange = false) :
    s.updateAllPins = .stopped ({ s with
        bus := s.a
        alu := { s.alu with subtractMode := false }
        modes := { Modes.allFloat with a := .write, memory := .read } }.raiseFatal (.addressOutOfRange s.pointer)) := by
  have hr' : s.params.cells ≤ s.pointer.toNat := by simpa [State.pointerInRange] using hr
  simp [State.updateAllPins, fanOutOrder, State.fanOut, State.updateControlPins, State.prepare, State.commandMode,
    State.updateState, State.latch, Flow.andThen, Modes.get, Modes.set, Modes.allFloat, hw.modes, hw.eo, hw.su, hm, hp, State.drive,
    busWrite_byte, State.notify, attachOrder, State.pointerInRange, Nat.not_lt.2 hr']

theorem asks_oo_ri : Asks (word [.oo, .ri])
    { Modes.allFloat with o := .write, memory := .read } false false false :=
  ⟨by intro d; cases d <;> rfl, rfl, rfl, rfl⟩

/-- The addressed cell latches O. -/
theorem fanOut_oo_ri {s : State} {w : MicroWord} (hw : Asks w
    { Modes.allFloat with o := .write, memory := .read } false false false)
    (hm : s.modes = .allFloat) (hp : s.pins = w) (hr : s.pointerInRange = true) :
    s.updateAllPins = .going
      { s with
        mem := s.mem.write s.pointer.toNat s.o
        bus := s.o
        modes := { Modes.allFloat with o := .write, memory := .read }
        alu := { s.alu with subtractMode := false } } := by
  simp [State.updateAllPins, fanOutOrder, State.fanOut, State.updateControlPins, State.prepare, State.commandMode,
    State.updateState, State.latch, Flow.andThen, Modes.get, Modes.set, Modes.allFloat, hw.modes, hw.eo, hw.su, hw.ce, hm, hp, State.drive,
    busWrite_byte, State.notify, attachOrder, State.pointerInRange, of_decide_eq_true hr]

/-- The same word where the pointer is past the end: AddressOutOfRange stops the fan-out at Memory (60_exceptions.md R205). -/
theorem fanOut_oo_ri_outOfRange {s : State} {w : MicroWord} (hw : Asks w
    { Modes.allFloat with o := .write, memory := .read } false false false)
    (hm : s.modes = .allFloat) (hp : s.pins = w) (hr : s.pointerInRange = false) :
    s.updateAllPins = .stopped ({ s with
        bus := s.o
        alu := { s.alu with subtractMode := false }
        modes := { Modes.allFloat with o := .write, memory := .read } }.raiseFatal (.addressOutOfRange s.pointer)) := by
  have hr' : s.params.cells ≤ s.pointer.toNat := by simpa [State.pointerInRange] using hr
  simp [State.updateAllPins, fanOutOrder, State.fanOut, State.updateControlPins, State.prepare, State.commandMode,
    State.updateState, State.latch, Flow.andThen, Modes.get, Modes.set, Modes.allFloat, hw.modes, hw.eo, hw.su, hm, hp, State.drive,
    busWrite_byte, State.notify, attachOrder, State.pointerInRange, Nat.not_lt.2 hr']

theorem asks_bo_ai : Asks (word [.bo, .ai])
    { Modes.allFloat with a := .read, b := .write } false false false :=
  ⟨by intro d; cases d <;> rfl, rfl, rfl, rfl⟩

/-- A latches B. -/
theorem fanOut_bo_ai {s : State} {w : MicroWord} (hw : Asks w
    { Modes.allFloat with a := .read, b := .write } false false false)
    (hm : s.modes = .allFloat) (hp : s.pins = w) :
    s.updateAllPins = .going
      { s with
        a := s.b
        bus := s.b
        modes := { Modes.allFloat with a := .read, b := .write }
        alu := { s.alu with subtractMode := false } } := by
  simp [State.updateAllPins, fanOutOrder, State.fanOut, State.updateControlPins, State.prepare, State.commandMode,
    State.updateState, State.latch, Flow.andThen, Modes.get, Modes.set, Modes.allFloat, hw.modes, hw.eo, hw.su, hw.ce, hm, hp, State.drive,
    busWrite_byte, State.notify, attachOrder]

theorem asks_oo_ai : Asks (word [.oo, .ai])
    { Modes.allFloat with a := .read, o := .write } false false false :=
  ⟨by intro d; cases d <;> rfl, rfl, rfl, rfl⟩

/-- A latches O. -/
theorem fanOut_oo_ai {s : State} {w : MicroWord} (hw : Asks w
    { Modes.allFloat with a := .read, o := .write } false false false)
    (hm : s.modes = .allFloat) (hp : s.pins = w) :
    s.updateAllPins = .going
      { s with
        a := s.o
        bus := s.o
        modes := { Modes.allFloat with a := .read, o := .write }
        alu := { s.alu with subtractMode := false } } := by
  simp [State.updateAllPins, fanOutOrder, State.fanOut, State.updateControlPins, State.prepare, State.commandMode,
    State.updateState, State.latch, Flow.andThen, Modes.get, Modes.set, Modes.allFloat, hw.modes, hw.eo, hw.su, hw.ce, hm, hp, State.drive,
    busWrite_byte, State.notify, attachOrder]

theorem asks_ao_bi : Asks (word [.ao, .bi])
    { Modes.allFloat with a := .write, b := .read } false false false :=
  ⟨by intro d; cases d <;> rfl, rfl, rfl, rfl⟩

/-- B latches A. -/
theorem fanOut_ao_bi {s : State} {w : MicroWord} (hw : Asks w
    { Modes.allFloat with a := .write, b := .read } false false false)
    (hm : s.modes = .allFloat) (hp : s.pins = w) :
    s.updateAllPins = .going
      { s with
        b := s.a
        bus := s.a
        modes := { Modes.allFloat with a := .write, b := .read }
        alu := { s.alu with subtractMode := false } } := by
  simp [State.updateAllPins, fanOutOrder, State.fanOut, State.updateControlPins, State.prepare, State.commandMode,
    State.updateState, State.latch, Flow.andThen, Modes.get, Modes.set, Modes.allFloat, hw.modes, hw.eo, hw.su, hw.ce, hm, hp, State.drive,
    busWrite_byte, State.notify, attachOrder]

theorem asks_ao_oi : Asks (word [.ao, .oi])
    { Modes.allFloat with a := .write, o := .read } false false false :=
  ⟨by intro d; cases d <;> rfl, rfl, rfl, rfl⟩

/-- O latches A. -/
theorem fanOut_ao_oi {s : State} {w : MicroWord} (hw : Asks w
    { Modes.allFloat with a := .write, o := .read } false false false)
    (hm : s.modes = .allFloat) (hp : s.pins = w) :
    s.updateAllPins = .going
      { s with
        o := s.a
        bus := s.a
        modes := { Modes.allFloat with a := .write, o := .read }
        alu := { s.alu with subtractMode := false } } := by
  simp [State.updateAllPins, fanOutOrder, State.fanOut, State.updateControlPins, State.prepare, State.commandMode,
    State.updateState, State.latch, Flow.andThen, Modes.get, Modes.set, Modes.allFloat, hw.modes, hw.eo, hw.su, hw.ce, hm, hp, State.drive,
    busWrite_byte, State.notify, attachOrder]

theorem asks_io_ci : Asks (word [.io, .ci])
    { Modes.allFloat with pc := .read, ir := .write } false false false :=
  ⟨by intro d; cases d <;> rfl, rfl, rfl, rfl⟩

/-- A taken jump: IR drives, the PC latches. -/
theorem fanOut_io_ci {s : State} {w : MicroWord} (hw : Asks w
    { Modes.allFloat with pc := .read, ir := .write } false false false)
    (hm : s.modes = .allFloat) (hp : s.pins = w) :
    s.updateAllPins = .going
      { s with
        pc := irDrive s.params.irDrive s.ir
        bus := irDrive s.params.irDrive s.ir
        modes := { Modes.allFloat with pc := .read, ir := .write }
        alu := { s.alu with subtractMode := false } } := by
  simp [State.updateAllPins, fanOutOrder, State.fanOut, State.updateControlPins, State.prepare, State.commandMode,
    State.updateState, State.latch, Flow.andThen, Modes.get, Modes.set, Modes.allFloat, hw.modes, hw.eo, hw.su, hw.ce, hm, hp, State.drive,
    busWrite_byte, State.notify, attachOrder]

theorem asks_eo_ai : Asks (word [.eo, .ai])
    { Modes.allFloat with alu := .write, a := .read } true false false :=
  ⟨by intro d; cases d <;> rfl, rfl, rfl, rfl⟩

/-- The ALU computes and drives, A latches. -/
theorem fanOut_eo_ai {s : State} {w : MicroWord} (hw : Asks w
    { Modes.allFloat with alu := .write, a := .read } true false false)
    (hm : s.modes = .allFloat) (hp : s.pins = w) :
    s.updateAllPins = .going
      { s with
        a := (aluCompute s.a s.b false).out
        bus := (aluCompute s.a s.b false).out
        alu := ⟨(aluCompute s.a s.b false).out, false, (aluCompute s.a s.b false).carryIn, (aluCompute s.a s.b false).carryOut⟩
        zero := (aluCompute s.a s.b false).zero
        carry := (aluCompute s.a s.b false).carry
        modes := { Modes.allFloat with alu := .write, a := .read } } := by
  simp [State.updateAllPins, fanOutOrder, State.fanOut, State.updateControlPins, State.prepare, State.commandMode,
    State.updateState, State.latch, Flow.andThen, Modes.get, Modes.set, Modes.allFloat, hw.modes, hw.eo, hw.su, hw.ce, hm, hp, State.drive,
    busWrite_byte, State.notify, attachOrder, State.computeOutput]

theorem asks_eo_oi : Asks (word [.eo, .oi])
    { Modes.allFloat with alu := .write, o := .read } true false false :=
  ⟨by intro d; cases d <;> rfl, rfl, rfl, rfl⟩

/-- The ALU computes and drives, O latches. -/
theorem fanOut_eo_oi {s : State} {w : MicroWord} (hw : Asks w
    { Modes.allFloat with alu := .write, o := .read } true false false)
    (hm : s.modes = .allFloat) (hp : s.pins = w) :
    s.updateAllPins = .going
      { s with
        o := (aluCompute s.a s.b false).out
        bus := (aluCompute s.a s.b false).out
        alu := ⟨(aluCompute s.a s.b false).out, false, (aluCompute s.a s.b false).carryIn, (aluCompute s.a s.b false).carryOut⟩
        zero := (aluCompute s.a s.b false).zero
        carry := (aluCompute s.a s.b false).carry
        modes := { Modes.allFloat with alu := .write, o := .read } } := by
  simp [State.updateAllPins, fanOutOrder, State.fanOut, State.updateControlPins, State.prepare, State.commandMode,
    State.updateState, State.latch, Flow.andThen, Modes.get, Modes.set, Modes.allFloat, hw.modes, hw.eo, hw.su, hw.ce, hm, hp, State.drive,
    busWrite_byte, State.notify, attachOrder, State.computeOutput]

theorem asks_eo_su_ai : Asks (word [.eo, .su, .ai])
    { Modes.allFloat with alu := .write, a := .read } true true false :=
  ⟨by intro d; cases d <;> rfl, rfl, rfl, rfl⟩

/-- The ALU computes and drives, A latches. -/
theorem fanOut_eo_su_ai {s : State} {w : MicroWord} (hw : Asks w
    { Modes.allFloat with alu := .write, a := .read } true true false)
    (hm : s.modes = .allFloat) (hp : s.pins = w) :
    s.updateAllPins = .going
      { s with
        a := (aluCompute s.a s.b true).out
        bus := (aluCompute s.a s.b true).out
        alu := ⟨(aluCompute s.a s.b true).out, true, (aluCompute s.a s.b true).carryIn, (aluCompute s.a s.b true).carryOut⟩
        zero := (aluCompute s.a s.b true).zero
        carry := (aluCompute s.a s.b true).carry
        modes := { Modes.allFloat with alu := .write, a := .read } } := by
  simp [State.updateAllPins, fanOutOrder, State.fanOut, State.updateControlPins, State.prepare, State.commandMode,
    State.updateState, State.latch, Flow.andThen, Modes.get, Modes.set, Modes.allFloat, hw.modes, hw.eo, hw.su, hw.ce, hm, hp, State.drive,
    busWrite_byte, State.notify, attachOrder, State.computeOutput]

theorem asks_eo_su_oi : Asks (word [.eo, .su, .oi])
    { Modes.allFloat with alu := .write, o := .read } true true false :=
  ⟨by intro d; cases d <;> rfl, rfl, rfl, rfl⟩

/-- The ALU computes and drives, O latches. -/
theorem fanOut_eo_su_oi {s : State} {w : MicroWord} (hw : Asks w
    { Modes.allFloat with alu := .write, o := .read } true true false)
    (hm : s.modes = .allFloat) (hp : s.pins = w) :
    s.updateAllPins = .going
      { s with
        o := (aluCompute s.a s.b true).out
        bus := (aluCompute s.a s.b true).out
        alu := ⟨(aluCompute s.a s.b true).out, true, (aluCompute s.a s.b true).carryIn, (aluCompute s.a s.b true).carryOut⟩
        zero := (aluCompute s.a s.b true).zero
        carry := (aluCompute s.a s.b true).carry
        modes := { Modes.allFloat with alu := .write, o := .read } } := by
  simp [State.updateAllPins, fanOutOrder, State.fanOut, State.updateControlPins, State.prepare, State.commandMode,
    State.updateState, State.latch, Flow.andThen, Modes.get, Modes.set, Modes.allFloat, hw.modes, hw.eo, hw.su, hw.ce, hm, hp, State.drive,
    busWrite_byte, State.notify, attachOrder, State.computeOutput]

end Sys2Proof.Machine
end

