-- ==== Sys2Proof/Laws/Edges.lean ====
section
/-! SUPPORT. Ticks: what the two edges of one microcode word do to a state between edges, for each word of the table, and how a
run of edges goes on. The proofs about instructions chain these. -/

namespace Sys2Proof.Machine

theorem tick_rising {l : State → Option MicroWord} {s : State} (h : s.clock.output = false) :
    s.tick l = s.countTick.executeWord (l s) := by
  simp [State.tick, h]

/-- A falling edge, on any state whose output bit is 1 (40_cycle.md R118). -/
theorem tick_falling {l : State → Option MicroWord} {s : State} (h : s.clock.output = true) :
    s.tick l =
      { s with
        pins := 0
        modes := .allFloat
        alu := { s.alu with subtractMode := false }
        clock := { s.clock with output := false, edges := s.clock.edges + 1 } } := by
  simp [State.tick, h, zeroPins_eq, State.countTick]

/-- A word whose fan-out goes through advances the cursor. -/
theorem executeWord_going {s u : State} {w : MicroWord} (hy : asserts w .yld = false)
    (hu : { s with pins := w }.updateAllPins = .going u) (hh : asserts u.pins .hlt = false) :
    s.executeWord (some w) = { u with cursor := u.cursor + 1 } := by
  unfold State.executeWord
  simp only [hy]
  rw [if_neg (by decide), hu]
  simp [hh]

/-- A word whose fan-out a fatal error stops leaves the cursor. -/
theorem executeWord_stopped {s u : State} {w : MicroWord} (hy : asserts w .yld = false)
    (hu : { s with pins := w }.updateAllPins = .stopped u) : s.executeWord (some w) = u := by
  unfold State.executeWord
  simp only [hy]
  rw [if_neg (by decide), hu]

/-- One microcode word and its falling edge: two ticks from `s` to `t`, with the clock still running between them. -/
structure Microstep (l : State → Option MicroWord) (s t : State) : Prop where
  running : (s.tick l).clock.running = s.clock.running
  high : (s.tick l).clock.output = true
  ticks : (s.tick l).tick l = t

/-- A rising edge on a word whose fan-out goes through, and the falling edge after it. -/
theorem microstep {l : State → Option MicroWord} {s u : State} {w : MicroWord} (q : s.clock.output = false)
    (hl : l s = some w) (hy : asserts w .yld = false) (hu : { s.countTick with pins := w }.updateAllPins = .going u)
    (hh : asserts u.pins .hlt = false) (hc : u.clock = s.countTick.clock) :
    Microstep l s
      { u with
        cursor := u.cursor + 1
        pins := 0
        modes := .allFloat
        alu := { u.alu with subtractMode := false }
        clock := { s.clock with edges := s.clock.edges + 2 } } := by
  have hr : s.tick l = { u with cursor := u.cursor + 1 } := by
    rw [tick_rising q, hl, executeWord_going hy hu hh]
  refine ⟨?_, ?_, ?_⟩
  · simp [hr, hc, Clock.running]
  · simp [hr, hc, q]
  · rw [hr, tick_falling (by simp [hc, q])]
    simp [hc, q]

/-- A rising edge on a word whose fan-out a fatal error stops. -/
theorem tick_stopped {l : State → Option MicroWord} {s u : State} {w : MicroWord} (q : s.clock.output = false)
    (hl : l s = some w) (hy : asserts w .yld = false) (hu : { s.countTick with pins := w }.updateAllPins = .stopped u) :
    s.tick l = u := by
  rw [tick_rising q, hl, executeWord_stopped hy hu]

/-- The yield word and its falling edge (40_cycle.md R120). -/
theorem microstep_yield {l : State → Option MicroWord} {s : State} (q : s.Quiet) (hl : l s = some yieldWord) :
    Microstep l s { s with cursor := 0, clock := { s.clock with edges := s.clock.edges + 2 } } := by
  obtain ⟨hp, hm, hs, ho⟩ := q
  have hr : s.tick l = { s.countTick with pins := yieldWord, cursor := 0 } := by
    rw [tick_rising ho, hl]
    simp [State.executeWord, show asserts yieldWord .yld = true from rfl]
  refine ⟨?_, ?_, ?_⟩
  · simp [hr, Clock.running]
  · simp [hr, ho]
  · rw [hr, tick_falling (by simp [ho])]
    obtain ⟨a, b, o, pc, ar, ir, ci, cur, pins, z, c, ⟨out, sub, cin, cout⟩, modes, bus, mem, ptr,
      ⟨st, hc, co, pe, ed⟩, errs, f, params⟩ := s
    simp only at hp hm hs ho
    simp [hp, hm, hs, ho]

/-- The HLT word: the clock halts inside its rising edge (40_cycle.md R119). -/
theorem tick_hlt {l : State → Option MicroWord} {s : State} (q : s.Quiet) (hl : l s = some (word [.hlt])) :
    s.tick l =
      { s with
        cursor := s.cursor + 1
        pins := word [.hlt]
        clock := { s.clock with output := true, haltCalled := true, edges := s.clock.edges + 1 } } := by
  obtain ⟨hp, hm, hs, ho⟩ := q
  have hw : Asks (word [.hlt]) .allFloat false false false := ⟨by intro d; cases d <;> rfl, rfl, rfl, rfl⟩
  rw [tick_rising ho, hl]
  simp only [State.executeWord, show asserts (word [.hlt]) .yld = false from rfl]
  rw [if_neg (by decide), fanOut_nothing hw rfl]
  obtain ⟨a, b, o, pc, ar, ir, ci, cur, pins, z, c, ⟨out, sub, cin, cout⟩, modes, bus, mem, ptr,
    ⟨st, hc, co, pe, ed⟩, errs, f, params⟩ := s
  simp only at hp hm hs ho
  simp [State.countTick, State.haltClock, show asserts (word [.hlt]) .hlt = true from rfl, hm, hs, ho]

/-! ### The words of the table, one step each -/

theorem microstep_co_mi {l : State → Option MicroWord} {s : State} (q : s.Quiet)
    (hl : l s = some (word [.co, .mi])) :
    Microstep l s
      { s with
        ar := s.pc.low
        pointer := s.pc.low
        bus := s.pc
        cursor := s.cursor + 1
        clock := { s.clock with edges := s.clock.edges + 2 } } := by
  obtain ⟨hp, hm, hs, ho⟩ := q
  have h := microstep ho hl rfl (fanOut_co_mi asks_co_mi hm rfl)
    (show asserts (word [.co, .mi]) .hlt = false from rfl) rfl
  obtain ⟨a, b, o, pc, ar, ir, ci, cur, pins, z, c, ⟨out, sub, cin, cout⟩, modes, bus, mem, ptr, clk, errs, f, params⟩ := s
  simp only at hp hm hs
  simpa [hp, hm, hs, State.countTick] using h

theorem microstep_ro_ii_ce {l : State → Option MicroWord} {s : State} (q : s.Quiet)
    (hl : l s = some (word [.ro, .ii, .ce]))
    (hr : s.pointerInRange = true) :
    Microstep l s
      { s with
        bus := s.mem.read s.pointer.toNat
        pc := incrementPc s.pc
        ir := s.mem.read s.pointer.toNat
        currentInstruction := s.mem.read s.pointer.toNat
        cursor := s.cursor + 1
        clock := { s.clock with edges := s.clock.edges + 2 } } := by
  obtain ⟨hp, hm, hs, ho⟩ := q
  have h := microstep ho hl rfl (fanOut_ro_ii_ce asks_ro_ii_ce asks_ro_ii hm rfl hr)
    (show asserts (clearPin (word [.ro, .ii, .ce]) .ce) .hlt = false from rfl) rfl
  obtain ⟨a, b, o, pc, ar, ir, ci, cur, pins, z, c, ⟨out, sub, cin, cout⟩, modes, bus, mem, ptr, clk, errs, f, params⟩ := s
  simp only at hp hm hs
  simpa [hp, hm, hs, State.countTick] using h

theorem microstep_io_mi {l : State → Option MicroWord} {s : State} (q : s.Quiet)
    (hl : l s = some (word [.io, .mi])) :
    Microstep l s
      { s with
        bus := irDrive s.params.irDrive s.ir
        ar := (irDrive s.params.irDrive s.ir).low
        pointer := (irDrive s.params.irDrive s.ir).low
        cursor := s.cursor + 1
        clock := { s.clock with edges := s.clock.edges + 2 } } := by
  obtain ⟨hp, hm, hs, ho⟩ := q
  have h := microstep ho hl rfl (fanOut_io_mi asks_io_mi hm rfl)
    (show asserts (word [.io, .mi]) .hlt = false from rfl) rfl
  obtain ⟨a, b, o, pc, ar, ir, ci, cur, pins, z, c, ⟨out, sub, cin, cout⟩, modes, bus, mem, ptr, clk, errs, f, params⟩ := s
  simp only at hp hm hs
  simpa [hp, hm, hs, State.countTick] using h

theorem microstep_ro_ai {l : State → Option MicroWord} {s : State} (q : s.Quiet)
    (hl : l s = some (word [.ro, .ai]))
    (hr : s.pointerInRange = true) :
    Microstep l s
      { s with
        a := s.mem.read s.pointer.toNat
        bus := s.mem.read s.pointer.toNat
        cursor := s.cursor + 1
        clock := { s.clock with edges := s.clock.edges + 2 } } := by
  obtain ⟨hp, hm, hs, ho⟩ := q
  have h := microstep ho hl rfl (fanOut_ro_ai asks_ro_ai hm rfl hr)
    (show asserts (word [.ro, .ai]) .hlt = false from rfl) rfl
  obtain ⟨a, b, o, pc, ar, ir, ci, cur, pins, z, c, ⟨out, sub, cin, cout⟩, modes, bus, mem, ptr, clk, errs, f, params⟩ := s
  simp only at hp hm hs
  simpa [hp, hm, hs, State.countTick] using h

theorem microstep_ro_bi {l : State → Option MicroWord} {s : State} (q : s.Quiet)
    (hl : l s = some (word [.ro, .bi]))
    (hr : s.pointerInRange = true) :
    Microstep l s
      { s with
        b := s.mem.read s.pointer.toNat
        bus := s.mem.read s.pointer.toNat
        cursor := s.cursor + 1
        clock := { s.clock with edges := s.clock.edges + 2 } } := by
  obtain ⟨hp, hm, hs, ho⟩ := q
  have h := microstep ho hl rfl (fanOut_ro_bi asks_ro_bi hm rfl hr)
    (show asserts (word [.ro, .bi]) .hlt = false from rfl) rfl
  obtain ⟨a, b, o, pc, ar, ir, ci, cur, pins, z, c, ⟨out, sub, cin, cout⟩, modes, bus, mem, ptr, clk, errs, f, params⟩ := s
  simp only at hp hm hs
  simpa [hp, hm, hs, State.countTick] using h

theorem microstep_ro_oi {l : State → Option MicroWord} {s : State} (q : s.Quiet)
    (hl : l s = some (word [.ro, .oi]))
    (hr : s.pointerInRange = true) :
    Microstep l s
      { s with
        o := s.mem.read s.pointer.toNat
        bus := s.mem.read s.pointer.toNat
        cursor := s.cursor + 1
        clock := { s.clock with edges := s.clock.edges + 2 } } := by
  obtain ⟨hp, hm, hs, ho⟩ := q
  have h := microstep ho hl rfl (fanOut_ro_oi asks_ro_oi hm rfl hr)
    (show asserts (word [.ro, .oi]) .hlt = false from rfl) rfl
  obtain ⟨a, b, o, pc, ar, ir, ci, cur, pins, z, c, ⟨out, sub, cin, cout⟩, modes, bus, mem, ptr, clk, errs, f, params⟩ := s
  simp only at hp hm hs
  simpa [hp, hm, hs, State.countTick] using h

theorem microstep_ao_ri {l : State → Option MicroWord} {s : State} (q : s.Quiet)
    (hl : l s = some (word [.ao, .ri]))
    (hr : s.pointerInRange = true) :
    Microstep l s
      { s with
        mem := s.mem.write s.pointer.toNat s.a
        bus := s.a
        cursor := s.cursor + 1
        clock := { s.clock with edges := s.clock.edges + 2 } } := by
  obtain ⟨hp, hm, hs, ho⟩ := q
  have h := microstep ho hl rfl (fanOut_ao_ri asks_ao_ri hm rfl hr)
    (show asserts (word [.ao, .ri]) .hlt = false from rfl) rfl
  obtain ⟨a, b, o, pc, ar, ir, ci, cur, pins, z, c, ⟨out, sub, cin, cout⟩, modes, bus, mem, ptr, clk, errs, f, params⟩ := s
  simp only at hp hm hs
  simpa [hp, hm, hs, State.countTick] using h

theorem microstep_oo_ri {l : State → Option MicroWord} {s : State} (q : s.Quiet)
    (hl : l s = some (word [.oo, .ri]))
    (hr : s.pointerInRange = true) :
    Microstep l s
      { s with
        mem := s.mem.write s.pointer.toNat s.o
        bus := s.o
        cursor := s.cursor + 1
        clock := { s.clock with edges := s.clock.edges + 2 } } := by
  obtain ⟨hp, hm, hs, ho⟩ := q
  have h := microstep ho hl rfl (fanOut_oo_ri asks_oo_ri hm rfl hr)
    (show asserts (word [.oo, .ri]) .hlt = false from rfl) rfl
  obtain ⟨a, b, o, pc, ar, ir, ci, cur, pins, z, c, ⟨out, sub, cin, cout⟩, modes, bus, mem, ptr, clk, errs, f, params⟩ := s
  simp only at hp hm hs
  simpa [hp, hm, hs, State.countTick] using h

theorem microstep_bo_ai {l : State → Option MicroWord} {s : State} (q : s.Quiet)
    (hl : l s = some (word [.bo, .ai])) :
    Microstep l s
      { s with
        a := s.b
        bus := s.b
        cursor := s.cursor + 1
        clock := { s.clock with edges := s.clock.edges + 2 } } := by
  obtain ⟨hp, hm, hs, ho⟩ := q
  have h := microstep ho hl rfl (fanOut_bo_ai asks_bo_ai hm rfl)
    (show asserts (word [.bo, .ai]) .hlt = false from rfl) rfl
  obtain ⟨a, b, o, pc, ar, ir, ci, cur, pins, z, c, ⟨out, sub, cin, cout⟩, modes, bus, mem, ptr, clk, errs, f, params⟩ := s
  simp only at hp hm hs
  simpa [hp, hm, hs, State.countTick] using h

theorem microstep_oo_ai {l : State → Option MicroWord} {s : State} (q : s.Quiet)
    (hl : l s = some (word [.oo, .ai])) :
    Microstep l s
      { s with
        a := s.o
        bus := s.o
        cursor := s.cursor + 1
        clock := { s.clock with edges := s.clock.edges + 2 } } := by
  obtain ⟨hp, hm, hs, ho⟩ := q
  have h := microstep ho hl rfl (fanOut_oo_ai asks_oo_ai hm rfl)
    (show asserts (word [.oo, .ai]) .hlt = false from rfl) rfl
  obtain ⟨a, b, o, pc, ar, ir, ci, cur, pins, z, c, ⟨out, sub, cin, cout⟩, modes, bus, mem, ptr, clk, errs, f, params⟩ := s
  simp only at hp hm hs
  simpa [hp, hm, hs, State.countTick] using h

theorem microstep_ao_bi {l : State → Option MicroWord} {s : State} (q : s.Quiet)
    (hl : l s = some (word [.ao, .bi])) :
    Microstep l s
      { s with
        b := s.a
        bus := s.a
        cursor := s.cursor + 1
        clock := { s.clock with edges := s.clock.edges + 2 } } := by
  obtain ⟨hp, hm, hs, ho⟩ := q
  have h := microstep ho hl rfl (fanOut_ao_bi asks_ao_bi hm rfl)
    (show asserts (word [.ao, .bi]) .hlt = false from rfl) rfl
  obtain ⟨a, b, o, pc, ar, ir, ci, cur, pins, z, c, ⟨out, sub, cin, cout⟩, modes, bus, mem, ptr, clk, errs, f, params⟩ := s
  simp only at hp hm hs
  simpa [hp, hm, hs, State.countTick] using h

theorem microstep_ao_oi {l : State → Option MicroWord} {s : State} (q : s.Quiet)
    (hl : l s = some (word [.ao, .oi])) :
    Microstep l s
      { s with
        o := s.a
        bus := s.a
        cursor := s.cursor + 1
        clock := { s.clock with edges := s.clock.edges + 2 } } := by
  obtain ⟨hp, hm, hs, ho⟩ := q
  have h := microstep ho hl rfl (fanOut_ao_oi asks_ao_oi hm rfl)
    (show asserts (word [.ao, .oi]) .hlt = false from rfl) rfl
  obtain ⟨a, b, o, pc, ar, ir, ci, cur, pins, z, c, ⟨out, sub, cin, cout⟩, modes, bus, mem, ptr, clk, errs, f, params⟩ := s
  simp only at hp hm hs
  simpa [hp, hm, hs, State.countTick] using h

theorem microstep_io_ci {l : State → Option MicroWord} {s : State} (q : s.Quiet)
    (hl : l s = some (word [.io, .ci])) :
    Microstep l s
      { s with
        pc := irDrive s.params.irDrive s.ir
        bus := irDrive s.params.irDrive s.ir
        cursor := s.cursor + 1
        clock := { s.clock with edges := s.clock.edges + 2 } } := by
  obtain ⟨hp, hm, hs, ho⟩ := q
  have h := microstep ho hl rfl (fanOut_io_ci asks_io_ci hm rfl)
    (show asserts (word [.io, .ci]) .hlt = false from rfl) rfl
  obtain ⟨a, b, o, pc, ar, ir, ci, cur, pins, z, c, ⟨out, sub, cin, cout⟩, modes, bus, mem, ptr, clk, errs, f, params⟩ := s
  simp only at hp hm hs
  simpa [hp, hm, hs, State.countTick] using h

theorem microstep_eo_ai {l : State → Option MicroWord} {s : State} (q : s.Quiet)
    (hl : l s = some (word [.eo, .ai])) :
    Microstep l s
      { s with
        a := (aluCompute s.a s.b false).out
        bus := (aluCompute s.a s.b false).out
        alu := ⟨(aluCompute s.a s.b false).out, false, (aluCompute s.a s.b false).carryIn, (aluCompute s.a s.b false).carryOut⟩
        zero := (aluCompute s.a s.b false).zero
        carry := (aluCompute s.a s.b false).carry
        cursor := s.cursor + 1
        clock := { s.clock with edges := s.clock.edges + 2 } } := by
  obtain ⟨hp, hm, hs, ho⟩ := q
  have h := microstep ho hl rfl (fanOut_eo_ai asks_eo_ai hm rfl)
    (show asserts (word [.eo, .ai]) .hlt = false from rfl) rfl
  obtain ⟨a, b, o, pc, ar, ir, ci, cur, pins, z, c, ⟨out, sub, cin, cout⟩, modes, bus, mem, ptr, clk, errs, f, params⟩ := s
  simp only at hp hm hs
  simpa [hp, hm, hs, State.countTick] using h

theorem microstep_eo_oi {l : State → Option MicroWord} {s : State} (q : s.Quiet)
    (hl : l s = some (word [.eo, .oi])) :
    Microstep l s
      { s with
        o := (aluCompute s.a s.b false).out
        bus := (aluCompute s.a s.b false).out
        alu := ⟨(aluCompute s.a s.b false).out, false, (aluCompute s.a s.b false).carryIn, (aluCompute s.a s.b false).carryOut⟩
        zero := (aluCompute s.a s.b false).zero
        carry := (aluCompute s.a s.b false).carry
        cursor := s.cursor + 1
        clock := { s.clock with edges := s.clock.edges + 2 } } := by
  obtain ⟨hp, hm, hs, ho⟩ := q
  have h := microstep ho hl rfl (fanOut_eo_oi asks_eo_oi hm rfl)
    (show asserts (word [.eo, .oi]) .hlt = false from rfl) rfl
  obtain ⟨a, b, o, pc, ar, ir, ci, cur, pins, z, c, ⟨out, sub, cin, cout⟩, modes, bus, mem, ptr, clk, errs, f, params⟩ := s
  simp only at hp hm hs
  simpa [hp, hm, hs, State.countTick] using h

theorem microstep_eo_su_ai {l : State → Option MicroWord} {s : State} (q : s.Quiet)
    (hl : l s = some (word [.eo, .su, .ai])) :
    Microstep l s
      { s with
        a := (aluCompute s.a s.b true).out
        bus := (aluCompute s.a s.b true).out
        alu := ⟨(aluCompute s.a s.b true).out, false, (aluCompute s.a s.b true).carryIn, (aluCompute s.a s.b true).carryOut⟩
        zero := (aluCompute s.a s.b true).zero
        carry := (aluCompute s.a s.b true).carry
        cursor := s.cursor + 1
        clock := { s.clock with edges := s.clock.edges + 2 } } := by
  obtain ⟨hp, hm, hs, ho⟩ := q
  have h := microstep ho hl rfl (fanOut_eo_su_ai asks_eo_su_ai hm rfl)
    (show asserts (word [.eo, .su, .ai]) .hlt = false from rfl) rfl
  obtain ⟨a, b, o, pc, ar, ir, ci, cur, pins, z, c, ⟨out, sub, cin, cout⟩, modes, bus, mem, ptr, clk, errs, f, params⟩ := s
  simp only at hp hm hs
  simpa [hp, hm, hs, State.countTick] using h

theorem microstep_eo_su_oi {l : State → Option MicroWord} {s : State} (q : s.Quiet)
    (hl : l s = some (word [.eo, .su, .oi])) :
    Microstep l s
      { s with
        o := (aluCompute s.a s.b true).out
        bus := (aluCompute s.a s.b true).out
        alu := ⟨(aluCompute s.a s.b true).out, false, (aluCompute s.a s.b true).carryIn, (aluCompute s.a s.b true).carryOut⟩
        zero := (aluCompute s.a s.b true).zero
        carry := (aluCompute s.a s.b true).carry
        cursor := s.cursor + 1
        clock := { s.clock with edges := s.clock.edges + 2 } } := by
  obtain ⟨hp, hm, hs, ho⟩ := q
  have h := microstep ho hl rfl (fanOut_eo_su_oi asks_eo_su_oi hm rfl)
    (show asserts (word [.eo, .su, .oi]) .hlt = false from rfl) rfl
  obtain ⟨a, b, o, pc, ar, ir, ci, cur, pins, z, c, ⟨out, sub, cin, cout⟩, modes, bus, mem, ptr, clk, errs, f, params⟩ := s
  simp only at hp hm hs
  simpa [hp, hm, hs, State.countTick] using h

/-! ### Runs of edges -/

/-- A run that is not done goes on with two ticks, when its condition holds of no state whose output bit is 1. -/
theorem runEdges_micro {l : State → Option MicroWord} {done : State → Bool} {s t : State} {n : Nat}
    (h : Microstep l s t) (low : ∀ u : State, u.clock.output = true → done u = false) (hr : s.clock.running = true)
    (hd : done s = false) : s.runEdges l done (n + 2) = t.runEdges l done n := by
  simp [State.runEdges, hr, hd, h.running, low _ h.high, h.ticks]

theorem fetchDone_high (u : State) (h : u.clock.output = true) : u.fetchDone = false := by simp [State.fetchDone, h]

theorem betweenInstructions_high (u : State) (h : u.clock.output = true) : u.betweenInstructions = false := by
  simp [State.betweenInstructions, h]

theorem runEdges_done {l : State → Option MicroWord} {done : State → Bool} {s : State} (hd : done s = true) (n : Nat) :
    s.runEdges l done n = s := by
  cases n <;> simp [State.runEdges, hd]

theorem runEdges_stopped {l : State → Option MicroWord} {done : State → Bool} {s : State}
    (hr : s.clock.running = false) (n : Nat) : s.runEdges l done n = s := by
  cases n <;> simp [State.runEdges, hr]

theorem runEdges_one {l : State → Option MicroWord} {done : State → Bool} {s : State} {n : Nat}
    (hr : s.clock.running = true) (hd : done s = false) :
    s.runEdges l done (n + 1) = (s.tick l).runEdges l done n := by
  simp [State.runEdges, hr, hd]

end Sys2Proof.Machine
end

