-- ==== Sys2Proof/Laws/Prefix.lean ====
section
/-! SUPPORT. The common prefix of every instruction (40_cycle.md R114), from an instruction boundary: what the fetch leaves, what
step 2 leaves, and so what every meaning comes to before its own body words run. -/

namespace Sys2Proof.Machine

/-! ### The operand on its way to AR -/

theorem encode_low (m : OpcodeMap) (i : Instr) : (encode m i).low = i.operand := by
  simp only [Byte.low, encode]
  exact BitVec.extractLsb'_append_eq_right

theorem encode_high (m : OpcodeMap) (i : Instr) : (encode m i).high = m.code i.mnemonic := by
  simp only [Byte.high, encode]
  exact BitVec.extractLsb'_append_eq_left

/-- IR drives its operand in the low 4 bits under both settings of IR_DRIVE_WIDTH (40_cycle.md R117). -/
theorem irDrive_low (width : IrDriveWidth) (b : Byte) : (irDrive width b).low = b.low := by
  cases width
  · rfl
  · simp only [irDrive, Byte.low, Nibble.zext]
    ext j hj
    simp [hj, show j < 8 by omega]

/-! ### Lookups in a row -/

/-- Every variant of the row is the common prefix, a body and the yield word (30_encoding.md R90). -/
def Row.Sequenced (row : Row) : Prop := ∀ v, ∃ body, row v = sequence body

theorem flagVariant_of_exclusive {s : State} (h : s.FlagsExclusive) : ∃ v, flagVariant? s.zero s.carry = some v := by
  unfold State.FlagsExclusive at h
  cases hz : s.zero <;> cases hc : s.carry <;> simp_all [flagVariant?]

theorem Row.word?_eq {row : Row} {s : State} {v : FlagVariant} (hv : flagVariant? s.zero s.carry = some v) :
    row.word? s = (row v)[s.cursor]? := by
  simp [Row.word?, hv]

/-- The words at the cursors of the common prefix. -/
theorem Row.word?_prefix {row : Row} (hr : row.Sequenced) {s : State} {v : FlagVariant}
    (hv : flagVariant? s.zero s.carry = some v) {k : Nat} (hc : s.cursor = k) (hk : k < 3) :
    row.word? s = prefixWords[k]? := by
  obtain ⟨body, hb⟩ := hr v
  rw [Row.word?_eq hv, hb, hc, sequence, List.append_assoc, List.getElem?_append_left hk]

/-! ### The states of the prefix -/

/-- After step 0 and its falling edge. -/
def State.afterStep0 (s : State) : State :=
  { s with
    ar := s.pc.low
    pointer := s.pc.low
    bus := s.pc
    cursor := 1
    clock := { s.clock with edges := s.clock.edges + 2 } }

/-- After steps 0 and 1 and their falling edges: the fetch is done. -/
def State.afterFetch (s : State) : State :=
  { s with
    pc := incrementPc s.pc
    ir := s.fetchByte
    currentInstruction := s.fetchByte
    ar := s.pc.low
    pointer := s.pc.low
    bus := s.fetchByte
    cursor := 2
    clock := { s.clock with edges := s.clock.edges + 4 } }

/-- After the whole prefix of the instruction fetched. -/
def State.afterStep2 (s : State) : State :=
  { s with
    pc := incrementPc s.pc
    ir := s.fetchByte
    currentInstruction := s.fetchByte
    ar := s.fetchByte.low
    pointer := s.fetchByte.low
    bus := s.fetchedDrive
    cursor := 3
    clock := { s.clock with edges := s.clock.edges + 6 } }

section
variable {l : State → Option MicroWord} {s : State}

theorem microstep_step0 (hb : s.AtBoundary) (h0 : l s = some (word [.co, .mi])) : Microstep l s s.afterStep0 := by
  simpa [State.afterStep0, hb.1] using microstep_co_mi hb.2 h0

theorem microstep_step1 (hb : s.AtBoundary) (hin : s.InMemory s.pc.low)
    (h1 : l s.afterStep0 = some (word [.ro, .ii, .ce])) : Microstep l s.afterStep0 s.afterFetch :=
  microstep_ro_ii_ce (s := s.afterStep0) hb.2 h1 (decide_eq_true hin)

/-- The fetch from a boundary, whatever looks its two words up. -/
theorem runFetch_eq (hb : s.CanBegin) (hin : s.InMemory s.pc.low) (h0 : l s = some (word [.co, .mi]))
    (h1 : l s.afterStep0 = some (word [.ro, .ii, .ce])) : s.runEdges l State.fetchDone fetchFuel = s.afterFetch := by
  obtain ⟨hr, hbd, _⟩ := hb
  rw [fetchFuel, runEdges_micro (n := 3) (microstep_step0 hbd h0) fetchDone_high hr (by simp [State.fetchDone, hbd.1]),
    runEdges_micro (n := 1) (microstep_step1 hbd hin h1) fetchDone_high hr (by simp [State.fetchDone, State.afterStep0]),
    runEdges_done]
  simpa [State.afterFetch, State.fetchDone] using hbd.2.2.2.2

/-- The fetch from an address past the end stops inside step 1 (60_exceptions.md R205). -/
theorem runFetch_outOfRange (hb : s.CanBegin) (hin : ¬s.InMemory s.pc.low) (h0 : l s = some (word [.co, .mi]))
    (h1 : l s.afterStep0 = some (word [.ro, .ii, .ce])) :
    s.runEdges l State.fetchDone fetchFuel = s.fetchOutOfRange := by
  obtain ⟨hr, hbd, _⟩ := hb
  have ht : s.afterStep0.tick l = s.fetchOutOfRange := by
    rw [tick_stopped (s := s.afterStep0) hbd.2.2.2.2 h1 rfl
      (fanOut_ro_ii_ce_outOfRange asks_ro_ii_ce hbd.2.2.1 rfl (decide_eq_false hin))]
    obtain ⟨_, _, _, hs, ho⟩ := hbd
    obtain ⟨a, b, o, pc, ar, ir, ci, cur, pins, z, c, ⟨out, sub, cin, cout⟩, modes, bus, mem, ptr,
      ⟨st, hc, co, pe, ed⟩, errs, f, params⟩ := s
    simp only at hs ho
    simp [State.afterStep0, State.fetchOutOfRange, State.stoppedBy, State.stoppedHigh, State.raiseFatal, State.record,
      State.haltClock, State.countTick, hs, ho]
  rw [fetchFuel, runEdges_micro (n := 3) (microstep_step0 hbd h0) fetchDone_high hr (by simp [State.fetchDone, hbd.1]),
    runEdges_one (n := 2) (s := s.afterStep0) hr (by simp [State.fetchDone, State.afterStep0]), ht, runEdges_stopped]
  simp [State.fetchOutOfRange, State.stoppedBy, State.stoppedHigh, Clock.running]

end

/-! ### What every meaning comes to -/

section
variable {row : Row} {s : State} {i : Instr}

/-- From a boundary that is ready for `i`, the meaning of `i` is the run of its row from step 3 on (40_cycle.md R114). -/
theorem runInstruction_eq (hrow : row.Sequenced) (h : s.ReadyFor i) :
    s.runInstruction i row = .next (s.afterStep2.runEdges row.word? State.betweenInstructions 8) := by
  obtain ⟨hb, hin, hbyte⟩ := h
  obtain ⟨v, hv⟩ := flagVariant_of_exclusive hb.2.2
  have hf := runFetch_eq (l := row.word?) hb hin (Row.word?_prefix hrow hv hb.2.1.1 (by decide))
    (Row.word?_prefix (s := s.afterStep0) hrow hv (k := 1) rfl (by decide))
  have hp : s.afterFetch.publish (encode s.params.opcodes i) = s.afterFetch := by
    simp [State.publish, State.afterFetch, ← hbyte]
  have hm : Microstep row.word? s.afterFetch s.afterStep2 := by
    have := microstep_io_mi (s := s.afterFetch) hb.2.1.2 (Row.word?_prefix (s := s.afterFetch) hrow hv (k := 2) rfl (by decide))
    simpa only [State.afterFetch, State.afterStep2, State.fetchedDrive, irDrive_low] using this
  unfold State.runInstruction
  rw [if_pos hb.1, hf]
  simp only
  rw [if_pos (show s.afterFetch.clock.running = true from hb.1), hp, bodyFuel,
    runEdges_micro (n := 8) hm betweenInstructions_high hb.1 rfl]

/-- The meaning of any instruction whose byte lies past the end of memory is the stop of its fetch (60_exceptions.md R205). -/
theorem runInstruction_outOfRange (hrow : row.Sequenced) (hb : s.CanBegin) (hin : ¬s.InMemory s.pc.low) :
    s.runInstruction i row = .next s.fetchOutOfRange := by
  obtain ⟨v, hv⟩ := flagVariant_of_exclusive hb.2.2
  have hf := runFetch_outOfRange (l := row.word?) hb hin (Row.word?_prefix hrow hv hb.2.1.1 (by decide))
    (Row.word?_prefix (s := s.afterStep0) hrow hv (k := 1) rfl (by decide))
  unfold State.runInstruction
  rw [if_pos hb.1, hf]
  simp [State.fetchOutOfRange, State.stoppedBy, State.stoppedHigh, Clock.running]

/-- A clock that is not running has no next edge, so no meaning has a next state. -/
theorem runInstruction_stopped (hr : s.clock.running = false) : s.runInstruction i row = .fault s.stopReason := by
  simp [State.runInstruction, hr]

end

end Sys2Proof.Machine
end

