-- ==== Sys2Proof/Laws/Frames.lean ====
section
/-! SUPPORT. What each shared operation can touch, from any state and whichever way it ends: a bus action, a device's
`updateControlPins`, a fan-out, an edge, a run of edges. -/

namespace Sys2Proof.Machine

/-- The state a flow has got to, whether it goes on from it or has stopped in it. -/
def Flow.result : Flow → State
  | .going s => s
  | .stopped s => s

/-! ### A bus action: a latch, a notification, a bus write, a drive -/

/-- What no bus action touches: the ControlUnit, the ALU, the modes, the parameters, and the clock but for a halt. -/
structure KeptByBus (s t : State) : Prop where
  cursor : t.cursor = s.cursor
  pins : t.pins = s.pins
  zero : t.zero = s.zero
  carry : t.carry = s.carry
  alu : t.alu = s.alu
  modes : t.modes = s.modes
  params : t.params = s.params
  started : t.clock.started = s.clock.started
  output : t.clock.output = s.clock.output
  period : t.clock.period = s.clock.period
  edges : t.clock.edges = s.clock.edges

theorem KeptByBus.refl (s : State) : KeptByBus s s := ⟨rfl, rfl, rfl, rfl, rfl, rfl, rfl, rfl, rfl, rfl, rfl⟩

theorem KeptByBus.trans {s t u : State} (h : KeptByBus s t) (k : KeptByBus t u) : KeptByBus s u :=
  ⟨k.cursor.trans h.cursor, k.pins.trans h.pins, k.zero.trans h.zero, k.carry.trans h.carry, k.alu.trans h.alu,
    k.modes.trans h.modes, k.params.trans h.params, k.started.trans h.started, k.output.trans h.output,
    k.period.trans h.period, k.edges.trans h.edges⟩

/-- Two flows one after another keep what each of them keeps. -/
theorem Flow.andThen_result {R : State → State → Prop} (trans : ∀ {s t u}, R s t → R t u → R s u) {s : State} {r : Flow}
    {f : State → Flow} (h : R s r.result) (k : ∀ t, R t (f t).result) : R s (r.andThen f).result := by
  cases r with
  | going t => exact trans h (k t)
  | stopped t => exact h

theorem raiseFatal_kept (e : CoreError) (s : State) : KeptByBus s (s.raiseFatal e) :=
  ⟨rfl, rfl, rfl, rfl, rfl, rfl, rfl, rfl, rfl, rfl, rfl⟩

theorem latch_kept (d : Device) (v : Byte) (s : State) : KeptByBus s (s.latch d v).result := by
  cases d <;> simp only [State.latch]
  case memory => split <;> exact ⟨rfl, rfl, rfl, rfl, rfl, rfl, rfl, rfl, rfl, rfl, rfl⟩
  all_goals exact ⟨rfl, rfl, rfl, rfl, rfl, rfl, rfl, rfl, rfl, rfl, rfl⟩

theorem notify_kept (ds : List Device) (s : State) : KeptByBus s (s.notify ds).result := by
  induction ds generalizing s with
  | nil => exact .refl s
  | cons d ds ih =>
    simp only [State.notify]
    split
    · exact Flow.andThen_result (R := KeptByBus) KeptByBus.trans (latch_kept d s.bus s) ih
    · exact ih s

theorem busWrite_kept {w : Nat} (data : BitVec w) (s : State) : KeptByBus s (s.busWrite data).result := by
  unfold State.busWrite
  split
  · exact .trans (t := { s with bus := alignLow s.bus data })
      ⟨rfl, rfl, rfl, rfl, rfl, rfl, rfl, rfl, rfl, rfl, rfl⟩ (notify_kept _ _)
  · exact .trans (t := { s.record (.overflow w) with bus := data.setWidth 8 })
      ⟨rfl, rfl, rfl, rfl, rfl, rfl, rfl, rfl, rfl, rfl, rfl⟩ (notify_kept _ _)

theorem drive_kept (d : Device) (s : State) : KeptByBus s (s.drive d).result := by
  cases d <;> simp only [State.drive]
  case memory =>
    split
    · exact busWrite_kept _ s
    · exact raiseFatal_kept _ s
  all_goals exact busWrite_kept _ s

theorem updateState_kept (d : Device) (writer : Option Device) (s : State) :
    KeptByBus s (s.updateState d writer).result := by
  unfold State.updateState
  split
  · exact latch_kept d s.bus s
  · split
    · exact drive_kept d s
    · exact raiseFatal_kept _ s
  · exact .refl s

/-! ### A fan-out -/

/-- What no fan-out touches, and what one without EO keeps of the flags and the ALU. Of the pins only CE can change, and only
to 0. -/
structure KeptByFanOut (s t : State) : Prop where
  cursor : t.cursor = s.cursor
  pins : t.pins = s.pins ∨ t.pins = clearPin s.pins .ce
  params : t.params = s.params
  started : t.clock.started = s.clock.started
  output : t.clock.output = s.clock.output
  period : t.clock.period = s.clock.period
  edges : t.clock.edges = s.clock.edges
  flags : asserts s.pins .eo = false → t.zero = s.zero ∧ t.carry = s.carry ∧ t.alu.out = s.alu.out ∧
    t.alu.carryIn = s.alu.carryIn ∧ t.alu.carryOut = s.alu.carryOut

theorem clearPin_idem (w : MicroWord) (p : Pin) : clearPin (clearPin w p) p = clearPin w p := by
  simp [clearPin, BitVec.and_assoc]

theorem asserts_clearPin_ce (w : MicroWord) {p : Pin} (h : p ≠ .ce) : asserts (clearPin w .ce) p = asserts w p := by
  cases p <;> first | exact absurd rfl h | simp [asserts, clearPin, Pin.bit]

theorem KeptByFanOut.refl (s : State) : KeptByFanOut s s :=
  ⟨rfl, .inl rfl, rfl, rfl, rfl, rfl, rfl, fun _ => ⟨rfl, rfl, rfl, rfl, rfl⟩⟩

theorem KeptByFanOut.trans {s t u : State} (h : KeptByFanOut s t) (k : KeptByFanOut t u) : KeptByFanOut s u where
  cursor := k.cursor.trans h.cursor
  pins := by
    rcases h.pins with hp | hp <;> rcases k.pins with kp | kp <;> rw [kp, hp]
    · exact .inl rfl
    · exact .inr rfl
    · exact .inr rfl
    · exact .inr (clearPin_idem _ _)
  params := k.params.trans h.params
  started := k.started.trans h.started
  output := k.output.trans h.output
  period := k.period.trans h.period
  edges := k.edges.trans h.edges
  flags := fun e => by
    have e' : asserts t.pins .eo = false := by
      rcases h.pins with hp | hp <;> rw [hp]
      · exact e
      · rw [asserts_clearPin_ce _ (by decide)]; exact e
    obtain ⟨a1, a2, a3, a4, a5⟩ := h.flags e
    obtain ⟨b1, b2, b3, b4, b5⟩ := k.flags e'
    exact ⟨b1.trans a1, b2.trans a2, b3.trans a3, b4.trans a4, b5.trans a5⟩

theorem KeptByBus.fanOut {s t : State} (h : KeptByBus s t) : KeptByFanOut s t :=
  ⟨h.cursor, .inl h.pins, h.params, h.started, h.output, h.period, h.edges,
    fun _ => ⟨h.zero, h.carry, by rw [h.alu], by rw [h.alu], by rw [h.alu]⟩⟩

theorem prepare_kept (d : Device) (s : State) : KeptByFanOut s (s.prepare d) := by
  cases d <;> simp only [State.prepare]
  case alu =>
    split
    · exact ⟨rfl, .inl rfl, rfl, rfl, rfl, rfl, rfl, fun e => by simp_all⟩
    · exact ⟨rfl, .inl rfl, rfl, rfl, rfl, rfl, rfl, fun _ => ⟨rfl, rfl, rfl, rfl, rfl⟩⟩
  case pc =>
    split
    · exact ⟨rfl, .inr rfl, rfl, rfl, rfl, rfl, rfl, fun _ => ⟨rfl, rfl, rfl, rfl, rfl⟩⟩
    · exact .refl s
  all_goals exact .refl s

theorem commandMode_kept (d : Device) (x : Mode) (s : State) : KeptByFanOut s (s.commandMode d x) := by
  rcases commandMode_cases d x s with ⟨h, _⟩ | h <;> rw [h] <;>
    exact ⟨rfl, .inl rfl, rfl, rfl, rfl, rfl, rfl, fun _ => ⟨rfl, rfl, rfl, rfl, rfl⟩⟩

theorem updateControlPins_kept (d : Device) (writer : Option Device) (s : State) :
    KeptByFanOut s (s.updateControlPins d writer).result :=
  ((prepare_kept d s).trans (commandMode_kept d _ _)).trans (updateState_kept d writer _).fanOut

theorem fanOut_kept (ds : List Device) (writer : Option Device) (s : State) :
    KeptByFanOut s (s.fanOut ds writer).result := by
  induction ds generalizing s writer with
  | nil => exact .refl s
  | cons d ds ih =>
    exact Flow.andThen_result (R := KeptByFanOut) KeptByFanOut.trans (updateControlPins_kept d writer s) fun t => ih _ t

theorem updateAllPins_kept (s : State) : KeptByFanOut s s.updateAllPins.result := fanOut_kept _ _ s

/-! ### An edge and a run of edges -/

/-- What no edge touches, whatever word it looks up. -/
structure KeptByEdge (s t : State) : Prop where
  params : t.params = s.params
  started : t.clock.started = s.clock.started
  period : t.clock.period = s.clock.period

theorem KeptByEdge.refl (s : State) : KeptByEdge s s := ⟨rfl, rfl, rfl⟩

theorem KeptByEdge.trans {s t u : State} (h : KeptByEdge s t) (k : KeptByEdge t u) : KeptByEdge s u :=
  ⟨k.params.trans h.params, k.started.trans h.started, k.period.trans h.period⟩

/-- The state of the flags and the ALU's last compute. -/
structure KeptFlags (s t : State) : Prop where
  zero : t.zero = s.zero
  carry : t.carry = s.carry
  out : t.alu.out = s.alu.out
  carryIn : t.alu.carryIn = s.alu.carryIn
  carryOut : t.alu.carryOut = s.alu.carryOut

theorem KeptFlags.refl (s : State) : KeptFlags s s := ⟨rfl, rfl, rfl, rfl, rfl⟩

theorem KeptFlags.trans {s t u : State} (h : KeptFlags s t) (k : KeptFlags t u) : KeptFlags s u :=
  ⟨k.zero.trans h.zero, k.carry.trans h.carry, k.out.trans h.out, k.carryIn.trans h.carryIn, k.carryOut.trans h.carryOut⟩

/-- An executed word, whatever it is, keeps the clock's count and output bit and what no edge touches; without EO, the flags. -/
theorem executeWord_kept (lookup : Option MicroWord) (s : State) :
    KeptByEdge s (s.executeWord lookup) ∧ (s.executeWord lookup).clock.output = s.clock.output ∧
      (s.executeWord lookup).clock.edges = s.clock.edges ∧
      ((∀ w ∈ lookup, asserts w .eo = false) → KeptFlags s (s.executeWord lookup)) := by
  unfold State.executeWord
  cases lookup with
  | none => exact ⟨⟨rfl, rfl, rfl⟩, rfl, rfl, fun _ => ⟨rfl, rfl, rfl, rfl, rfl⟩⟩
  | some w =>
    simp only
    split
    · exact ⟨⟨rfl, rfl, rfl⟩, rfl, rfl, fun _ => ⟨rfl, rfl, rfl, rfl, rfl⟩⟩
    · have h := updateAllPins_kept { s with pins := w }
      split
      all_goals
        rename_i u hu
        rw [hu] at h
      · exact ⟨⟨h.params, h.started, h.period⟩, h.output, h.edges, fun e =>
          let ⟨h1, h2, h3, h4, h5⟩ := h.flags (e w rfl)
          ⟨h1, h2, h3, h4, h5⟩⟩
      · split
        all_goals exact ⟨⟨h.params, h.started, h.period⟩, h.output, h.edges, fun e =>
          let ⟨h1, h2, h3, h4, h5⟩ := h.flags (e w rfl)
          ⟨h1, h2, h3, h4, h5⟩⟩

/-- A tick alternates the output bit and counts one, and a tick whose word has no EO keeps the flags. -/
theorem tick_kept (l : State → Option MicroWord) (s : State) :
    KeptByEdge s (s.tick l) ∧ (s.tick l).clock.output = !s.clock.output ∧
      (s.tick l).clock.edges = s.clock.edges + 1 ∧
      ((∀ w ∈ l s, asserts w .eo = false) → KeptFlags s (s.tick l)) := by
  cases ho : s.clock.output
  · obtain ⟨h1, h2, h3, h4⟩ := executeWord_kept (l s) s.countTick
    rw [tick_rising ho]
    exact ⟨⟨h1.params, h1.started, h1.period⟩, by simpa [ho] using h2, h3, fun e =>
      let h := h4 e
      ⟨h.zero, h.carry, h.out, h.carryIn, h.carryOut⟩⟩
  · rw [tick_falling ho]
    exact ⟨⟨rfl, rfl, rfl⟩, rfl, rfl, fun _ => ⟨rfl, rfl, rfl, rfl, rfl⟩⟩

/-- A run of edges keeps what each of its edges keeps. -/
theorem runEdges_kept (l : State → Option MicroWord) (done : State → Bool) (n : Nat) (s : State) :
    KeptByEdge s (s.runEdges l done n) ∧
      ((∀ t, ∀ w ∈ l t, asserts w .eo = false) → KeptFlags s (s.runEdges l done n)) := by
  induction n generalizing s with
  | zero => exact ⟨.refl s, fun _ => .refl s⟩
  | succ n ih =>
    simp only [State.runEdges]
    split
    · obtain ⟨h1, _, _, h4⟩ := tick_kept l s
      obtain ⟨k1, k4⟩ := ih (s.tick l)
      exact ⟨h1.trans k1, fun e => (h4 (e s)).trans (k4 e)⟩
    · exact ⟨.refl s, fun _ => .refl s⟩

end Sys2Proof.Machine
end

