-- ==== Sys2Proof/Laws/PerInstr.lean ====
section
/-! SUPPORT. Laws of an instruction as syntax, one lemma for each constructor of Instr: where the encoder puts its opcode and
its operand (30_encoding.md R70, R71). -/

namespace Sys2Proof.Laws

/-- Under every map the byte of an instruction has the opcode of its mnemonic in bits 7 to 4 and its operand in bits 3 to 0. -/
def EncodeFields.Statement (i : Instr) : Prop :=
  ∀ m : OpcodeMap, (encode m i).high = m.code i.mnemonic ∧ (encode m i).low = i.operand

theorem EncodeFields.lda (n : Nibble) : EncodeFields.Statement (.lda n) := fun m =>
  ⟨Machine.encode_high m (.lda n), Machine.encode_low m (.lda n)⟩

theorem EncodeFields.ldo (n : Nibble) : EncodeFields.Statement (.ldo n) := fun m =>
  ⟨Machine.encode_high m (.ldo n), Machine.encode_low m (.ldo n)⟩

theorem EncodeFields.adda (n : Nibble) : EncodeFields.Statement (.adda n) := fun m =>
  ⟨Machine.encode_high m (.adda n), Machine.encode_low m (.adda n)⟩

theorem EncodeFields.addo (n : Nibble) : EncodeFields.Statement (.addo n) := fun m =>
  ⟨Machine.encode_high m (.addo n), Machine.encode_low m (.addo n)⟩

theorem EncodeFields.suba (n : Nibble) : EncodeFields.Statement (.suba n) := fun m =>
  ⟨Machine.encode_high m (.suba n), Machine.encode_low m (.suba n)⟩

theorem EncodeFields.subo (n : Nibble) : EncodeFields.Statement (.subo n) := fun m =>
  ⟨Machine.encode_high m (.subo n), Machine.encode_low m (.subo n)⟩

theorem EncodeFields.stoa (n : Nibble) : EncodeFields.Statement (.stoa n) := fun m =>
  ⟨Machine.encode_high m (.stoa n), Machine.encode_low m (.stoa n)⟩

theorem EncodeFields.stoo (n : Nibble) : EncodeFields.Statement (.stoo n) := fun m =>
  ⟨Machine.encode_high m (.stoo n), Machine.encode_low m (.stoo n)⟩

theorem EncodeFields.swab (n : Nibble) : EncodeFields.Statement (.swab n) := fun m =>
  ⟨Machine.encode_high m (.swab n), Machine.encode_low m (.swab n)⟩

theorem EncodeFields.swao (n : Nibble) : EncodeFields.Statement (.swao n) := fun m =>
  ⟨Machine.encode_high m (.swao n), Machine.encode_low m (.swao n)⟩

theorem EncodeFields.jmpz (n : Nibble) : EncodeFields.Statement (.jmpz n) := fun m =>
  ⟨Machine.encode_high m (.jmpz n), Machine.encode_low m (.jmpz n)⟩

theorem EncodeFields.jmpc (n : Nibble) : EncodeFields.Statement (.jmpc n) := fun m =>
  ⟨Machine.encode_high m (.jmpc n), Machine.encode_low m (.jmpc n)⟩

theorem EncodeFields.hlt (n : Nibble) : EncodeFields.Statement (.hlt n) := fun m =>
  ⟨Machine.encode_high m (.hlt n), Machine.encode_low m (.hlt n)⟩

end Sys2Proof.Laws
end

