-- ==== Sys2Proof/Laws/Table.lean ====
section
/-! SUPPORT. The microcode table as a whole: which words it holds, the row an instruction's byte looks up, and that every meaning
is the run of that row. -/

namespace Sys2Proof.Machine

/-- Every word of the table, under both settings of SWAP_SEMANTICS. -/
def tableWords : List MicroWord :=
  [word [.co, .mi], word [.ro, .ii, .ce], word [.io, .mi], word [.ro, .ai], word [.ro, .bi], word [.ro, .oi],
    word [.ao, .ri], word [.oo, .ri], word [.bo, .ai], word [.oo, .ai], word [.ao, .bi], word [.ao, .oi], word [.io, .ci],
    word [.eo, .ai], word [.eo, .oi], word [.eo, .su, .ai], word [.eo, .su, .oi], word [.hlt], yieldWord]

theorem microcodeRow_mem (semantics : SwapSemantics) (k : Mnemonic) (v : FlagVariant) :
    ∀ w ∈ microcodeRow semantics k v, w ∈ tableWords := by
  cases semantics <;> cases k <;> cases v <;>
    simp only [microcodeRow, rowLda, rowLdo, rowAdda, rowAddo, rowSuba, rowSubo, rowStoa, rowStoo, rowSwab, rowSwao, rowJmpz,
      rowJmpc, rowHlt, sequence, prefixWords, tableWords, List.cons_append, List.nil_append, List.mem_cons,
      List.not_mem_nil, forall_eq_or_imp, forall_eq, or_true, true_or, or_false, and_true]

/-- Whatever the ControlUnit looks up is a word of the table. -/
theorem tableWord_mem {s : State} {w : MicroWord} (h : s.tableWord? = some w) : w ∈ tableWords := by
  unfold State.tableWord? at h
  split at h
  · rename_i row hrow
    obtain ⟨k, -, rfl⟩ := Option.map_eq_some_iff.1 hrow
    unfold Row.word? at h
    split at h
    · exact microcodeRow_mem _ k _ w (List.mem_of_getElem? h)
    · cases h
  · cases h

theorem microcodeRow_sequenced (semantics : SwapSemantics) (k : Mnemonic) : (microcodeRow semantics k).Sequenced := by
  intro v
  cases semantics <;> cases k <;> cases v <;> exact ⟨_, rfl⟩

/-- Every meaning is the run of its mnemonic's row. -/
theorem exec_eq (i : Instr) (s : State) :
    exec i s = s.runInstruction i (microcodeRow s.params.swap i.mnemonic) := by
  cases i <;> rfl

theorem instr_mnemonic (k : Mnemonic) (n : Nibble) : (k.instr n).mnemonic = k := by cases k <;> rfl

theorem instr_operand (k : Mnemonic) (n : Nibble) : (k.instr n).operand = n := by cases k <;> rfl

/-- A byte that decodes looks up its instruction's row. -/
theorem tableRow_of_decode {p : Params} {b : Byte} {i : Instr} (h : decode p.opcodes b = .ok i) :
    tableRow? p b.high = some (microcodeRow p.swap i.mnemonic) := by
  unfold decode at h
  unfold tableRow?
  split at h
  · rename_i k hk
    cases h
    simp [hk, instr_mnemonic]
  · cases h

/-- A byte that does not decode looks up no row. -/
theorem tableRow_of_reject {p : Params} {b : Byte} {r : Reject} (h : decode p.opcodes b = .error r) :
    tableRow? p b.high = none := by
  unfold decode at h
  unfold tableRow?
  split at h
  · cases h
  · rename_i hk
    simp [hk]

theorem tableWord_of_row {s : State} {row : Row} (h : tableRow? s.params s.currentInstruction.high = some row) :
    s.tableWord? = row.word? s := by
  simp [State.tableWord?, h]

/-- The words of the common prefix, as the ControlUnit looks them up under any byte with an entry. -/
theorem tableWord_prefix {s : State} (hk : (s.params.opcodes.mnemonic? s.currentInstruction.high).isSome = true)
    (he : s.FlagsExclusive) {k : Nat} (hc : s.cursor = k) (h3 : k < 3) : s.tableWord? = prefixWords[k]? := by
  obtain ⟨m, hm⟩ := Option.isSome_iff_exists.1 hk
  obtain ⟨v, hv⟩ := flagVariant_of_exclusive he
  rw [tableWord_of_row (row := microcodeRow s.params.swap m) (by simp [tableRow?, hm]),
    Row.word?_prefix (microcodeRow_sequenced _ _) hv hc h3]

end Sys2Proof.Machine
end

