-- ==== Sys2Proof/Tests/Slice0.lean ====
section
/-! SUPPORT. Tests of the model: ill-formed terms that the checks refuse, words written out from the spec's encodings, the vectors
V1 to V83 of 95_test_vectors.md one step at a time, and for each statement with hypotheses a state that meets them. Every
expected value is the spec's, or is worked out by hand from its rules. -/

namespace Sys2Proof.Tests

open Sys2Proof.Machine

/-! ### Helpers -/

/-- The next state of an outcome; the reset state where there is none. -/
def after (o : Host.Outcome State Fault Refusal) : State :=
  match o with
  | .next s => s
  | _ => State.reset

/-- The outcome is a next state. -/
def hasNext (o : Host.Outcome State Fault Refusal) : Bool :=
  match o with
  | .next _ => true
  | _ => false

theorem eq_next_after {o : Host.Outcome State Fault Refusal} (h : hasNext o = true) : o = .next (after o) := by
  cases o with
  | next s => rfl
  | fault f => cases h
  | refused r => cases h

/-- The outcome is a refusal of this reason. -/
def refuses (o : Host.Outcome State Fault Refusal) (r : Refusal) : Bool :=
  match o with
  | .refused q => decide (q = r)
  | _ => false

/-- The reset state with bytes in memory and the clock started. -/
def started (cells : List (Nat × Byte)) (p : Params := .default) : State :=
  { State.reset with
    mem := Memory.writeEntries [] cells
    clock := { State.reset.clock with started := true }
    params := p }

/-- A started machine with one instruction at address 0. -/
def ready (i : Instr) (p : Params := .default) : State := started [(0, encode p.opcodes i)] p

/-- PAGES = 3: eight cells. -/
def small : Params := { Params.default with pages := 3 }

def transferring : Params := { Params.default with swap := .transfer }

def drivingOperand : Params := { Params.default with irDrive := .operand }

/-- A machine of eight cells about to fetch from address 8, one past the end. -/
def pastEnd : State := { started [] small with pc := 8 }

/-- A map that gives LDA and LDO one opcode. -/
def ambiguousMap : OpcodeMap := { OpcodeMap.default with ldo := 0 }

/-- An injective map that does not assign 0x0. -/
def shiftedMap : OpcodeMap := ⟨1, 2, 3, 4, 5, 6, 7, 8, 9, 10, 11, 12, 13⟩

/-! ### The checks refuse ill-formed terms -/

theorem smoke_injective_refuses_ambiguous_map : ambiguousMap.injective = false := by decide

theorem smoke_instr_refuses_shared_opcode :
    (Instr.lda 3).wellFormed ambiguousMap = false ∧ (Instr.ldo 3).wellFormed ambiguousMap = false ∧
      (Instr.hlt 3).wellFormed ambiguousMap = true := by decide

theorem smoke_params_refuses_five_pages : { Params.default with pages := 5 }.wellFormed = false := by decide

theorem smoke_params_refuses_ambiguous_map : { Params.default with opcodes := ambiguousMap }.wellFormed = false := by decide

theorem smoke_defaults_pass : Params.default.wellFormed = true ∧ { Params.default with opcodes := shiftedMap }.wellFormed = true := by
  decide

theorem smoke_memory_form_refuses : Memory.wf [(3, 1), (2, 1)] = false ∧ Memory.wf [(2, 1), (2, 1)] = false ∧
    Memory.wf [(2, 0)] = false ∧ Memory.wf [(2, 1), (3, 1)] = true := by decide

/-! ### Words written out from the spec's encodings (30_encoding.md R72, opcode_table.json) -/

theorem word_lda : decode .default 0b00001111 = .ok (.lda 15) := rfl
theorem word_ldo : decode .default 0b00011001 = .ok (.ldo 9) := rfl
theorem word_adda : decode .default 0b00101001 = .ok (.adda 9) := rfl
theorem word_addo : decode .default 0b00110000 = .ok (.addo 0) := rfl
theorem word_suba : decode .default 0b01000000 = .ok (.suba 0) := rfl
theorem word_subo : decode .default 0b01010000 = .ok (.subo 0) := rfl
theorem word_stoa : decode .default 0b01101100 = .ok (.stoa 12) := rfl
theorem word_stoo : decode .default 0b01110000 = .ok (.stoo 0) := rfl
theorem word_swab : decode .default 0b10001110 = .ok (.swab 14) := rfl
theorem word_swao : decode .default 0b10011111 = .ok (.swao 15) := rfl
theorem word_jmpz : decode .default 0b10100101 = .ok (.jmpz 5) := rfl
theorem word_jmpc : decode .default 0b10110111 = .ok (.jmpc 7) := rfl
theorem word_hlt : decode .default 0b11001001 = .ok (.hlt 9) := rfl
theorem word_unassigned : decode .default 0b11010111 = .error (.opcodeUnassigned 0xD) := rfl

theorem table_word_is_the_byte : decodeTableWord 8 0x8E = some (.swab 14) ∧ decodeTableWord 8 0xE0 = none := by decide

/-- The hexadecimal words of 30_encoding.md R91 and R92. -/
theorem microcode_words_are_as_listed :
    prefixWords = [0x02800, 0x08600, 0x12000] ∧ yieldWord = 0x20000 ∧
      rowSwab .exchange .neither = [0x02800, 0x08600, 0x12000, 0x00108, 0x00024, 0x00210, 0x20000] ∧
      rowJmpz .zero = [0x02800, 0x08600, 0x12000, 0x11000, 0x20000] := by decide

/-! ### One step each: the vectors of 95_test_vectors.md -/

/-- V23. -/
theorem test_lda_loads : (after (step (started [(0, 0x0F), (15, 0xFF)]))).a = 0xFF := by decide

/-- V21: the instruction's own byte. -/
theorem test_lda_loads_itself : (after (step { started [(3, 0x03)] with pc := 3 })).a = 0x03 := by decide

/-- V20. -/
theorem test_ldo_loads : (after (step (started [(0, 0x19), (9, 0x2A)]))).o = 0x2A := by decide

/-- V32. -/
theorem test_adda_sum_256 :
    let t := after (step { started [(0, 0x29)] with a := 0xFF, b := 0x01 })
    t.a = 0 ∧ t.zero = true ∧ t.carry = false ∧ t.alu.carryOut = true ∧ t.ar = 9 := by decide

/-- V39. -/
theorem test_adda_no_flag :
    let t := after (step { started [(0, 0x20)] with a := 3, b := 2, zero := true })
    t.a = 5 ∧ t.zero = false ∧ t.carry = false := by decide

/-- V31. -/
theorem test_addo_carries :
    let t := after (step { started [(0, 0x30)] with a := 0xC8, b := 0x64 })
    t.o = 0x2C ∧ t.a = 0xC8 ∧ t.zero = false ∧ t.carry = true := by decide

/-- V41. -/
theorem test_suba_borrows :
    let t := after (step { started [(0, 0x40)] with a := 2, b := 3 })
    t.a = 0xFF ∧ t.zero = false ∧ t.carry = false ∧ t.alu.carryIn = true ∧ t.alu.carryOut = false := by decide

/-- V44. -/
theorem test_suba_zero_sets_carry :
    let t := after (step { started [(0, 0x40)] with a := 7 })
    t.a = 7 ∧ t.carry = true := by decide

/-- V42. -/
theorem test_subo_equal :
    let t := after (step { started [(0, 0x50)] with a := 5, b := 5 })
    t.o = 0 ∧ t.a = 5 ∧ t.zero = true ∧ t.carry = false := by decide

/-- V50. -/
theorem test_stoa_stores : (after (step { started [(0, 0x6C)] with a := 5 })).mem = [(0, 0x6C), (12, 5)] := by decide

/-- V51: over its own byte. -/
theorem test_stoo_stores :
    let t := after (step { started [(0, 0x70)] with o := 0xFF })
    t.mem = [(0, 0xFF)] ∧ t.ir = 0x70 := by decide

/-- V60. -/
theorem test_swab_exchanges :
    let t := after (step { started [(0, 0x8E)] with a := 7 })
    t.a = 0 ∧ t.b = 7 ∧ t.mem.read 14 = 7 ∧ t.clock.edges = 14 := by decide

/-- V62. -/
theorem test_swab_transfers :
    let t := after (step { started [(0, 0x8E)] transferring with a := 7, b := 3 })
    t.a = 7 ∧ t.b = 7 ∧ t.mem.read 14 = 0 ∧ t.clock.edges = 10 := by decide

/-- V61. -/
theorem test_swao_exchanges :
    let t := after (step { started [(0, 0x9F)] with a := 1, o := 9 })
    t.a = 9 ∧ t.o = 1 ∧ t.mem.read 15 = 1 ∧ t.clock.edges = 14 := by decide

/-- V63. -/
theorem test_swao_transfers :
    let t := after (step { started [(0, 0x9F)] transferring with a := 1, o := 9 })
    t.a = 1 ∧ t.o = 1 ∧ t.mem = [(0, 0x9F)] := by decide

/-- V70, under both settings of IR_DRIVE_WIDTH. -/
theorem test_jmpz_taken :
    (after (step { started [(1, 0xA6)] with pc := 1, zero := true })).pc = 0xA6 ∧
      (after (step { started [(1, 0xA6)] drivingOperand with pc := 1, zero := true })).pc = 0x06 := by decide

/-- V71. -/
theorem test_jmpz_not_taken :
    let t := after (step { started [(1, 0xA6)] with pc := 1, carry := true })
    t.pc = 2 ∧ t.clock.edges = 8 := by decide

/-- V72. -/
theorem test_jmpc_taken : (after (step { started [(4, 0xB7)] with pc := 4, carry := true })).pc = 0xB7 := by decide

/-- V74. -/
theorem test_jmpc_not_taken : (after (step { started [(4, 0xB7)] with pc := 4, zero := true })).pc = 5 := by decide

/-- V76. -/
theorem test_hlt_halts :
    let t := after (step { started [(1, 0xC9)] with pc := 1 })
    t.ar = 9 ∧ t.cursor = 4 ∧ t.pins = word [.hlt] ∧ t.clock = ⟨true, true, true, 0, 7⟩ ∧ t.faulted = false := by decide

/-- V77: the fetch is from PC[3:0]. -/
theorem test_hlt_after_a_jump : (after (step { started [(6, 0xC0)] with pc := 0xA6 })).pc = 0xA7 := by decide

/-- V80, its second instruction. -/
theorem test_unassigned_opcode :
    let t := after (step { started [(1, 0xD7)] with pc := 1, zero := true })
    t.errors = [.decode 0xD 1 2] ∧ t.cursor = 2 ∧ t.pins = 0 ∧ t.faulted = true ∧ t.clock.edges = 5 := by decide

/-- V81. -/
theorem test_pointer_past_the_end :
    let t := after (step (started [(0, 0x0C), (1, 0xC0)] small))
    t.a = 0x0C ∧ t.errors = [.addressOutOfRange 12] ∧ t.cursor = 3 ∧
      t.modes = { Modes.allFloat with a := .read, memory := .write } ∧ t.bus = 0x0C := by decide

/-- V82. -/
theorem test_five_pages_refused :
    refuses (hostConstruct { Params.default with pages := 5 } .zero) (.hostError (.capacityExceeded 5)) = true := by decide

/-- V83. -/
theorem test_seventeen_bytes_refused :
    refuses (hostLoad (List.replicate 17 0) [] State.reset) (.hostError .programTooLarge) = true := by decide

/-- Tick 3 of V1: CE is absent from the pins, because the PC clears it. -/
theorem test_third_tick_of_v1 :
    let t := after (clockEdges 3 (started [(0, 0x0F), (1, 0xC0), (15, 5)]))
    t.pins = word [.ro, .ii] ∧ t.pc = 1 ∧ t.ir = 0x0F ∧ t.bus = 0x0F ∧ t.cursor = 2 := by decide

/-- V7, two of its rows. -/
theorem test_pc_ripple : incrementPc 0x7F = 0x80 ∧ incrementPc 0xFF = 0x00 := by decide

/-! ### States that meet the hypotheses of the statements, clause by clause -/

theorem witness_DecodeOfEncodeIsTheInstruction :
    (Instr.hlt 15).wellFormed .default = true ∧ (Instr.lda 0).wellFormed shiftedMap = true := by decide

theorem witness_EncodeOfDecodeIsTheByte : decode .default 0xCF = .ok (.hlt 15) ∧ decode shiftedMap 0x10 = .ok (.lda 0) :=
  ⟨rfl, rfl⟩

theorem witness_DecodeRejectsExactlyUnassignedOpcodes :
    OpcodeMap.default.injective = true ∧ decode .default 0xD0 = .error (.opcodeUnassigned 0xD) ∧
      decode shiftedMap 0x00 = .error (.opcodeUnassigned 0) := ⟨by decide, rfl, rfl⟩

theorem witness_LdaLoadsTheCellIntoA :
    ((ready (.lda 15)).ReadyFor (.lda 15) ∧ (ready (.lda 15)).InMemory 15) ∧
      ((ready (.lda 7) small).ReadyFor (.lda 7) ∧ (ready (.lda 7) small).InMemory 7) ∧
      ((ready (.lda 8) small).ReadyFor (.lda 8) ∧ ¬(ready (.lda 8) small).InMemory 8) ∧
      pastEnd.CanBegin ∧ ¬pastEnd.InMemory pastEnd.pc.low := by decide

theorem witness_LdoLoadsTheCellIntoO :
    ((ready (.ldo 15)).ReadyFor (.ldo 15) ∧ (ready (.ldo 15)).InMemory 15) ∧
      ((ready (.ldo 7) small).ReadyFor (.ldo 7) ∧ (ready (.ldo 7) small).InMemory 7) ∧
      ((ready (.ldo 8) small).ReadyFor (.ldo 8) ∧ ¬(ready (.ldo 8) small).InMemory 8) ∧
      pastEnd.CanBegin ∧ ¬pastEnd.InMemory pastEnd.pc.low := by decide

theorem witness_AddaAddsIntoA :
    (ready (.adda 15)).ReadyFor (.adda 15) ∧ pastEnd.CanBegin ∧ ¬pastEnd.InMemory pastEnd.pc.low := by decide

theorem witness_AddoAddsIntoO :
    (ready (.addo 15)).ReadyFor (.addo 15) ∧ pastEnd.CanBegin ∧ ¬pastEnd.InMemory pastEnd.pc.low := by decide

theorem witness_SubaSubtractsIntoA :
    (ready (.suba 15)).ReadyFor (.suba 15) ∧ pastEnd.CanBegin ∧ ¬pastEnd.InMemory pastEnd.pc.low := by decide

theorem witness_SuboSubtractsIntoO :
    (ready (.subo 15)).ReadyFor (.subo 15) ∧ pastEnd.CanBegin ∧ ¬pastEnd.InMemory pastEnd.pc.low := by decide

theorem witness_StoaStoresAIntoTheCell :
    ((ready (.stoa 15)).ReadyFor (.stoa 15) ∧ (ready (.stoa 15)).InMemory 15) ∧
      ((ready (.stoa 7) small).ReadyFor (.stoa 7) ∧ (ready (.stoa 7) small).InMemory 7) ∧
      ((ready (.stoa 8) small).ReadyFor (.stoa 8) ∧ ¬(ready (.stoa 8) small).InMemory 8) ∧
      pastEnd.CanBegin ∧ ¬pastEnd.InMemory pastEnd.pc.low := by decide

theorem witness_StooStoresOIntoTheCell :
    ((ready (.stoo 15)).ReadyFor (.stoo 15) ∧ (ready (.stoo 15)).InMemory 15) ∧
      ((ready (.stoo 7) small).ReadyFor (.stoo 7) ∧ (ready (.stoo 7) small).InMemory 7) ∧
      ((ready (.stoo 8) small).ReadyFor (.stoo 8) ∧ ¬(ready (.stoo 8) small).InMemory 8) ∧
      pastEnd.CanBegin ∧ ¬pastEnd.InMemory pastEnd.pc.low := by decide

theorem witness_SwabSwapsAWithB :
    ((ready (.swab 15)).ReadyFor (.swab 15) ∧ (ready (.swab 15)).params.swap = .exchange ∧ (ready (.swab 15)).mem.wf = true ∧
        (ready (.swab 15)).InMemory 15) ∧
      ((ready (.swab 8) small).ReadyFor (.swab 8) ∧ (ready (.swab 8) small).params.swap = .exchange ∧
        ¬(ready (.swab 8) small).InMemory 8) ∧
      ((ready (.swab 0) transferring).ReadyFor (.swab 0) ∧ (ready (.swab 0) transferring).params.swap = .transfer) ∧
      pastEnd.CanBegin ∧ ¬pastEnd.InMemory pastEnd.pc.low := by decide

theorem witness_SwaoSwapsAWithO :
    ((ready (.swao 15)).ReadyFor (.swao 15) ∧ (ready (.swao 15)).params.swap = .exchange ∧ (ready (.swao 15)).mem.wf = true ∧
        (ready (.swao 15)).InMemory 15) ∧
      ((ready (.swao 8) small).ReadyFor (.swao 8) ∧ (ready (.swao 8) small).params.swap = .exchange ∧
        ¬(ready (.swao 8) small).InMemory 8) ∧
      ((ready (.swao 0) transferring).ReadyFor (.swao 0) ∧ (ready (.swao 0) transferring).params.swap = .transfer) ∧
      pastEnd.CanBegin ∧ ¬pastEnd.InMemory pastEnd.pc.low := by decide

theorem witness_JmpzJumpsIfZero :
    ({ ready (.jmpz 15) with zero := true }.ReadyFor (.jmpz 15) ∧
        { ready (.jmpz 15) with zero := true }.params.irDrive = .full) ∧
      ({ ready (.jmpz 0) drivingOperand with zero := true }.ReadyFor (.jmpz 0) ∧
        { ready (.jmpz 0) drivingOperand with zero := true }.params.irDrive = .operand) ∧
      ((ready (.jmpz 3)).ReadyFor (.jmpz 3) ∧ (ready (.jmpz 3)).zero = false) ∧
      pastEnd.CanBegin ∧ ¬pastEnd.InMemory pastEnd.pc.low := by decide

theorem witness_JmpcJumpsIfCarry :
    ({ ready (.jmpc 15) with carry := true }.ReadyFor (.jmpc 15) ∧
        { ready (.jmpc 15) with carry := true }.params.irDrive = .full) ∧
      ({ ready (.jmpc 0) drivingOperand with carry := true }.ReadyFor (.jmpc 0) ∧
        { ready (.jmpc 0) drivingOperand with carry := true }.params.irDrive = .operand) ∧
      ((ready (.jmpc 3)).ReadyFor (.jmpc 3) ∧ (ready (.jmpc 3)).carry = false) ∧
      pastEnd.CanBegin ∧ ¬pastEnd.InMemory pastEnd.pc.low := by decide

theorem witness_HltStopsTheClockForGood : (ready (.hlt 15)).ReadyFor (.hlt 15) ∧ pastEnd.CanBegin ∧ ¬pastEnd.InMemory pastEnd.pc.low := by decide

theorem witness_StepRunsTheDecodedInstruction :
    (ready (.adda 1)).CanBegin ∧ (ready (.adda 1)).LookupKnown ∧ (ready (.adda 1)).InMemory (ready (.adda 1)).pc.low ∧
      decode (ready (.adda 1)).params.opcodes (ready (.adda 1)).fetchByte = .ok (.adda 1) :=
  ⟨by decide, by decide, by decide, rfl⟩

/-- A machine about to fetch a byte whose opcode has no entry. -/
def aboutToReject : State := started [(0, 0xD7)]

theorem witness_UnassignedOpcodeRaisesDecodeError :
    aboutToReject.CanBegin ∧ aboutToReject.LookupKnown ∧ aboutToReject.InMemory aboutToReject.pc.low ∧
      ∀ k, aboutToReject.params.opcodes.code k ≠ aboutToReject.fetchByte.high :=
  ⟨by decide, by decide, by decide, fun k => by cases k <;> decide⟩

theorem witness_FetchPastTheEndStopsTheCore :
    pastEnd.CanBegin ∧ pastEnd.LookupKnown ∧ ¬pastEnd.InMemory pastEnd.pc.low := by decide

/-- Inside SWAB, between the two edges of its step 4, and after them. -/
def insideSwab (n : Nat) : State := after (clockEdges n (ready (.swab 14)))

theorem witness_StepIsTheEdgesToTheNextBoundary :
    ((ready (.hlt 0)).Inv ∧ (ready (.hlt 0)).clock.running = true) ∧
      ((insideSwab 9).Inv ∧ (insideSwab 9).clock.running = true ∧ (insideSwab 9).clock.output = true) ∧
      ((insideSwab 10).Inv ∧ (insideSwab 10).clock.running = true ∧ (insideSwab 10).cursor = 5) :=
  ⟨⟨by decide, rfl⟩, ⟨by decide, by decide, by decide⟩, by decide, by decide, by decide⟩

theorem witness_StepEndsAtABoundaryOrStops :
    (∃ t, (ready (.adda 0)).Inv ∧ step (ready (.adda 0)) = .next t ∧ t.clock.running = true) ∧
      ∃ t, (ready (.hlt 0)).Inv ∧ step (ready (.hlt 0)) = .next t ∧ t.clock.running = false :=
  ⟨⟨_, by decide, eq_next_after (by decide), by decide⟩, ⟨_, by decide, eq_next_after (by decide), by decide⟩⟩

theorem witness_InstructionsTakeTheListedTicks :
    ((ready (.swab 15)).CanBegin ∧ (ready (.swab 15)).LookupKnown ∧ (ready (.swab 15)).InMemory (ready (.swab 15)).pc.low ∧
        (ready (.swab 15)).mem.wf = true ∧
        decode (ready (.swab 15)).params.opcodes (ready (.swab 15)).fetchByte = .ok (.swab 15) ∧
        (ready (.swab 15)).InMemory 15) ∧
      aboutToReject.mem.wf = true ∧ ∀ k, aboutToReject.params.opcodes.code k ≠ aboutToReject.fetchByte.high :=
  ⟨⟨by decide, by decide, by decide, by decide, rfl, by decide⟩, by decide, fun k => by cases k <;> decide⟩

theorem witness_OnlyTheListedInstructionsWriteEachRegister :
    (ready (.swao 15)).ReadyFor (.swao 15) ∧ (ready (.swao 15)).InMemory 15 ∧
      ∃ t, exec (.swao 15) (ready (.swao 15)) = .next t :=
  ⟨by decide, by decide, _, eq_next_after (by decide)⟩

theorem witness_OnlyTheStoredCellOfMemoryChanges :
    ((ready (.stoa 15)).ReadyFor (.stoa 15) ∧ (ready (.stoa 15)).InMemory 15 ∧ (ready (.stoa 15)).mem.wf = true) ∧
      ((ready (.swab 0) transferring).ReadyFor (.swab 0) ∧ (ready (.swab 0) transferring).InMemory 0 ∧
        (ready (.swab 0) transferring).mem.wf = true) := by decide

theorem witness_FlagsPersistUnlessTheAluComputes :
    (Instr.jmpc 3).mnemonic ∉ [.adda, .addo, .suba, .subo] ∧ ∃ t, exec (.jmpc 3) (ready (.jmpc 3)) = .next t :=
  ⟨by decide, _, eq_next_after (by decide)⟩

/-- A machine about to store `a` and `o` over its next instruction. -/
def storesNext (i : Instr) (v : Byte) : State := { ready i with a := v, o := v }

theorem witness_AStoredByteIsTheNextInstruction :
    ((storesNext (.stoa 1) 0xC3).ReadyFor (.stoa 1) ∧ (storesNext (.stoa 1) 0xC3).mem.wf = true ∧
        (Instr.stoa 1).operand = ((storesNext (.stoa 1) 0xC3).pc + 1).low ∧ (storesNext (.stoa 1) 0xC3).InMemory 1 ∧
        (storesNext (.stoa 1) 0xC3).a = 0xC3 ∧
        decode (storesNext (.stoa 1) 0xC3).params.opcodes 0xC3 = .ok (.hlt 3)) ∧
      ((storesNext (.stoo 1) 0xD0).ReadyFor (.stoo 1) ∧ (storesNext (.stoo 1) 0xD0).o = 0xD0 ∧
        ∀ k, (storesNext (.stoo 1) 0xD0).params.opcodes.code k ≠ Byte.high 0xD0) ∧
      ((storesNext (.swab 1) 0xC3).ReadyFor (.swab 1) ∧ (storesNext (.swab 1) 0xC3).params.swap = .exchange) ∧
      ((storesNext (.swao 1) 0xC3).ReadyFor (.swao 1) ∧ (storesNext (.swao 1) 0xC3).params.swap = .exchange) :=
  ⟨⟨by decide, by decide, by decide, by decide, by decide, rfl⟩, ⟨by decide, by decide, fun k => by cases k <;> decide⟩,
    by decide, by decide⟩

/-- A machine that is the same to a program as `ready (.jmpz 5)`, and differs in everything else. -/
def lookAlike : State :=
  { ready (.jmpz 5) drivingOperand with
    pc := 0xF0
    ar := 3
    pointer := 3
    ir := 0x42
    currentInstruction := 0x42
    bus := 0x99
    alu := ⟨0x77, false, true, true⟩
    clock := ⟨true, false, false, 9, 40⟩ }

theorem witness_WhatAProgramObservesDecidesItsRun :
    ((ready (.jmpz 5)).Inv ∧ lookAlike.Inv) ∧ (ready (.jmpz 5)).params.pages = 4 ∧
      ((ready (.jmpz 5)).CanBegin ∧ lookAlike.CanBegin ∧ (ready (.jmpz 5)).LookupKnown ∧ lookAlike.LookupKnown) ∧
      (ready (.jmpz 5)).SameToProgram lookAlike ∧
      ∃ t, Sys2Proof.core.run 1 (ready (.jmpz 5)) = .next t :=
  ⟨⟨by decide, by decide⟩, rfl, by decide, by decide, _, eq_next_after (by decide)⟩

theorem witness_FallingEdgeOnlyFloats :
    (insideSwab 9).clock.running = true ∧ (insideSwab 9).clock.output = true ∧ (insideSwab 9).modes.a = .read := by decide

theorem witness_EveryEdgeAlternatesAndCounts : ∃ t, clockEdge (ready (.lda 15)) = .next t :=
  ⟨_, eq_next_after (by decide)⟩

theorem witness_HltAndYieldWordsMoveNothing :
    (let s := after (clockEdges 6 (ready (.hlt 9)));
      s.clock.running = true ∧ s.Quiet ∧ s.tableWord? = some 0x40000) ∧
      (let s := after (clockEdges 8 (ready (.adda 9)));
        s.clock.running = true ∧ s.Quiet ∧ s.tableWord? = some 0x20000) := by decide

theorem witness_AClockThatIsNotRunningStandsStill :
    State.reset.clock.running = false ∧ State.reset.stopReason = .clockNeverStarted ∧
      (after (step (ready (.hlt 0)))).clock.running = false ∧ (after (step (ready (.hlt 0)))).stopReason = .clockHalted ∧
      (after (step aboutToReject)).clock.running = false ∧ (after (step aboutToReject)).stopReason = .coreFaulted := by decide

/-- The state before edge `n` of one instruction at address 0. -/
def before (i : Instr) (n : Nat) : State := after (clockEdges n (ready i))

/-- A rising edge of a run, with no fatal error, after which a device is in a mode. -/
abbrev EdgeLeaves (s : State) (d : Device) (x : Mode) : Prop :=
  s.Inv ∧ s.clock.output = false ∧ hasNext (clockEdge s) = true ∧ (after (clockEdge s)).faulted = false ∧
    (after (clockEdge s)).modes.get d = x

theorem witness_ReadersSettleOnTheBusByte_writers :
    EdgeLeaves (before (.suba 0) 6) .alu .write ∧ EdgeLeaves (before (.stoa 15) 6) .a .write ∧
      EdgeLeaves (before (.swab 14) 8) .b .write ∧ EdgeLeaves (before (.stoo 15) 6) .o .write ∧
      EdgeLeaves (before (.lda 15) 6) .memory .write ∧ EdgeLeaves (before (.lda 15) 0) .pc .write ∧
      EdgeLeaves (before (.lda 15) 4) .ir .write :=
  ⟨by decide, by decide, by decide, by decide, by decide, by decide, by decide⟩

/-- A taken JMPZ before its step 3. -/
def beforeJump : State := after (clockEdges 6 { ready (.jmpz 5) with zero := true })

theorem witness_ReadersSettleOnTheBusByte_readers :
    EdgeLeaves (before (.lda 15) 6) .a .read ∧ EdgeLeaves (before (.swab 14) 10) .b .read ∧
      EdgeLeaves (before (.ldo 15) 6) .o .read ∧ EdgeLeaves (before (.stoa 15) 6) .memory .read ∧
      EdgeLeaves beforeJump .pc .read ∧ EdgeLeaves (before (.lda 15) 0) .ar .read ∧
      EdgeLeaves (before (.lda 15) 2) .ir .read :=
  ⟨by decide, by decide, by decide, by decide, by decide, by decide, by decide⟩

theorem witness_ReadersSettleOnTheBusByte :
    ∃ t, (insideSwab 8).Inv ∧ (insideSwab 8).clock.output = false ∧ clockEdge (insideSwab 8) = .next t ∧
      t.faulted = false ∧ t.modes.a = .read ∧ t.modes.b = .write :=
  ⟨_, by decide, by decide, eq_next_after (by decide), by decide, by decide, by decide⟩

theorem witness_OnlyJumpsBranchOnTheFlagVariant : Mnemonic.hlt ≠ .jmpz ∧ Mnemonic.hlt ≠ .jmpc := by decide

/-- Every register listening to the bus, and Memory too. -/
def listening : State := { started [] with modes := ⟨.float, .read, .read, .read, .read, .read, .read, .read⟩, bus := 0xFF }

theorem witness_BusWriteAlignsNotifiesAndRecordsOverflow :
    (listening.modes.alu ≠ .read ∧ ∃ t, listening.busWrite (0x3 : BitVec 4) = .going t) ∧
      (listening.modes.alu ≠ .read ∧ ∃ t, listening.busWrite (0x101 : BitVec 9) = .going t) :=
  ⟨⟨by decide, _, rfl⟩, by decide, _, rfl⟩

theorem witness_TwoWritersAreBusContention :
    (let s := { started [] with pins := word [.ao, .io] };
      Device.ir ≠ .alu ∧ asserts s.pins .ce = false ∧ Device.ir.modeOf s.pins = .write) ∧
      (started []).modes = .allFloat ∧ (started []).alu.subtractMode = false := by decide

/-- One edge before each of the three ends an edge can have. -/
theorem witness_AnEdgeRaisesAtMostOneFatalError :
    (∃ t, (insideSwab 8).Inv ∧ clockEdge (insideSwab 8) = .next t ∧ t.errors = (insideSwab 8).errors) ∧
      (∃ s t : State, s.Inv ∧ clockEdge s = .next t ∧ t.errors = [.addressOutOfRange 8]) ∧
      ∃ s t : State, s.Inv ∧ clockEdge s = .next t ∧ t.errors = [.decode 0xD 0 2] :=
  ⟨⟨_, by decide, eq_next_after (by decide), by decide⟩,
    ⟨after (clockEdges 6 (ready (.lda 8) small)), _, by decide, eq_next_after (by decide), by decide⟩,
    ⟨after (clockEdges 4 aboutToReject), _, by decide, eq_next_after (by decide), by decide⟩⟩

theorem witness_EveryEdgeKeepsTheInvariant :
    (insideSwab 9).Inv ∧ ∃ t, clockEdge (insideSwab 9) = .next t := ⟨by decide, _, eq_next_after (by decide)⟩

theorem witness_EveryStepKeepsTheInvariant :
    (insideSwab 9).Inv ∧ ∃ t, step (insideSwab 9) = .next t := ⟨by decide, _, eq_next_after (by decide)⟩

theorem witness_EveryRunOfMovesKeepsTheInvariant :
    State.reset.Inv ∧ ∃ t, runMoves [.host (.load [0x0F] [(15, 5)]), .host (.start 3), .edge, .host .halt] State.reset = .next t :=
  ⟨by decide, _, eq_next_after (by decide)⟩

theorem witness_EveryConstructionHasTheInvariant :
    (∃ s, hostConstruct small (.arbitrary 1 2 3 [4, 5]) = .next s) ∧ ∃ s, hostConstruct .default .zero = .next s :=
  ⟨⟨_, eq_next_after (by decide)⟩, _, eq_next_after (by decide)⟩

theorem witness_ArbitraryInitHoldsTheDraws :
    0 < small.cells ∧ 7 < small.cells ∧ (State.constructed small (.arbitrary 1 2 3 (List.replicate 9 6))).mem.read 7 = 6 := by
  decide

theorem witness_FirstFetchLooksUpOpcodeZero :
    (Params.default.wellFormed = true ∧ Params.default.opcodes.code .lda = 0) ∧
      { Params.default with opcodes := shiftedMap }.wellFormed = true ∧ ∀ k, shiftedMap.code k ≠ 0 :=
  ⟨by decide, by decide, fun k => by cases k <;> decide⟩

/-- A load that fills memory, with a data entry over its last byte. -/
theorem witness_LoadPlacesProgramThenData :
    State.reset.mem.wf = true ∧ State.reset.clock.started = false ∧
      loadFits State.reset.params.cells (List.replicate 16 255) [(15, 5), (0, 0)] = true ∧
      ([(15, 5), (0, 0)].map Prod.fst : List Nat).Nodup := by decide

theorem witness_LoadsThatDoNotFitOrComeLateAreRefused :
    (started []).clock.started = true ∧ State.reset.clock.started = false ∧
      State.reset.params.cells < (List.replicate 17 0).length ∧
      (∃ e ∈ [(16, 0)], State.reset.params.cells ≤ e.1) ∧ (∃ v ∈ [256], 256 ≤ v) ∧ ∃ e ∈ [(0, 256)], 256 ≤ e.2 := by decide

theorem witness_ConstructionChecksItsParameters :
    4 < { Params.default with pages := 5 }.pages ∧
      (Params.default.pages ≤ 4 ∧ Params.default.opcodes.injective = true) ∧
      ({ Params.default with opcodes := ambiguousMap }.pages ≤ 4 ∧ ambiguousMap.injective = false) := by decide

theorem witness_BootRunsTheByteAtAddressZero :
    loadFits 16 [0x0F, 0xC0] [(15, 5)] = true ∧ 0 ∉ [(15, 5)].map Prod.fst ∧
      decode .default (BitVec.ofNat 8 0x0F) = .ok (.lda 15) := ⟨by decide, by decide, rfl⟩

theorem witness_PlacedByteRunsAsTheFirstInstruction :
    decodeTableWord 8 0x00 = some (.lda 0) ∧ decodeTableWord 8 0xCF = some (.hlt 15) := by decide

/-- A core whose clock was started and then halted inside a rising edge. -/
def haltedCore : State := { State.reset with clock := ⟨true, true, true, 3, 7⟩ }

theorem witness_AHaltedCoreNeverChangesAgain :
    haltedCore.clock.started = true ∧ haltedCore.clock.haltCalled = true ∧
      ∃ t, runMoves [.host (.start 3), .host .snapshot, .host .halt] haltedCore = .next t :=
  ⟨rfl, rfl, _, eq_next_after (by decide)⟩

theorem witness_HostHaltFreezesTheStateInPlace :
    ∃ t, runMoves ([.edge, .edge, .edge] ++ [.host .halt]) (ready (.adda 0)) = .next t ∧ t.modes.ir = .read :=
  ⟨_, eq_next_after (by decide), by decide⟩

theorem witness_SnapshotShowsTheWholeState :
    (insideSwab 9).Inv ∧ (insideSwab 9).params = (insideSwab 9).params ∧ (insideSwab 9).snapshot = (insideSwab 9).snapshot :=
  ⟨by decide, rfl, rfl⟩

end Sys2Proof.Tests
end

section
/-! PROOFS. Construction (60_exceptions.md R202). -/

namespace Sys2Proof.Machine

/-- Settles O53: the branches of `hostConstruct`, one clause each. -/
theorem constructionChecksItsParameters : Obligations.ConstructionChecksItsParameters := by
  intro p init
  unfold hostConstruct adrLen
  refine ⟨fun hp => if_pos hp, fun hp hm => ?_, fun hp hm => ?_⟩
  · rw [if_neg (Nat.not_lt.2 hp), if_pos hm]
  · rw [if_neg (Nat.not_lt.2 hp), hm]
    rfl

end Sys2Proof.Machine
end

section
/-! PROOFS. What an edge does to IR and its published copy, and where it leaves the cursor: a fan-out latches IR only where pin
II is asserted (30_encoding.md R78), and whatever stops a fan-out has halted the clock (60_exceptions.md R206). -/

namespace Sys2Proof.Machine

/-! ### IR and its published copy, over a fan-out -/

/-- Nothing is about to latch into IR: it is not in READ mode, and its `in` pin is not asserted. -/
abbrev State.IrIdle (s : State) : Prop := s.modes.ir ≠ .read ∧ asserts s.pins .ii = false

/-- What every operation of a fan-out keeps of IR: that its byte is published, and, where IR is idle, that byte. -/
structure IrKept (s t : State) : Prop where
  published : s.currentInstruction = s.ir → t.currentInstruction = t.ir
  idle : s.IrIdle → t.IrIdle ∧ t.currentInstruction = s.currentInstruction

theorem IrKept.trans {s t u : State} (h : IrKept s t) (k : IrKept t u) : IrKept s u where
  published := k.published ∘ h.published
  idle hs :=
    have ⟨ht, hc⟩ := h.idle hs
    have ⟨hu, kc⟩ := k.idle ht
    ⟨hu, kc.trans hc⟩

/-- An operation that changes neither copy, nor IR's mode, nor pin II. -/
theorem IrKept.of_eq {s t : State} (hi : t.ir = s.ir) (hc : t.currentInstruction = s.currentInstruction)
    (hm : t.modes.ir = s.modes.ir) (hp : asserts t.pins .ii = asserts s.pins .ii) : IrKept s t :=
  ⟨fun h => by rw [hc, hi, h], fun h => ⟨⟨hm ▸ h.1, hp ▸ h.2⟩, hc⟩⟩

theorem IrKept.refl (s : State) : IrKept s s := .of_eq rfl rfl rfl rfl

/-- A flow from `s` keeps what a fan-out keeps of IR, and has halted the clock if it has stopped. -/
def Flow.Keeps (s : State) : Flow → Prop
  | .going t => IrKept s t
  | .stopped t => t.clock.running = false

theorem Flow.Keeps.after {s t : State} {r : Flow} (k : r.Keeps t) (h : IrKept s t) : r.Keeps s := by
  cases r with
  | going u => exact h.trans k
  | stopped u => exact k

theorem Flow.Keeps.andThen {s : State} {r : Flow} {f : State → Flow} (h : r.Keeps s) (k : ∀ t, (f t).Keeps t) :
    (r.andThen f).Keeps s := by
  cases r with
  | going t => exact (k t).after h
  | stopped t => exact h

/-- A device in READ mode latches; where IR is idle, that device is not IR. -/
theorem latch_keeps {d : Device} {s : State} (hd : s.modes.get d = .read) (v : Byte) : (s.latch d v).Keeps s := by
  cases d <;> simp only [State.latch]
  case memory =>
    split
    · exact .of_eq rfl rfl rfl rfl
    · exact raiseFatal_running _ s
  case ir => exact ⟨fun _ => rfl, fun h => absurd hd h.1⟩
  all_goals exact .of_eq rfl rfl rfl rfl

theorem notify_keeps (ds : List Device) (s : State) : (s.notify ds).Keeps s := by
  induction ds generalizing s with
  | nil => exact .refl s
  | cons d ds ih =>
    simp only [State.notify]
    split
    · next hd => exact (latch_keeps hd s.bus).andThen ih
    · exact ih s

theorem busWrite_keeps {w : Nat} (data : BitVec w) (s : State) : (s.busWrite data).Keeps s := by
  unfold State.busWrite
  split <;> exact (notify_keeps attachOrder _).after (.of_eq rfl rfl rfl rfl)

theorem drive_keeps (d : Device) (s : State) : (s.drive d).Keeps s := by
  cases d <;> simp only [State.drive]
  case memory =>
    split
    · exact busWrite_keeps _ s
    · exact raiseFatal_running _ s
  all_goals exact busWrite_keeps _ s

theorem updateState_keeps (d : Device) (writer : Option Device) (s : State) : (s.updateState d writer).Keeps s := by
  unfold State.updateState
  split
  · next hd => exact latch_keeps hd s.bus
  · split
    · exact drive_keeps d s
    · exact raiseFatal_running _ s
  · exact .refl s

theorem prepare_irKept (d : Device) (s : State) : IrKept s (s.prepare d) := by
  cases d <;> simp only [State.prepare]
  case alu => split <;> exact .of_eq rfl rfl rfl rfl
  case pc =>
    split
    · exact .of_eq rfl rfl rfl (asserts_clearPin_ce _ (by decide))
    · exact .refl s
  all_goals exact .refl s

theorem modeOf_ir_ne_read {w : MicroWord} (h : asserts w .ii = false) : Device.ir.modeOf w ≠ .read := by
  cases hi : asserts w .io <;> simp [Device.modeOf, Device.inPin?, Device.outPin, h, hi]

/-- The mode its pins ask of a device is READ for IR only where II is asserted. -/
theorem commandMode_irKept (d : Device) (s : State) : IrKept s (s.commandMode d (d.modeOf s.pins)) := by
  rcases commandMode_cases d (d.modeOf s.pins) s with ⟨h, -⟩ | h <;> rw [h]
  · exact .of_eq rfl rfl rfl rfl
  · cases d
    case ir => exact ⟨id, fun hs => ⟨⟨modeOf_ir_ne_read hs.2, hs.2⟩, rfl⟩⟩
    all_goals exact .of_eq rfl rfl rfl rfl

theorem updateControlPins_keeps (d : Device) (writer : Option Device) (s : State) :
    (s.updateControlPins d writer).Keeps s :=
  (updateState_keeps d writer _).after ((prepare_irKept d s).trans (commandMode_irKept d _))

theorem fanOut_keeps (ds : List Device) (writer : Option Device) (s : State) : (s.fanOut ds writer).Keeps s := by
  induction ds generalizing s writer with
  | nil => exact .refl s
  | cons d ds ih => exact (updateControlPins_keeps d writer s).andThen fun t => ih _ t

/-! ### A rising edge after which the clock still runs -/

/-- The cursor a word leaves: 0 after the yield word, else the next step (40_cycle.md R116, R120). -/
def nextCursor (w : MicroWord) (cursor : Nat) : Nat := if asserts w .yld then 0 else cursor + 1

theorem executeWord_yield {w : MicroWord} (hy : asserts w .yld = true) (s : State) :
    s.executeWord (some w) = { s with pins := w, cursor := 0 } := by
  simp [State.executeWord, hy]

theorem executeWord_halting {s u : State} {w : MicroWord} (hy : asserts w .yld = false)
    (hu : { s with pins := w }.updateAllPins = .going u) (hh : asserts u.pins .hlt = true) :
    (s.executeWord (some w)).clock.running = false := by
  simp [State.executeWord, hy, hu, hh, Clock.running]

/-- If the clock runs after a word is executed, there was a word, and its fan-out, if any, went through. -/
theorem executeWord_running {lookup : Option MicroWord} {s : State}
    (h : (s.executeWord lookup).clock.running = true) :
    ∃ w, lookup = some w ∧ IrKept { s with pins := w } (s.executeWord lookup) ∧
      (s.executeWord lookup).cursor = nextCursor w s.cursor := by
  cases lookup with
  | none => exact absurd (h.symm.trans (raiseFatal_running _ s)) (by decide)
  | some w =>
    refine ⟨w, rfl, ?_⟩
    cases hy : asserts w .yld with
    | true =>
      rw [executeWord_yield hy, nextCursor, if_pos hy]
      exact ⟨.of_eq rfl rfl rfl rfl, rfl⟩
    | false =>
      have hk : ({ s with pins := w }.updateAllPins).Keeps { s with pins := w } := fanOut_keeps _ _ _
      have hc := (updateAllPins_kept { s with pins := w }).cursor
      cases hu : { s with pins := w }.updateAllPins with
      | stopped u =>
        rw [executeWord_stopped hy hu] at h
        rw [hu] at hk
        exact absurd (h.symm.trans hk) (by decide)
      | going u =>
        rw [hu] at hk hc
        cases hh : asserts u.pins .hlt with
        | true => exact absurd (h.symm.trans (executeWord_halting hy hu hh)) (by decide)
        | false =>
          rw [executeWord_going hy hu hh, nextCursor, hy]
          exact ⟨IrKept.trans hk (.of_eq rfl rfl rfl rfl), congrArg (· + 1) hc⟩

theorem tick_rising_running {l : State → Option MicroWord} {s : State} (ho : s.clock.output = false)
    (h : (s.tick l).clock.running = true) :
    ∃ w, l s = some w ∧ IrKept { s with pins := w } (s.tick l) ∧ (s.tick l).cursor = nextCursor w s.cursor := by
  rw [tick_rising ho] at h ⊢
  obtain ⟨w, hw, hk, hc⟩ := executeWord_running h
  exact ⟨w, hw, ⟨hk.published, hk.idle⟩, hc⟩

/-- A tick reads its lookup in one state only. -/
theorem tick_congr {l l' : State → Option MicroWord} {s : State} (h : l s = l' s) : s.tick l = s.tick l' := by
  simp only [State.tick, h]

end Sys2Proof.Machine
end

section
/-! PROOFS. The words of the table by their place in a row, and the meaning of an instruction once its byte is fetched. -/

namespace Sys2Proof.Machine

/-! ### Words by their place -/

/-- The first three words do not end the row, the words from step 2 on do not fetch, and a seventh word ends it. -/
theorem microcodeRow_places (semantics : SwapSemantics) (k : Mnemonic) (v : FlagVariant) :
    ((microcodeRow semantics k v).take 3).all (fun w => !asserts w .yld) = true ∧
      ((microcodeRow semantics k v).drop 2).all (fun w => !asserts w .ii) = true ∧
      ((microcodeRow semantics k v).drop 6).all (fun w => asserts w .yld) = true := by
  cases semantics <;> cases k <;> cases v <;> exact ⟨rfl, rfl, rfl⟩

theorem mem_drop_of_getElem? {ws : List MicroWord} {w : MicroWord} {n c : Nat} (h : ws[c]? = some w) (hn : n ≤ c) :
    w ∈ ws.drop n :=
  List.mem_of_getElem? (i := c - n) (by rw [List.getElem?_drop, Nat.add_sub_cancel' hn, h])

theorem mem_take_of_getElem? {ws : List MicroWord} {w : MicroWord} {n c : Nat} (h : ws[c]? = some w) (hn : c < n) :
    w ∈ ws.take n :=
  List.mem_of_getElem? (i := c) (by rw [List.getElem?_take_of_lt hn, h])

/-- Whatever the ControlUnit looks up stands in some variant of some row, at the cursor. -/
theorem tableWord_place {s : State} {w : MicroWord} (h : s.tableWord? = some w) :
    ∃ k v, (microcodeRow s.params.swap k v)[s.cursor]? = some w := by
  unfold State.tableWord? at h
  split at h
  · next row hrow =>
    obtain ⟨k, -, rfl⟩ := Option.map_eq_some_iff.1 hrow
    unfold Row.word? at h
    split at h
    · exact ⟨k, _, h⟩
    · cases h
  · cases h

theorem tableWord_fetch_goes_on {s : State} {w : MicroWord} (h : s.tableWord? = some w) (hc : s.cursor < 3) :
    asserts w .yld = false := by
  obtain ⟨k, v, hw⟩ := tableWord_place h
  obtain ⟨hfirst, -, -⟩ := microcodeRow_places s.params.swap k v
  simpa using List.all_eq_true.1 hfirst w (mem_take_of_getElem? hw hc)

theorem tableWord_body_no_ii {s : State} {w : MicroWord} (h : s.tableWord? = some w) (hc : 2 ≤ s.cursor) :
    asserts w .ii = false := by
  obtain ⟨k, v, hw⟩ := tableWord_place h
  obtain ⟨-, hbody, -⟩ := microcodeRow_places s.params.swap k v
  simpa using List.all_eq_true.1 hbody w (mem_drop_of_getElem? hw hc)

theorem tableWord_last_yields {s : State} {w : MicroWord} (h : s.tableWord? = some w) (hc : 6 ≤ s.cursor) :
    asserts w .yld = true := by
  obtain ⟨k, v, hw⟩ := tableWord_place h
  obtain ⟨-, -, hlast⟩ := microcodeRow_places s.params.swap k v
  exact List.all_eq_true.1 hlast w (mem_drop_of_getElem? hw hc)

/-! ### A byte and its instruction -/

theorem code_of_mnemonic {m : OpcodeMap} {op : Nibble} {k : Mnemonic} (h : m.mnemonic? op = some k) : m.code k = op := by
  simpa using List.find?_some h

/-- The byte of the instruction a byte decodes to is that byte (30_encoding.md R74). -/
theorem encode_of_decode {m : OpcodeMap} {b : Byte} {i : Instr} (h : decode m b = .ok i) : encode m i = b := by
  unfold decode at h
  split at h
  · next k hk =>
    cases h
    rw [encode, instr_mnemonic, instr_operand, code_of_mnemonic hk]
    exact BitVec.extractLsb'_append_extractLsb'_eq_extractLsb' rfl |>.trans (BitVec.extractLsb'_eq_self)
  · cases h

/-! ### Once the byte is fetched -/

/-- After a fetch, a meaning is the run of its row over the published byte. -/
theorem runInstruction_of_fetch {i : Instr} {row : Row} {s f : State} (hr : s.clock.running = true)
    (hf : s.runEdges row.word? State.fetchDone fetchFuel = f) (hfr : f.clock.running = true) :
    s.runInstruction i row =
      .next ((f.publish (encode s.params.opcodes i)).runEdges row.word? State.betweenInstructions bodyFuel) := by
  unfold State.runInstruction
  rw [if_pos hr, hf]
  exact if_pos hfr

/-- Publishing the byte that is published changes nothing. -/
theorem publish_self {s : State} {v : Byte} (hi : s.ir = v) (hc : s.currentInstruction = v) : s.publish v = s := by
  cases s
  cases hi
  cases hc
  rfl

/-- What a step does once its fetch is over: the last branches of `step`. -/
def State.finishStep (s : State) : Host.Outcome State Fault Refusal :=
  if s.clock.running then
    match decode s.params.opcodes s.currentInstruction with
    | .ok i => exec i s
    | .error _ => clockEdge s
  else .next s

theorem finishStep_stopped {s : State} (h : s.clock.running = false) : s.finishStep = .next s := by
  simp [State.finishStep, h]

theorem finishStep_ok {s : State} {i : Instr} (h : s.clock.running = true)
    (hd : decode s.params.opcodes s.currentInstruction = .ok i) : s.finishStep = exec i s := by
  simp [State.finishStep, h, hd]

theorem finishStep_error {s : State} {r : Reject} (h : s.clock.running = true)
    (hd : decode s.params.opcodes s.currentInstruction = .error r) : s.finishStep = clockEdge s := by
  simp [State.finishStep, h, hd]

theorem clockEdge_running {s : State} (h : s.clock.running = true) : clockEdge s = .next (s.tick State.tableWord?) :=
  if_pos h

theorem step_yielded {s : State} (h : s.clock.running = true) (hc : s.cursor = 0) (ho : s.clock.output = true) :
    step s = .next (s.tick State.tableWord?) := by
  simp [step, h, hc, ho, clockEdge_running h]

theorem step_fetches {s : State} (h : s.clock.running = true) (hc : s.cursor = 0 → s.clock.output = false) :
    step s = s.fetch.finishStep := by
  have hn : (s.cursor == 0 && s.clock.output) = false := by
    by_cases h0 : s.cursor = 0 <;> simp [h0, hc]
  unfold step
  rw [if_pos h, hn]
  rfl

/-- Settles O21: `step` and the meaning fetch the same byte, one by the ControlUnit's lookup and one by the row's own, and
both run the row from there. -/
theorem stepRunsTheDecodedInstruction : Obligations.StepRunsTheDecodedInstruction := by
  intro s i hb hk hin hd
  obtain ⟨v, hv⟩ := flagVariant_of_exclusive hb.2.2
  have hrow := microcodeRow_sequenced s.params.swap i.mnemonic
  have hT : s.fetch = s.afterFetch :=
    runFetch_eq hb hin (tableWord_prefix hk hb.2.2 hb.2.1.1 (by decide))
      (tableWord_prefix (s := s.afterStep0) hk hb.2.2 (k := 1) rfl (by decide))
  have hR : s.runEdges (microcodeRow s.params.swap i.mnemonic).word? State.fetchDone fetchFuel = s.afterFetch :=
    runFetch_eq hb hin (Row.word?_prefix hrow hv hb.2.1.1 (by decide))
      (Row.word?_prefix (s := s.afterStep0) hrow hv (k := 1) rfl (by decide))
  have hdone : s.afterFetch.fetchDone = true := by
    simpa [State.afterFetch, State.fetchDone] using hb.2.1.2.2.2.2
  have hrun : s.afterFetch.clock.running = true := hb.1
  rw [step_fetches hb.1 fun _ => hb.2.1.2.2.2.2, hT, finishStep_ok hrun hd, exec_eq, exec_eq,
    runInstruction_of_fetch hb.1 hR hrun]
  exact runInstruction_of_fetch hrun (runEdges_done hdone _) hrun

end Sys2Proof.Machine
end

section
/-! PROOFS. The refinement: the edges to the next boundary as a relation without fuel, how far the boundary can be, and the step
from every place in an instruction. -/

namespace Sys2Proof.Machine

/-! ### Reaching the next boundary -/

/-- At most `n` clock edges lead from `s` to the instruction boundary `u`, or to the stop of the clock in `u`. -/
def State.Reaches (n : Nat) (s u : State) : Prop :=
  ∀ m, n ≤ m → s.runEdges State.tableWord? State.betweenInstructions m = u

theorem State.Reaches.mono {n m : Nat} {s u : State} (h : s.Reaches n u) (hnm : n ≤ m) : s.Reaches m u :=
  fun k hk => h k (hnm.trans hk)

theorem reaches_stopped {s : State} (h : s.clock.running = false) (n : Nat) : s.Reaches n s :=
  fun m _ => runEdges_stopped h m

theorem reaches_boundary {s : State} (h : s.betweenInstructions = true) (n : Nat) : s.Reaches n s :=
  fun m _ => runEdges_done h m

/-- Before the boundary, one edge less is left after an edge. -/
theorem reaches_succ_iff {n : Nat} {s u : State} (hr : s.clock.running = true) (hb : s.betweenInstructions = false) :
    s.Reaches (n + 1) u ↔ (s.tick State.tableWord?).Reaches n u where
  mp h m hm := by rw [← runEdges_one hr hb]; exact h (m + 1) (Nat.succ_le_succ hm)
  mpr h m hm := by
    obtain ⟨m, rfl⟩ := Nat.exists_eq_succ_of_ne_zero (Nat.pos_iff_ne_zero.1 (Nat.lt_of_lt_of_le (Nat.succ_pos n) hm))
    rw [Nat.succ_eq_add_one, runEdges_one hr hb]
    exact h m (Nat.le_of_succ_le_succ hm)

theorem toNextBoundary_of_reaches {s u : State} (h : (s.tick State.tableWord?).Reaches 14 u) : s.toNextBoundary = u :=
  h 14 le_rfl

/-! ### One edge of the machine -/

theorem tick_output {l : State → Option MicroWord} (s : State) : (s.tick l).clock.output = !s.clock.output :=
  (tick_kept l s).2.1

theorem betweenInstructions_iff {s : State} :
    s.betweenInstructions = true ↔ s.cursor = 0 ∧ s.clock.output = false := by
  simp [State.betweenInstructions]

theorem betweenInstructions_of_cursor {s : State} (hc : s.cursor ≠ 0) : s.betweenInstructions = false := by
  simp [State.betweenInstructions, hc]

theorem tick_falling_cursor {l : State → Option MicroWord} {s : State} (ho : s.clock.output = true) :
    (s.tick l).cursor = s.cursor := by
  rw [tick_falling ho]

theorem tick_falling_running {l : State → Option MicroWord} {s : State} (ho : s.clock.output = true) :
    (s.tick l).clock.running = s.clock.running := by
  rw [tick_falling ho]
  rfl

/-- A rising edge stops the clock, or yields, or goes on to the next step; a seventh word can only yield. -/
theorem tick_rising_cases {s : State} (ho : s.clock.output = false) :
    (s.tick State.tableWord?).clock.running = false ∨ (s.tick State.tableWord?).cursor = 0 ∨
      (s.cursor < 6 ∧ (s.tick State.tableWord?).cursor = s.cursor + 1) := by
  cases hr : (s.tick State.tableWord?).clock.running with
  | false => exact .inl rfl
  | true =>
    obtain ⟨w, hw, -, hc⟩ := tick_rising_running ho hr
    cases hy : asserts w .yld with
    | true => exact .inr (.inl (by rw [hc, nextCursor, if_pos hy]))
    | false =>
      refine .inr (.inr ⟨?_, by rw [hc, nextCursor, hy]; rfl⟩)
      by_contra hlt
      exact absurd (hy.symm.trans (tableWord_last_yields hw (Nat.le_of_not_lt hlt))) (by decide)

/-- In steps 0 to 2 a rising edge goes on to the next step, if it does not stop the clock. -/
theorem tick_prefix_cursor {s : State} (ho : s.clock.output = false) (hc : s.cursor < 3)
    (hr : (s.tick State.tableWord?).clock.running = true) :
    (s.tick State.tableWord?).cursor = s.cursor + 1 := by
  obtain ⟨w, hw, -, hcur⟩ := tick_rising_running ho hr
  rw [hcur, nextCursor, tableWord_fetch_goes_on hw hc]
  rfl

/-- A rising edge that finds no word stops the clock. -/
theorem tick_miss {s : State} (ho : s.clock.output = false) (hw : s.tableWord? = none) :
    (s.tick State.tableWord?).clock.running = false := by
  rw [tick_rising ho, hw]
  exact raiseFatal_running _ _

/-! ### The boundary is never far -/

theorem reaches_tick {n : Nat} {s : State} (h : ∃ u, (s.tick State.tableWord?).Reaches n u) :
    ∃ u, s.Reaches (n + 1) u := by
  cases hr : s.clock.running with
  | false => exact ⟨s, reaches_stopped hr _⟩
  | true =>
    cases hb : s.betweenInstructions with
    | true => exact ⟨s, reaches_boundary hb _⟩
    | false =>
      obtain ⟨u, hu⟩ := h
      exact ⟨u, (reaches_succ_iff hr hb).2 hu⟩

/-- Before a rising edge whose word has at most `n` words after it in any row, those words and its own take the edges to the
boundary, two each, unless the clock stops before. -/
theorem exists_reaches_of_low (n : Nat) {s : State} (ho : s.clock.output = false) (hn : 6 ≤ s.cursor + n) :
    ∃ u, s.Reaches (2 * n + 2) u := by
  have hhigh : (s.tick State.tableWord?).clock.output = true := by simp [tick_output, ho]
  have hlow : ((s.tick State.tableWord?).tick State.tableWord?).clock.output = false := by simp [tick_output, ho]
  have hcur := tick_falling_cursor (l := State.tableWord?) hhigh
  rcases tick_rising_cases ho with hstop | hyield | ⟨hlt, hnext⟩
  · exact reaches_tick ⟨_, reaches_stopped hstop _⟩
  · have hb := betweenInstructions_iff.2 ⟨hcur.trans hyield, hlow⟩
    exact reaches_tick (reaches_tick ⟨_, reaches_boundary hb _⟩)
  · obtain ⟨m, rfl⟩ := Nat.exists_eq_add_of_lt (show 0 < n by omega)
    exact reaches_tick (reaches_tick
      ((exists_reaches_of_low m hlow (by omega)).imp fun u hu => hu.mono (by omega)))
termination_by n

/-! ### From step 2 on the row looks up what the ControlUnit looks up -/

/-- The state is in the words of `row` that follow its fetch, or at their end. -/
structure State.InBody (row : Row) (s : State) : Prop where
  table : tableRow? s.params s.currentInstruction.high = some row
  cursor : s.cursor ≠ 1
  idle : s.clock.output = false → s.modes.ir ≠ .read

theorem State.InBody.tick {row : Row} {s : State} (h : s.InBody row) (hb : s.betweenInstructions = false)
    (hr : (s.tick State.tableWord?).clock.running = true) : (s.tick State.tableWord?).InBody row := by
  cases ho : s.clock.output with
  | true =>
    rw [tick_falling ho]
    exact ⟨h.table, h.cursor, fun _ => by simp [Modes.allFloat]⟩
  | false =>
    have h2 : 2 ≤ s.cursor := by
      have h0 : s.cursor ≠ 0 := fun h0 => by simp [betweenInstructions_iff.2 ⟨h0, ho⟩] at hb
      have := h.cursor
      omega
    obtain ⟨w, hw, hk, hc⟩ := tick_rising_running ho hr
    obtain ⟨-, hci⟩ := hk.idle ⟨h.idle ho, tableWord_body_no_ii hw h2⟩
    refine ⟨by rw [(tick_kept _ s).1.params, hci]; exact h.table, ?_, fun hl => ?_⟩
    · rw [hc, nextCursor]
      split <;> omega
    · simp [tick_output, ho] at hl

theorem runEdges_row {row : Row} {s : State} (h : s.InBody row) (n : Nat) :
    s.runEdges row.word? State.betweenInstructions n = s.runEdges State.tableWord? State.betweenInstructions n := by
  induction n generalizing s with
  | zero => rfl
  | succ n ih =>
    cases hr : s.clock.running with
    | false => rw [runEdges_stopped hr, runEdges_stopped hr]
    | true =>
      cases hb : s.betweenInstructions with
      | true => rw [runEdges_done hb, runEdges_done hb]
      | false =>
        rw [runEdges_one hr hb, runEdges_one hr hb, ← tick_congr (tableWord_of_row h.table)]
        cases ht : (s.tick State.tableWord?).clock.running with
        | false => rw [runEdges_stopped ht, runEdges_stopped ht]
        | true => exact ih (h.tick hb ht)

/-! ### A step from every place in an instruction -/

/-- What a step needs of a state of a run: IR's byte is published, and IR is not in READ mode before a rising edge. -/
structure State.Stepping (s : State) : Prop where
  published : s.currentInstruction = s.ir
  idle : s.clock.output = false → s.modes.ir ≠ .read

theorem State.Inv.stepping {s : State} (h : s.Inv) : s.Stepping := by
  obtain ⟨-, -, -, -, hpub, -, -, -, hquiet, -⟩ := h
  exact ⟨hpub, fun ho => by rw [(hquiet ho).2.1]; decide⟩

theorem State.Stepping.tick {s : State} (h : s.Stepping) (hr : (s.tick State.tableWord?).clock.running = true) :
    (s.tick State.tableWord?).Stepping := by
  cases ho : s.clock.output with
  | true =>
    rw [tick_falling ho]
    exact ⟨h.published, fun _ => by simp [Modes.allFloat]⟩
  | false =>
    obtain ⟨w, -, hk, -⟩ := tick_rising_running ho hr
    exact ⟨hk.published h.published, fun hl => by simp [tick_output, ho] at hl⟩

/-- A step's fetch, in at most `f` edges, and what follows it end in a state that at most `n` clock edges reach. -/
def State.Completes (f n : Nat) (s : State) : Prop :=
  ∃ u, (∀ m, f ≤ m → (s.runEdges State.tableWord? State.fetchDone m).finishStep = .next u) ∧ s.Reaches n u

theorem State.Completes.mono {f g n m : Nat} {s : State} (h : s.Completes f n) (hf : f ≤ g) (hn : n ≤ m) : s.Completes g m :=
  have ⟨u, hfin, hu⟩ := h
  ⟨u, fun k hk => hfin k (hf.trans hk), hu.mono hn⟩

theorem completes_stopped {s : State} (h : s.clock.running = false) (f n : Nat) : s.Completes f n :=
  ⟨s, fun m _ => by rw [runEdges_stopped h, finishStep_stopped h], reaches_stopped h _⟩

theorem State.Completes.tick {f n : Nat} {s : State} (hr : s.clock.running = true) (hf : s.fetchDone = false)
    (hb : s.betweenInstructions = false) (h : (s.tick State.tableWord?).Completes f n) :
    s.Completes (f + 1) (n + 1) := by
  obtain ⟨u, hfin, hu⟩ := h
  refine ⟨u, fun m hm => ?_, (reaches_succ_iff hr hb).2 hu⟩
  obtain ⟨k, rfl⟩ := Nat.exists_eq_add_of_le' hm
  rw [← Nat.add_assoc, runEdges_one hr hf]
  exact hfin _ (Nat.le_add_left f k)

/-- After the fetch: the decoded instruction's row runs to the boundary, or the next edge raises DecodeError. -/
theorem completes_fetched {s : State} (hs : s.Stepping) (hr : s.clock.running = true) (ho : s.clock.output = false)
    (hc : 2 ≤ s.cursor) : s.Completes 0 10 := by
  have hb : s.betweenInstructions = false := betweenInstructions_of_cursor (by omega)
  have hf : s.fetchDone = true := by simp [State.fetchDone, hc, ho]
  suffices hu : ∃ u, s.finishStep = .next u ∧ s.Reaches 10 u by
    obtain ⟨u, hfin, hu⟩ := hu
    exact ⟨u, fun m _ => by rw [runEdges_done hf, hfin], hu⟩
  cases hd : decode s.params.opcodes s.currentInstruction with
  | error r =>
    have hmiss : s.tableWord? = none := by simp [State.tableWord?, tableRow_of_reject hd]
    exact ⟨s.tick State.tableWord?, by rw [finishStep_error hr hd, clockEdge_running hr],
      (reaches_succ_iff hr hb).2 (reaches_stopped (tick_miss ho hmiss) _)⟩
  | ok i =>
    have henc := encode_of_decode hd
    have hbody : s.InBody (microcodeRow s.params.swap i.mnemonic) := ⟨tableRow_of_decode hd, by omega, hs.idle⟩
    obtain ⟨u, hu⟩ := exists_reaches_of_low 4 ho (by omega)
    refine ⟨u, ?_, hu⟩
    rw [finishStep_ok hr hd, exec_eq, runInstruction_of_fetch hr (runEdges_done hf _) hr,
      publish_self (hs.published.symm.trans henc.symm) henc.symm, runEdges_row hbody]
    exact congrArg _ (hu bodyFuel le_rfl)

theorem completes_high {f n : Nat} {s : State} (hr : s.clock.running = true) (ho : s.clock.output = true)
    (h : (s.tick State.tableWord?).Completes f n) : s.Completes (f + 1) (n + 1) :=
  h.tick hr (fetchDone_high s ho) (betweenInstructions_high s ho)

/-- Before the rising edge of step 1 or of a later step. -/
theorem completes_low {s : State} (hs : s.Stepping) (hr : s.clock.running = true) (ho : s.clock.output = false)
    (hc : s.cursor ≠ 0) : s.Completes 2 12 := by
  by_cases h2 : 2 ≤ s.cursor
  · exact (completes_fetched hs hr ho h2).mono (by decide) (by decide)
  · have hf : s.fetchDone = false := by simp [State.fetchDone, h2]
    refine State.Completes.tick hr hf (betweenInstructions_of_cursor hc) ?_
    cases ht : (s.tick State.tableWord?).clock.running with
    | false => exact completes_stopped ht _ _
    | true =>
      have hhigh : (s.tick State.tableWord?).clock.output = true := by simp [tick_output, ho]
      have hcur := tick_prefix_cursor ho (by omega) ht
      have ht' : ((s.tick State.tableWord?).tick State.tableWord?).clock.running = true :=
        (tick_falling_running hhigh).trans ht
      exact completes_high ht hhigh (completes_fetched ((hs.tick ht).tick ht') ht' (by simp [tick_output, ho])
        (by rw [tick_falling_cursor hhigh]; omega))

/-- At every place inside an instruction. -/
theorem completes_inside {s : State} (hs : s.Stepping) (hr : s.clock.running = true) (hc : s.cursor ≠ 0) :
    s.Completes 3 13 := by
  cases ho : s.clock.output with
  | false => exact (completes_low hs hr ho hc).mono (by decide) (by decide)
  | true =>
    have ht : (s.tick State.tableWord?).clock.running = true := (tick_falling_running ho).trans hr
    exact completes_high hr ho
      (completes_low (hs.tick ht) ht (by simp [tick_output, ho]) (by rwa [tick_falling_cursor ho]))

/-- At a boundary, after the first edge. -/
theorem completes_after_first_edge {s : State} (hs : s.Stepping) (hb : s.betweenInstructions = true) :
    (s.tick State.tableWord?).Completes 3 13 := by
  obtain ⟨hc, ho⟩ := betweenInstructions_iff.1 hb
  cases ht : (s.tick State.tableWord?).clock.running with
  | false => exact completes_stopped ht _ _
  | true =>
    have hcur := tick_prefix_cursor ho (by omega) ht
    exact completes_inside (hs.tick ht) ht (by omega)

theorem step_inside {s : State} (hs : s.Stepping) (hr : s.clock.running = true) (hc : s.cursor ≠ 0) :
    step s = .next s.toNextBoundary := by
  obtain ⟨u, hfin, hu⟩ := completes_inside hs hr hc
  have hu' := (reaches_succ_iff hr (betweenInstructions_of_cursor hc)).1 hu
  rw [step_fetches hr fun h0 => absurd h0 hc, toNextBoundary_of_reaches (hu'.mono (by decide))]
  exact hfin fetchFuel (by decide)

theorem step_at_boundary {s : State} (hs : s.Stepping) (hr : s.clock.running = true)
    (hb : s.betweenInstructions = true) : step s = .next s.toNextBoundary := by
  obtain ⟨u, hfin, hu⟩ := completes_after_first_edge hs hb
  obtain ⟨hc, ho⟩ := betweenInstructions_iff.1 hb
  have hf : s.fetchDone = false := by simp [State.fetchDone, hc]
  rw [step_fetches hr fun _ => ho, toNextBoundary_of_reaches (hu.mono (by decide)), State.fetch, fetchFuel,
    runEdges_one hr hf]
  exact hfin 4 (by decide)

/-- After the yield word's rising edge the step is the falling edge. -/
theorem step_after_yield {s : State} (hr : s.clock.running = true) (hc : s.cursor = 0) (ho : s.clock.output = true) :
    step s = .next s.toNextBoundary := by
  have hb : (s.tick State.tableWord?).betweenInstructions = true :=
    betweenInstructions_iff.2 ⟨(tick_falling_cursor ho).trans hc, by simp [tick_output, ho]⟩
  rw [step_yielded hr hc ho, toNextBoundary_of_reaches (reaches_boundary hb _)]

/-- Settles O24: by where the state stands, at a boundary, after a yield word's rising edge, or inside an instruction. -/
theorem stepIsTheEdgesToTheNextBoundary : Obligations.StepIsTheEdgesToTheNextBoundary := by
  intro s hinv hr
  have hs := State.Inv.stepping hinv
  by_cases hc : s.cursor = 0
  · cases ho : s.clock.output with
    | true => exact step_after_yield hr hc ho
    | false => exact step_at_boundary hs hr (betweenInstructions_iff.2 ⟨hc, ho⟩)
  · exact step_inside hs hr hc

end Sys2Proof.Machine
end

section
/-! PROOFS. The PC's increment (10_state.md R26): toggling bit `i` is adding `2^i` where the bit was 0 and subtracting it where
the bit was 1, so a ripple from bit `i` on adds `2^i`. -/

namespace Sys2Proof.Machine

theorem getLsbD_one_shiftLeft {w i j : Nat} (h : (1#w <<< i).getLsbD j = true) : j = i := by
  simp only [BitVec.getLsbD_shiftLeft, BitVec.getLsbD_one, Bool.and_eq_true, Bool.not_eq_true', decide_eq_true_eq,
    decide_eq_false_iff_not] at h
  omega

/-- Where the bit is clear, toggling it is the addition. -/
theorem xor_bit_of_clear {w : Nat} {b : BitVec w} {i : Nat} (h : b.getLsbD i = false) :
    b ^^^ (1#w <<< i) = b + 1#w <<< i := by
  have hdisjoint (j : Nat) : b.getLsbD j = false ∨ (1#w <<< i).getLsbD j = false := by
    cases hj : (1#w <<< i).getLsbD j with
    | false => exact .inr rfl
    | true => exact .inl (getLsbD_one_shiftLeft hj ▸ h)
  rw [BitVec.add_eq_or_of_and_eq_zero]
  all_goals
    refine BitVec.eq_of_getLsbD_eq fun j _ => ?_
    rcases hdisjoint j with hj | hj <;>
      simp only [BitVec.getLsbD_xor, BitVec.getLsbD_or, BitVec.getLsbD_and, BitVec.getLsbD_zero, hj, Bool.and_false,
        Bool.false_and, Bool.xor_false, Bool.or_false, Bool.false_xor, Bool.false_or]

/-- Where the bit is set, the addition undoes toggling it. -/
theorem xor_bit_of_set {w : Nat} {b : BitVec w} {i : Nat} (h : b.getLsbD i = true) :
    (b ^^^ (1#w <<< i)) + 1#w <<< i = b := by
  have hi : i < w := BitVec.lt_of_getLsbD h
  have hclear : (b ^^^ (1#w <<< i)).getLsbD i = false := by simp [h, hi]
  rw [← xor_bit_of_clear hclear, BitVec.xor_assoc, BitVec.xor_self, BitVec.xor_zero]

theorem one_shiftLeft_succ {w : Nat} (i : Nat) : 1#w <<< (i + 1) = 1#w <<< i + 1#w <<< i := by
  simp only [BitVec.shiftLeft_eq_mul_twoPow, BitVec.one_mul]
  refine BitVec.eq_of_toNat_eq ?_
  simp [BitVec.toNat_twoPow, Nat.pow_succ, Nat.mul_two]

/-- The ripple from bit `8 - left` on. -/
theorem toggleFrom_eq (left : Nat) (b : Byte) (hl : left ≤ 8) : toggleFrom b left = b + 1#8 <<< (8 - left) := by
  induction left generalizing b with
  | zero => simp [toggleFrom]
  | succ left ih =>
    have hi : 8 - (left + 1) = 7 - left := by omega
    have hnext : 8 - left = 7 - left + 1 := by omega
    have hbit : (b ^^^ (1#8 <<< (7 - left))).getLsbD (7 - left) = !b.getLsbD (7 - left) := by
      simp [show 7 - left < 8 by omega]
    simp only [toggleFrom, hi, hbit]
    cases hb : b.getLsbD (7 - left) with
    | false => exact xor_bit_of_clear hb
    | true =>
      calc toggleFrom (b ^^^ (1#8 <<< (7 - left))) left
        _ = (b ^^^ (1#8 <<< (7 - left))) + (1#8 <<< (7 - left) + 1#8 <<< (7 - left)) := by
            rw [ih _ (by omega), hnext, one_shiftLeft_succ]
        _ = b + 1#8 <<< (7 - left) := by rw [← BitVec.add_assoc, xor_bit_of_set hb]

theorem incrementPc_eq (b : Byte) : incrementPc b = b + 1 := toggleFrom_eq 8 b le_rfl

theorem incrementPc_iterate (n : Nat) (b : Byte) : incrementPc^[n] b = b + BitVec.ofNat 8 n := by
  induction n generalizing b with
  | zero => simp
  | succ n ih =>
    rw [Function.iterate_succ_apply, ih, incrementPc_eq, BitVec.ofNat_add, BitVec.add_assoc]
    exact congrArg (b + ·) (BitVec.add_comm _ _)

theorem low_toNat (b : Byte) : b.low.toNat = b.toNat % 16 := by simp [Byte.low]

/-- Settles O7: the ripple adds 1, and 256 additions of 1 add 256. -/
theorem pcRippleIsIncrementModulo256 : Obligations.PcRippleIsIncrementModulo256 := by
  have hinc (b : Byte) : (incrementPc b).toNat = (b.toNat + 1) % 256 := by simp [incrementPc_eq]
  refine ⟨hinc, fun b => ?_, fun b => ?_, rfl, rfl⟩
  · rw [incrementPc_iterate]
    exact BitVec.add_zero b
  · rw [low_toNat, low_toNat, hinc]
    omega

end Sys2Proof.Machine
end

section
/-! PROOFS. What holds of every edge and every meaning, from any state at all. -/

namespace Sys2Proof.Machine

theorem clockEdge_next {s t : State} (h : clockEdge s = .next t) :
    s.clock.running = true ∧ t = s.tick State.tableWord? := by
  unfold clockEdge at h
  split at h
  · next hr =>
    cases h
    exact ⟨hr, rfl⟩
  · cases h

/-- Settles O33: an edge is a tick of a running clock. -/
theorem everyEdgeAlternatesAndCounts : Obligations.EveryEdgeAlternatesAndCounts := by
  intro s t h
  obtain ⟨hr, rfl⟩ := clockEdge_next h
  obtain ⟨hkept, hout, hedges, -⟩ := tick_kept State.tableWord? s
  exact ⟨hr, hout, hedges, hkept.period, hkept.started, hkept.params⟩

/-- The mnemonics whose rows have a word with EO (30_encoding.md R92). -/
def aluMnemonics : List Mnemonic := [.adda, .addo, .suba, .subo]

theorem microcodeRow_no_eo {k : Mnemonic} (hk : k ∉ aluMnemonics) (semantics : SwapSemantics) (v : FlagVariant) :
    (microcodeRow semantics k v).all (fun w => !asserts w .eo) = true := by
  cases k
  case adda | addo | suba | subo => exact absurd (by decide) hk
  all_goals cases semantics <;> cases v <;> rfl

theorem Row.word?_mem {row : Row} {s : State} {w : MicroWord} (h : row.word? s = some w) : ∃ v, w ∈ row v := by
  unfold Row.word? at h
  split at h
  · exact ⟨_, List.mem_of_getElem? h⟩
  · cases h

/-- What a meaning that has a next state went through: a fetch and, unless that stopped, a run of the row. -/
theorem runInstruction_next {i : Instr} {row : Row} {s t : State} (h : s.runInstruction i row = .next t) :
    t = s.runEdges row.word? State.fetchDone fetchFuel ∨
      t = ((s.runEdges row.word? State.fetchDone fetchFuel).publish (encode s.params.opcodes i)).runEdges row.word?
        State.betweenInstructions bodyFuel := by
  unfold State.runInstruction at h
  split at h
  · dsimp only at h
    split at h
    · cases h; exact .inr rfl
    · cases h; exact .inl rfl
  · cases h

/-- Settles O29: a row without EO keeps the flags and the ALU's last compute at every edge. -/
theorem flagsPersistUnlessTheAluComputes : Obligations.FlagsPersistUnlessTheAluComputes := by
  intro i s t hi h
  rw [exec_eq] at h
  have hword : ∀ u, ∀ w ∈ (microcodeRow s.params.swap i.mnemonic).word? u, asserts w .eo = false := fun u w hw => by
    obtain ⟨v, hmem⟩ := Row.word?_mem hw
    simpa using List.all_eq_true.1 (microcodeRow_no_eo hi s.params.swap v) w hmem
  have hrun (done : State → Bool) (n : Nat) (u : State) := (runEdges_kept _ done n u).2 hword
  have hfetch := hrun State.fetchDone fetchFuel s
  obtain ⟨hz, hc, ho, hin, hout⟩ : KeptFlags s t := by
    rcases runInstruction_next h with rfl | rfl
    · exact hfetch
    · have hpublish (v : Byte) (u : State) : KeptFlags u (u.publish v) := ⟨rfl, rfl, rfl, rfl, rfl⟩
      exact (hfetch.trans (hpublish _ _)).trans (hrun _ _ _)
  exact ⟨hz, hc, ho, hin, hout⟩

end Sys2Proof.Machine
end

section
/-! PROOFS. The registers' part of the invariant: what every operation of a fan-out keeps, from any state and on any pins. -/

namespace Sys2Proof.Machine

/-- The clauses of `State.Inv` that every operation keeps by itself: memory, the published copies, the flags, the ALU's mode
and the halt of a fatal error. -/
structure State.Sound (s : State) : Prop where
  canonical : s.mem.wf = true
  within : s.mem.within s.params.cells = true
  pointer : s.pointer = s.ar
  published : s.currentInstruction = s.ir
  flags : s.FlagsExclusive
  alu : s.modes.alu ≠ .read
  halted : s.faulted = true → s.clock.haltCalled = true

/-- A relation from a state to the next, so that `Flow.andThen_result` chains it. -/
def KeepsSound (s t : State) : Prop := s.Sound → t.Sound

theorem KeepsSound.trans {s t u : State} (h : KeepsSound s t) (k : KeepsSound t u) : KeepsSound s u := k ∘ h

/-! ### Each operation -/

theorem raiseFatal_sound (e : CoreError) (s : State) : KeepsSound s (s.raiseFatal e) := fun h =>
  ⟨h.canonical, h.within, h.pointer, h.published, h.flags, h.alu, fun _ => rfl⟩

theorem latch_sound (d : Device) (v : Byte) (s : State) : KeepsSound s (s.latch d v).result := by
  intro h
  cases d <;> simp only [State.latch]
  case memory =>
    split
    · next hr =>
      exact ⟨Memory.wf_write h.canonical _ _, Memory.within_write h.within (of_decide_eq_true hr), h.pointer, h.published,
        h.flags, h.alu, h.halted⟩
    · exact raiseFatal_sound _ s h
  case ar => exact ⟨h.canonical, h.within, rfl, h.published, h.flags, h.alu, h.halted⟩
  case ir => exact ⟨h.canonical, h.within, h.pointer, rfl, h.flags, h.alu, h.halted⟩
  all_goals exact ⟨h.canonical, h.within, h.pointer, h.published, h.flags, h.alu, h.halted⟩

theorem notify_sound (ds : List Device) (s : State) : KeepsSound s (s.notify ds).result := by
  induction ds generalizing s with
  | nil => exact id
  | cons d ds ih =>
    simp only [State.notify]
    split
    · exact Flow.andThen_result (R := KeepsSound) KeepsSound.trans (latch_sound d s.bus s) ih
    · exact ih s

theorem busWrite_sound {w : Nat} (data : BitVec w) (s : State) : KeepsSound s (s.busWrite data).result := by
  intro h
  unfold State.busWrite
  split <;>
    exact notify_sound _ _ ⟨h.canonical, h.within, h.pointer, h.published, h.flags, h.alu, h.halted⟩

theorem drive_sound (d : Device) (s : State) : KeepsSound s (s.drive d).result := by
  cases d <;> simp only [State.drive]
  case memory =>
    split
    · exact busWrite_sound _ s
    · exact raiseFatal_sound _ s
  all_goals exact busWrite_sound _ s

theorem updateState_sound (d : Device) (writer : Option Device) (s : State) :
    KeepsSound s (s.updateState d writer).result := by
  unfold State.updateState
  split
  · exact latch_sound d s.bus s
  · split
    · exact drive_sound d s
    · exact raiseFatal_sound _ s
  · exact id

/-- A compute never sets both flags (42_alu_arith.md R152). -/
theorem aluCompute_exclusive (a b : Byte) (subtract : Bool) :
    ¬((aluCompute a b subtract).zero = true ∧ (aluCompute a b subtract).carry = true) := by
  rintro ⟨hz, hc⟩
  simp only [aluCompute] at hz hc
  simp [carryFlag, hz] at hc

theorem computeOutput_sound (s : State) : KeepsSound s s.computeOutput := fun h =>
  ⟨h.canonical, h.within, h.pointer, h.published, aluCompute_exclusive _ _ _, h.alu, h.halted⟩

theorem prepare_sound (d : Device) (s : State) : KeepsSound s (s.prepare d) := by
  intro h
  cases d <;> simp only [State.prepare]
  case alu =>
    have hsu (x : Bool) : State.Sound { s with alu := { s.alu with subtractMode := x } } :=
      ⟨h.canonical, h.within, h.pointer, h.published, h.flags, h.alu, h.halted⟩
    split
    · exact computeOutput_sound _ (hsu _)
    · exact hsu _
  case pc =>
    split
    · exact ⟨h.canonical, h.within, h.pointer, h.published, h.flags, h.alu, h.halted⟩
    · exact h
  all_goals exact h

/-- The ALU has no `in` pin, so no pins ask it to READ. -/
theorem modeOf_alu_ne_read (w : MicroWord) : Device.alu.modeOf w ≠ .read := by
  cases h : asserts w Device.alu.outPin <;> simp [Device.modeOf, Device.inPin?, h]

theorem commandMode_sound (d : Device) (s : State) : KeepsSound s (s.commandMode d (d.modeOf s.pins)) := by
  intro h
  rcases commandMode_cases d (d.modeOf s.pins) s with ⟨heq, -⟩ | heq <;> rw [heq]
  · exact ⟨h.canonical, h.within, h.pointer, h.published, h.flags, h.alu, h.halted⟩
  · refine ⟨h.canonical, h.within, h.pointer, h.published, h.flags, ?_, h.halted⟩
    cases d
    case alu => exact modeOf_alu_ne_read _
    all_goals exact h.alu

theorem updateControlPins_sound (d : Device) (writer : Option Device) (s : State) :
    KeepsSound s (s.updateControlPins d writer).result :=
  ((prepare_sound d s).trans (commandMode_sound d _)).trans (updateState_sound d writer _)

theorem fanOut_sound (ds : List Device) (writer : Option Device) (s : State) :
    KeepsSound s (s.fanOut ds writer).result := by
  induction ds generalizing s writer with
  | nil => exact id
  | cons d ds ih =>
    exact Flow.andThen_result (R := KeepsSound) KeepsSound.trans (updateControlPins_sound d writer s) fun t => ih _ t

/-! ### The devices in WRITE mode -/

/-- A device in WRITE mode was in it before, or its `out` pin is asserted. -/
structure WritersAsserted (s t : State) : Prop where
  kept : KeptByFanOut s t
  writers : ∀ d, t.modes.get d = .write → s.modes.get d = .write ∨ asserts s.pins d.outPin = true

theorem asserts_outPin_of_pins {w v : MicroWord} (h : v = w ∨ v = clearPin w .ce) (d : Device) :
    asserts v d.outPin = asserts w d.outPin := by
  rcases h with rfl | rfl
  · rfl
  · exact asserts_clearPin_ce w (by cases d <;> decide)

theorem WritersAsserted.trans {s t u : State} (h : WritersAsserted s t) (k : WritersAsserted t u) : WritersAsserted s u where
  kept := h.kept.trans k.kept
  writers d hd := by
    rcases k.writers d hd with ht | ht
    · exact h.writers d ht
    · exact .inr (asserts_outPin_of_pins h.kept.pins d ▸ ht)

theorem modeOf_write {d : Device} {w : MicroWord} (h : d.modeOf w = .write) : asserts w d.outPin = true := by
  by_contra hout
  unfold Device.modeOf at h
  rw [if_neg hout] at h
  split_ifs at h

theorem prepare_modes (d : Device) (s : State) : (s.prepare d).modes = s.modes := by
  cases d <;> simp only [State.prepare]
  case alu | pc => split <;> rfl

theorem updateControlPins_writers (d : Device) (writer : Option Device) (s : State) :
    WritersAsserted s (s.updateControlPins d writer).result := by
  refine ⟨updateControlPins_kept d writer s, fun e he => ?_⟩
  rw [State.updateControlPins, (updateState_kept d writer _).modes] at he
  rcases commandMode_cases d (d.modeOf (s.prepare d).pins) (s.prepare d) with ⟨heq, -⟩ | heq <;> rw [heq] at he
  · exact .inl (prepare_modes d s ▸ he)
  · by_cases hed : e = d
    · subst hed
      simp only [Modes.get_set_same] at he
      exact .inr (asserts_outPin_of_pins (prepare_kept e s).pins e ▸ modeOf_write he)
    · simp only [Modes.get_set_other _ hed, prepare_modes] at he
      exact .inl he

theorem fanOut_writers (ds : List Device) (writer : Option Device) (s : State) :
    WritersAsserted s (s.fanOut ds writer).result := by
  induction ds generalizing s writer with
  | nil => exact ⟨.refl s, fun _ => .inl⟩
  | cons d ds ih =>
    exact Flow.andThen_result (R := WritersAsserted) WritersAsserted.trans (updateControlPins_writers d writer s)
      fun t => ih _ t

/-- A word of the table has at most one `out` pin (30_encoding.md R95). -/
theorem tableWords_one_out : tableWords.all (fun w => (fanOutOrder.filter fun d => asserts w d.outPin).length ≤ 1) = true := by
  decide

/-- The fan-out of a word of the table over devices that all float leaves at most one of them in WRITE mode. -/
theorem fanOut_singleWriter {s : State} {w : MicroWord} (hw : w ∈ tableWords) (hp : s.pins = w) (hm : s.modes = .allFloat) :
    s.updateAllPins.result.modes.singleWriter = true := by
  have hwriters (d : Device) (hd : s.updateAllPins.result.modes.get d = .write) : asserts w d.outPin = true := by
    rcases (fanOut_writers fanOutOrder none s).writers d hd with h | h
    · rw [hm, Modes.get_allFloat] at h
      cases h
    · exact hp ▸ h
  have hone := of_decide_eq_true (List.all_eq_true.1 tableWords_one_out w hw)
  refine decide_eq_true (le_trans (List.Sublist.length_le (List.monotone_filter_right _ fun d hd => ?_)) hone)
  exact hwriters d (eq_of_beq hd)

end Sys2Proof.Machine
end

section
/-! PROOFS. The invariant along an edge: where the fan-out of a table word can stop, where the cursor stands after it, and the
rising edge whole. -/

namespace Sys2Proof.Machine

/-! ### Where the fan-out of a table word stops -/

/-- From `s` the fan-out of word `w` goes through, or Memory's AddressOutOfRange stops it before IR has acted; the ALU computes
in no word that can be stopped. -/
def FanOutEnds (s : State) (w : MicroWord) : Prop :=
  s.pins = w →
    (∃ u, s.updateAllPins = .going u) ∨
    (s.pointerInRange = false ∧ asserts w .eo = false ∧
      ∃ u : State, s.updateAllPins = .stopped (u.raiseFatal (.addressOutOfRange s.pointer)) ∧
        u.currentInstruction = s.currentInstruction)

/-- A word in which Memory acts, by whether the pointer is in range. -/
theorem fanOutEnds_of_memory {s g u : State} {w : MicroWord} (heo : asserts w .eo = false)
    (hci : u.currentInstruction = s.currentInstruction)
    (hin : s.pins = w → s.pointerInRange = true → s.updateAllPins = .going g)
    (hout : s.pins = w → s.pointerInRange = false →
      s.updateAllPins = .stopped (u.raiseFatal (.addressOutOfRange s.pointer))) : FanOutEnds s w := by
  intro hp
  cases hr : s.pointerInRange with
  | true => exact .inl ⟨g, hin hp hr⟩
  | false => exact .inr ⟨rfl, heo, u, hout hp hr, hci⟩

theorem tableWords_fanOutEnds {s : State} (hm : s.modes = .allFloat) : ∀ w ∈ tableWords, FanOutEnds s w := by
  simp only [tableWords, List.forall_mem_cons, List.not_mem_nil, false_implies, implies_true, and_true]
  refine ⟨?_, ?_, ?_, ?_, ?_, ?_, ?_, ?_, ?_, ?_, ?_, ?_, ?_, ?_, ?_, ?_, ?_, ?_, ?_⟩
  · exact fun hp => .inl ⟨_, fanOut_co_mi asks_co_mi hm hp⟩
  · exact fanOutEnds_of_memory rfl (by rfl) (fanOut_ro_ii_ce asks_ro_ii_ce asks_ro_ii hm)
      (fanOut_ro_ii_ce_outOfRange asks_ro_ii_ce hm)
  · exact fun hp => .inl ⟨_, fanOut_io_mi asks_io_mi hm hp⟩
  · exact fanOutEnds_of_memory rfl (by rfl) (fanOut_ro_ai asks_ro_ai hm) (fanOut_ro_ai_outOfRange asks_ro_ai hm)
  · exact fanOutEnds_of_memory rfl (by rfl) (fanOut_ro_bi asks_ro_bi hm) (fanOut_ro_bi_outOfRange asks_ro_bi hm)
  · exact fanOutEnds_of_memory rfl (by rfl) (fanOut_ro_oi asks_ro_oi hm) (fanOut_ro_oi_outOfRange asks_ro_oi hm)
  · exact fanOutEnds_of_memory rfl (by rfl) (fanOut_ao_ri asks_ao_ri hm) (fanOut_ao_ri_outOfRange asks_ao_ri hm)
  · exact fanOutEnds_of_memory rfl (by rfl) (fanOut_oo_ri asks_oo_ri hm) (fanOut_oo_ri_outOfRange asks_oo_ri hm)
  · exact fun hp => .inl ⟨_, fanOut_bo_ai asks_bo_ai hm hp⟩
  · exact fun hp => .inl ⟨_, fanOut_oo_ai asks_oo_ai hm hp⟩
  · exact fun hp => .inl ⟨_, fanOut_ao_bi asks_ao_bi hm hp⟩
  · exact fun hp => .inl ⟨_, fanOut_ao_oi asks_ao_oi hm hp⟩
  · exact fun hp => .inl ⟨_, fanOut_io_ci asks_io_ci hm hp⟩
  · exact fun hp => .inl ⟨_, fanOut_eo_ai asks_eo_ai hm hp⟩
  · exact fun hp => .inl ⟨_, fanOut_eo_oi asks_eo_oi hm hp⟩
  · exact fun hp => .inl ⟨_, fanOut_eo_su_ai asks_eo_su_ai hm hp⟩
  · exact fun hp => .inl ⟨_, fanOut_eo_su_oi asks_eo_su_oi hm hp⟩
  · exact fun hp => .inl ⟨_, fanOut_nothing ⟨by intro d; cases d <;> rfl, rfl, rfl, rfl⟩ hp⟩
  · exact fun hp => .inl ⟨_, fanOut_nothing ⟨by intro d; cases d <;> rfl, rfl, rfl, rfl⟩ hp⟩

/-! ### Where the cursor stands -/

theorem microcodeRow_length (semantics : SwapSemantics) (k : Mnemonic) (v : FlagVariant) :
    4 ≤ (microcodeRow semantics k v).length := by
  obtain ⟨body, h⟩ := microcodeRow_sequenced semantics k v
  simp [h, sequence, prefixWords]

/-- A word that does not yield is not the last of its row (30_encoding.md R90). -/
theorem cursor_succ_lt {semantics : SwapSemantics} {k : Mnemonic} {v : FlagVariant} {c : Nat} {w : MicroWord}
    (h : (microcodeRow semantics k v)[c]? = some w) (hy : asserts w .yld = false) :
    c + 1 < (microcodeRow semantics k v).length := by
  obtain ⟨body, hb⟩ := microcodeRow_sequenced semantics k v
  obtain ⟨hlt, -⟩ := List.getElem?_eq_some_iff.1 h
  by_contra hge
  have hlast : c = (prefixWords ++ body).length := by
    rw [hb, sequence, List.length_append] at hlt hge
    simp only [List.length_singleton] at hlt hge
    omega
  rw [hb, sequence, List.getElem?_append_right hlast.ge, hlast, Nat.sub_self] at h
  cases h
  cases hy

/-- A row in which the ALU computes is as long in every variant, so that the new flags leave the cursor inside it. -/
theorem microcodeRow_eo_length {semantics : SwapSemantics} {k : Mnemonic} {v : FlagVariant} {w : MicroWord}
    (h : w ∈ microcodeRow semantics k v) (he : asserts w .eo = true) (v' : FlagVariant) :
    (microcodeRow semantics k v').length = (microcodeRow semantics k v).length := by
  by_cases hk : k ∈ aluMnemonics
  · cases k
    case adda | addo | suba | subo => rfl
    all_goals exact absurd hk (by decide)
  · have := List.all_eq_true.1 (microcodeRow_no_eo hk semantics v) w h
    simp [he] at this

/-- IR latches in step 1 only (30_encoding.md R91). -/
theorem microcodeRow_ii {semantics : SwapSemantics} {k : Mnemonic} {v : FlagVariant} {c : Nat} {w : MicroWord}
    (h : (microcodeRow semantics k v)[c]? = some w) (hi : asserts w .ii = true) : c = 1 := by
  have h2 : c < 2 := by
    by_contra hge
    obtain ⟨-, hbody, -⟩ := microcodeRow_places semantics k v
    have := List.all_eq_true.1 hbody w (mem_drop_of_getElem? h (Nat.le_of_not_lt hge))
    simp [hi] at this
  have h0 : c ≠ 0 := by
    rintro rfl
    obtain ⟨body, hb⟩ := microcodeRow_sequenced semantics k v
    rw [hb] at h
    cases h
    cases hi
  omega

/-- The cursor is inside the sequence of its opcode, in whatever variant the flags choose. -/
theorem cursorInSequence_of_row {s : State} {k : Mnemonic} {v : FlagVariant}
    (hrow : tableRow? s.params s.currentInstruction.high = some (microcodeRow s.params.swap k))
    (hv : flagVariant? s.zero s.carry = some v) (hc : s.cursor < (microcodeRow s.params.swap k v).length) :
    s.cursorInSequence = true := by
  simp [State.cursorInSequence, hrow, hv, hc]

theorem cursorInSequence_congr {s t : State} (hp : t.params = s.params) (hi : t.currentInstruction = s.currentInstruction)
    (hz : t.zero = s.zero) (hc : t.carry = s.carry) (hcur : t.cursor = s.cursor) :
    t.cursorInSequence = s.cursorInSequence := by
  simp only [State.cursorInSequence, hp, hi, hz, hc, hcur]

/-- In steps 0 and 2 the cursor is inside the sequence of every opcode, and where the lookup of one with no entry misses
(10_state.md R34, R45). -/
theorem cursorInSequence_of_start {s : State} (hf : s.FlagsExclusive) (hc : s.cursor = 0 ∨ s.cursor = 2) :
    s.cursorInSequence = true := by
  cases hk : s.params.opcodes.mnemonic? s.currentInstruction.high with
  | none => simpa [State.cursorInSequence, tableRow?, hk] using hc
  | some k =>
    obtain ⟨v, hv⟩ := flagVariant_of_exclusive hf
    have := microcodeRow_length s.params.swap k v
    exact cursorInSequence_of_row (k := k) (by simp [tableRow?, hk]) hv (by omega)

/-- The row, the variant and the place of the word the ControlUnit looks up. -/
theorem tableWord_row {s : State} {w : MicroWord} (h : s.tableWord? = some w) :
    ∃ k v, tableRow? s.params s.currentInstruction.high = some (microcodeRow s.params.swap k) ∧
      flagVariant? s.zero s.carry = some v ∧ (microcodeRow s.params.swap k v)[s.cursor]? = some w := by
  unfold State.tableWord? at h
  split at h
  · next row hrow =>
    obtain ⟨k, -, rfl⟩ := Option.map_eq_some_iff.1 hrow
    unfold Row.word? at h
    split at h
    · next v hv => exact ⟨k, v, hrow, hv, h⟩
    · cases h
  · cases h

/-! ### An executed word -/

/-- A word whose fan-out goes through advances the cursor; only the clock may change besides. -/
theorem executeWord_advances {s u : State} {w : MicroWord} (hy : asserts w .yld = false)
    (hu : { s with pins := w }.updateAllPins = .going u) :
    ∃ c, s.executeWord (some w) = { u with cursor := u.cursor + 1, clock := c } := by
  simp only [State.executeWord, hy, Bool.false_eq_true, if_false, hu]
  split <;> exact ⟨_, rfl⟩

theorem executeWord_sound (lookup : Option MicroWord) (s : State) : KeepsSound s (s.executeWord lookup) := by
  intro h
  cases lookup with
  | none => exact raiseFatal_sound _ s h
  | some w =>
    have hp : State.Sound { s with pins := w } := ⟨h.canonical, h.within, h.pointer, h.published, h.flags, h.alu, h.halted⟩
    cases hy : asserts w .yld with
    | true =>
      rw [executeWord_yield hy]
      exact ⟨h.canonical, h.within, h.pointer, h.published, h.flags, h.alu, h.halted⟩
    | false =>
      have hu : ({ s with pins := w }.updateAllPins).result.Sound := fanOut_sound fanOutOrder none _ hp
      cases hf : { s with pins := w }.updateAllPins with
      | stopped u =>
        rw [executeWord_stopped hy hf]
        rwa [hf] at hu
      | going u =>
        rw [hf] at hu
        have hnext : State.Sound { u with cursor := u.cursor + 1 } :=
          ⟨hu.canonical, hu.within, hu.pointer, hu.published, hu.flags, hu.alu, hu.halted⟩
        cases hh : asserts u.pins .hlt with
        | false => rwa [executeWord_going hy hf hh]
        | true =>
          simp only [State.executeWord, hy, Bool.false_eq_true, if_false, hf, hh, if_true]
          exact ⟨hnext.canonical, hnext.within, hnext.pointer, hnext.published, hnext.flags, hnext.alu, fun _ => rfl⟩

theorem updateAllPins_irKept {s u : State} (h : s.updateAllPins = .going u) : IrKept s u := by
  have hk : s.updateAllPins.Keeps s := fanOut_keeps fanOutOrder none s
  rw [h] at hk
  exact hk

/-- The next place in a row is inside the sequence the byte and the flags choose after the word: a fetched byte has a step 2,
and new flags choose a variant as long. -/
theorem cursorInSequence_advance {s t : State} {k : Mnemonic} {v : FlagVariant} {w : MicroWord}
    (hrow : tableRow? s.params s.currentInstruction.high = some (microcodeRow s.params.swap k))
    (hv : flagVariant? s.zero s.carry = some v) (hat : (microcodeRow s.params.swap k v)[s.cursor]? = some w)
    (hy : asserts w .yld = false) (hp : t.params = s.params) (hcur : t.cursor = s.cursor + 1) (hf : t.FlagsExclusive)
    (hci : asserts w .ii = false → t.currentInstruction = s.currentInstruction)
    (hkept : asserts w .eo = false → t.zero = s.zero ∧ t.carry = s.carry) : t.cursorInSequence = true := by
  cases hi : asserts w .ii with
  | true => exact cursorInSequence_of_start hf (.inr (by rw [hcur, microcodeRow_ii hat hi]))
  | false =>
    obtain ⟨v', hv'⟩ := flagVariant_of_exclusive hf
    have hlen : (microcodeRow s.params.swap k v').length = (microcodeRow s.params.swap k v).length := by
      cases heo : asserts w .eo with
      | true => exact microcodeRow_eo_length (List.mem_of_getElem? hat) heo v'
      | false =>
        obtain ⟨hz, hc⟩ := hkept heo
        rw [hz, hc, hv] at hv'
        cases hv'
        rfl
    refine cursorInSequence_of_row (k := k) (by rw [hp, hci hi, hrow]) hv' ?_
    rw [hp, hcur, hlen]
    exact cursor_succ_lt hat hy

/-- The cursor an executed word leaves is inside the sequence its byte and flags then choose. -/
theorem executeWord_cursorInSequence {s : State} (hs : s.Sound) (hm : s.modes = .allFloat)
    (hc : s.cursorInSequence = true) : (s.executeWord s.tableWord?).cursorInSequence = true := by
  cases hw : s.tableWord? with
  | none => exact (cursorInSequence_congr (t := s.executeWord none) rfl rfl rfl rfl rfl).trans hc
  | some w =>
    obtain ⟨k, v, hrow, hv, hat⟩ := tableWord_row hw
    cases hy : asserts w .yld with
    | true =>
      rw [executeWord_yield hy]
      exact cursorInSequence_of_start hs.flags (.inl rfl)
    | false =>
      have hkept := updateAllPins_kept { s with pins := w }
      rcases tableWords_fanOutEnds (s := { s with pins := w }) hm w (tableWord_mem hw) rfl with
        ⟨u, hu⟩ | ⟨-, heo, u, hu, hci⟩
      · have hsound := executeWord_sound (some w) s hs
        rw [hu] at hkept
        obtain ⟨c, hex⟩ := executeWord_advances hy hu
        rw [hex] at hsound ⊢
        refine cursorInSequence_advance hrow hv hat hy hkept.params (congrArg (· + 1) hkept.cursor) hsound.flags
          (fun hi => ?_) fun heo => ?_
        · exact ((updateAllPins_irKept hu).idle ⟨by simp [hm, Modes.allFloat], hi⟩).2
        · obtain ⟨hz, hcarry, -⟩ := hkept.flags heo
          exact ⟨hz, hcarry⟩
      · rw [executeWord_stopped hy hu]
        rw [hu] at hkept
        obtain ⟨hz, hcarry, -⟩ := hkept.flags heo
        exact (cursorInSequence_congr hkept.params hci hz hcarry hkept.cursor).trans hc

theorem allFloat_singleWriter : Modes.allFloat.singleWriter = true := by decide

/-- A word of the table, executed where every device floats, leaves at most one device in WRITE mode. -/
theorem executeWord_singleWriter {s : State} (hm : s.modes = .allFloat) :
    (s.executeWord s.tableWord?).modes.singleWriter = true := by
  cases hw : s.tableWord? with
  | none => exact hm ▸ allFloat_singleWriter
  | some w =>
    cases hy : asserts w .yld with
    | true =>
      rw [executeWord_yield hy]
      exact hm ▸ allFloat_singleWriter
    | false =>
      have hone := fanOut_singleWriter (s := { s with pins := w }) (tableWord_mem hw) rfl hm
      cases hu : { s with pins := w }.updateAllPins with
      | stopped u =>
        rw [executeWord_stopped hy hu]
        rwa [hu] at hone
      | going u =>
        obtain ⟨c, hex⟩ := executeWord_advances hy hu
        rw [hex]
        rwa [hu] at hone

/-! ### An edge -/

theorem State.Inv.sound {s : State} (h : s.Inv) : s.Sound := by
  obtain ⟨-, hwf, hwithin, hptr, hpub, hflags, -, halu, -, -, hhalt⟩ := h
  exact ⟨hwf, hwithin, hptr, hpub, hflags, halu, hhalt⟩

/-- The invariant from its parts. -/
theorem State.Sound.inv {s : State} (h : s.Sound) (hp : s.params.wellFormed = true) (hw : s.modes.singleWriter = true)
    (hq : s.clock.output = false → s.Quiet) (hc : s.cursorInSequence = true) : s.Inv :=
  ⟨hp, h.canonical, h.within, h.pointer, h.published, h.flags, hw, h.alu, hq, hc, h.halted⟩

/-- An edge keeps the invariant: a falling edge floats everything, and a rising edge executes a word from the quiet. -/
theorem State.Inv.tick {s : State} (h : s.Inv) : (s.tick State.tableWord?).Inv := by
  have hs := State.Inv.sound h
  obtain ⟨hp, -, -, -, -, -, -, -, hq, hc, -⟩ := h
  cases ho : s.clock.output with
  | true =>
    rw [tick_falling ho]
    have halu : Modes.allFloat.alu ≠ .read := by decide
    refine State.Sound.inv ⟨hs.canonical, hs.within, hs.pointer, hs.published, hs.flags, halu, hs.halted⟩ hp
      allFloat_singleWriter (fun _ => ⟨rfl, rfl, rfl, rfl⟩) ?_
    exact (cursorInSequence_congr (s := s) rfl rfl rfl rfl rfl).trans hc
  | false =>
    obtain ⟨-, hm, -⟩ := hq ho
    have hs' : s.countTick.Sound :=
      ⟨hs.canonical, hs.within, hs.pointer, hs.published, hs.flags, hs.alu, hs.halted⟩
    have hparams := (tick_kept State.tableWord? s).1.params
    have hout := tick_output (l := State.tableWord?) s
    rw [tick_rising ho] at hparams hout ⊢
    refine (executeWord_sound _ _ hs').inv (hparams ▸ hp) (executeWord_singleWriter (s := s.countTick) hm) (fun hlow => ?_) ?_
    · simp [hlow, ho] at hout
    · exact executeWord_cursorInSequence hs' hm
        ((cursorInSequence_congr (s := s) rfl rfl rfl rfl rfl).trans hc)

/-- Settles O43. -/
theorem everyEdgeKeepsTheInvariant : Obligations.EveryEdgeKeepsTheInvariant := by
  intro s t h hedge
  obtain ⟨-, rfl⟩ := clockEdge_next hedge
  exact State.Inv.tick h

/-- A run of edges keeps the invariant. -/
theorem State.Inv.runEdges {s : State} (h : s.Inv) (done : State → Bool) (n : Nat) :
    (s.runEdges State.tableWord? done n).Inv := by
  induction n generalizing s with
  | zero => exact h
  | succ n ih =>
    unfold State.runEdges
    split
    · exact ih (State.Inv.tick h)
    · exact h

theorem step_next_running {s t : State} (h : step s = .next t) : s.clock.running = true := by
  by_contra hr
  rw [step, if_neg hr] at h
  cases h

/-- Settles O44: a step is a run of edges (`stepIsTheEdgesToTheNextBoundary`), each of which keeps the invariant. -/
theorem everyStepKeepsTheInvariant : Obligations.EveryStepKeepsTheInvariant := by
  intro s t h hstep
  rw [stepIsTheEdgesToTheNextBoundary s h (step_next_running hstep)] at hstep
  cases hstep
  exact State.Inv.runEdges (State.Inv.tick h) _ _

end Sys2Proof.Machine
end

section
/-! PROOFS. Construction, load, start and snapshot (10_state.md R44 to R47, 60_exceptions.md R220 to R222): the states they
leave, from the bytes a list writes. -/

namespace Sys2Proof.Machine

/-! ### Bytes written from a list -/

theorem Memory.read_write {m : Memory} (h : m.wf = true) (i j : Nat) (v : Byte) :
    (m.write i v).read j = if j = i then v else m.read j :=
  Memory.read_write_from h i j v

/-- Cell `j` after a list is written from `start` on: the list's byte, where it reaches the cell. -/
theorem Memory.read_writeFrom {m : Memory} (h : m.wf = true) (start : Nat) (vs : List Byte) (j : Nat) :
    (m.writeFrom start vs).read j =
      if start ≤ j then (vs[j - start]?).getD (m.read j) else m.read j := by
  induction vs generalizing m start with
  | nil => simp [Memory.writeFrom]
  | cons v vs ih =>
    rw [Memory.writeFrom, ih (Memory.wf_write h start v), Memory.read_write h]
    rcases Nat.lt_trichotomy j start with hlt | rfl | hgt
    · rw [if_neg (by omega), if_neg (by omega), if_neg (by omega)]
    · simp
    · obtain ⟨n, rfl⟩ := Nat.exists_eq_add_of_lt hgt
      rw [if_pos (by omega), if_neg (by omega), if_pos (by omega), show start + n + 1 - start = n + 1 by omega,
        show start + n + 1 - (start + 1) = n by omega, List.getElem?_cons_succ]

/-- A cell no entry names keeps its byte. -/
theorem Memory.read_writeEntries_other {m : Memory} (h : m.wf = true) {es : List (Nat × Byte)} {j : Nat}
    (hj : j ∉ es.map Prod.fst) : (m.writeEntries es).read j = m.read j := by
  induction es generalizing m with
  | nil => rfl
  | cons e es ih =>
    simp only [List.map_cons, List.mem_cons, not_or] at hj
    obtain ⟨hne, hrest⟩ := hj
    rw [Memory.writeEntries, ih (Memory.wf_write h _ _) hrest, Memory.read_write h, if_neg hne]

/-! ### Construction -/

theorem constructed_params (p : Params) (init : InitState) : (State.constructed p init).params = p := by
  cases init <;> rfl

/-- A construction is a quiet state at cursor 0, with the drawn bytes in the cells memory has. -/
theorem constructed_inv {p : Params} (hp : p.wellFormed = true) (init : InitState) : (State.constructed p init).Inv := by
  have hquiet : (State.constructed p init).Quiet := by cases init <;> exact ⟨rfl, rfl, rfl, rfl⟩
  have hflags : (State.constructed p init).FlagsExclusive := by cases init <;> exact fun h => nomatch h.1
  have hcur : (State.constructed p init).cursor = 0 := by cases init <;> rfl
  have hsound : (State.constructed p init).Sound := by
    cases init with
    | zero => exact ⟨rfl, rfl, rfl, rfl, hflags, by rw [hquiet.2.1]; decide, fun h => nomatch h⟩
    | arbitrary a b o cells =>
      have hfit : 0 + (cells.take p.cells).length ≤ p.cells := by simp
      exact ⟨Memory.wf_writeFrom rfl _ _, Memory.within_writeFrom rfl _ _ hfit, rfl, rfl, hflags,
        by rw [hquiet.2.1]; decide, fun h => nomatch h⟩
  exact hsound.inv (by rwa [constructed_params]) (by rw [hquiet.2.1]; exact allFloat_singleWriter) (fun _ => hquiet)
    (cursorInSequence_of_start hflags (.inl hcur))

/-- What a construction that is not refused was given. -/
theorem hostConstruct_next {p : Params} {init : InitState} {s : State} (h : hostConstruct p init = .next s) :
    p.wellFormed = true ∧ s = State.constructed p init := by
  unfold hostConstruct at h
  split_ifs at h with hpages hinj
  cases h
  exact ⟨by simpa [Params.wellFormed, hinj] using Nat.le_of_not_lt hpages, rfl⟩

/-- Settles O47. -/
theorem everyConstructionHasTheInvariant : Obligations.EveryConstructionHasTheInvariant := by
  intro p init s h
  obtain ⟨hp, rfl⟩ := hostConstruct_next h
  have hpages : p.pages ≤ 4 := by
    simp only [Params.wellFormed, Bool.and_eq_true, decide_eq_true_eq] at hp
    exact hp.1
  exact ⟨constructed_inv hp init, constructed_params p init, hpages⟩

/-- Settles O46: reset is the construction with the default parameters. -/
theorem resetHasTheInvariant : Obligations.ResetHasTheInvariant :=
  constructed_inv (p := .default) (by decide) .zero

theorem asserts_zero (p : Pin) : asserts 0 p = false := by simp [asserts]

/-- Settles O48. -/
theorem resetValuesAreAsListed : Obligations.ResetValuesAreAsListed :=
  ⟨rfl, rfl, rfl, rfl, rfl, rfl, rfl, rfl, rfl, asserts_zero, rfl, rfl, rfl, Modes.get_allFloat, rfl, fun _ => rfl, rfl, rfl,
    rfl, rfl, rfl, rfl⟩

/-- Settles O49: the drawn cells are those of the list that memory has room for. -/
theorem arbitraryInitHoldsTheDraws : Obligations.ArbitraryInitHoldsTheDraws := by
  intro p a b o cells
  refine ⟨rfl, rfl, rfl, fun i hi => ?_, rfl⟩
  have h := Memory.read_writeFrom (m := []) rfl 0 (cells.take p.cells) i
  rw [if_pos (Nat.zero_le i), Nat.sub_zero, List.getElem?_take_of_lt hi] at h
  exact h.trans (List.getD_eq_getElem?_getD).symm

/-! ### The first edge -/

/-- A map knows an opcode where some mnemonic has it. -/
theorem mnemonic?_isSome_iff {m : OpcodeMap} {op : Nibble} : (m.mnemonic? op).isSome = true ↔ ∃ k, m.code k = op := by
  have hall (k : Mnemonic) : k ∈ Mnemonic.all := by cases k <;> decide
  simp [OpcodeMap.mnemonic?, hall]

/-- The zero construction after its first start. -/
def State.startedZero (p : Params) (period : Nat) : State :=
  { State.constructed p .zero with clock := ⟨true, false, false, period, 0⟩ }

theorem hostStart_constructed (p : Params) (period : Nat) :
    hostStart period (State.constructed p .zero) = .next (State.startedZero p period) := rfl

theorem startedZero_canBegin (p : Params) (period : Nat) : (State.startedZero p period).CanBegin :=
  ⟨rfl, ⟨rfl, rfl, rfl, rfl, rfl⟩, fun h => nomatch h.1⟩

theorem startedZero_high (p : Params) (period : Nat) : (State.startedZero p period).currentInstruction.high = 0 := by
  change Byte.high 0 = 0
  decide

/-- A first lookup under an opcode with no entry stops the clock in the first rising edge. -/
theorem startedZero_tick_unknown {p : Params} {period : Nat} (h : ∀ k, p.opcodes.code k ≠ 0) :
    (State.startedZero p period).tick State.tableWord? =
      ({ State.startedZero p period with
        clock := { (State.startedZero p period).clock with edges := 1 } }.stoppedBy (.decode 0 0 0)) := by
  have hnone : p.opcodes.mnemonic? 0 = none := by
    rw [← Option.not_isSome_iff_eq_none, mnemonic?_isSome_iff]
    exact fun ⟨k, hk⟩ => h k hk
  have hrow : tableRow? (State.startedZero p period).params (State.startedZero p period).currentInstruction.high = none := by
    rw [startedZero_high, tableRow?]
    exact congrArg (Option.map _) hnone
  have hmiss : (State.startedZero p period).tableWord? = none := by rw [State.tableWord?, hrow]
  rw [tick_rising rfl, hmiss, State.executeWord, State.decodeError, countTick_currentInstruction, startedZero_high]
  rfl

/-- Settles O50. -/
theorem firstFetchLooksUpOpcodeZero : Obligations.FirstFetchLooksUpOpcodeZero := by
  intro p period _
  have hb := startedZero_canBegin p period
  refine ⟨State.startedZero p period, hostStart_constructed p period, fun hknown => ?_, fun hunknown => ?_⟩
  · have hk : (State.startedZero p period).LookupKnown := mnemonic?_isSome_iff.2 (by rwa [startedZero_high])
    exact ⟨hb, hk, tableWord_prefix hk hb.2.2 (k := 0) rfl (by decide)⟩
  · rw [clockEdge_running rfl, startedZero_tick_unknown hunknown]

/-! ### Boot -/

/-- What a load into the memory of reset leaves there. -/
def loadedMemory (program : List Nat) (data : List (Nat × Nat)) : Memory :=
  Memory.writeEntries (Memory.writeFrom [] 0 (program.map fun v => BitVec.ofNat 8 v))
    (data.map fun e => (e.1, BitVec.ofNat 8 e.2))

/-- Reset with a program loaded, after its first start. -/
def State.booted (program : List Nat) (data : List (Nat × Nat)) (period : Nat) : State :=
  { State.reset with mem := loadedMemory program data, clock := ⟨true, false, false, period, 0⟩ }

theorem boot_eq {program : List Nat} {data : List (Nat × Nat)} (h : loadFits 16 program data = true) (period : Nat) :
    runMoves [.host (.load program data), .host (.start period)] State.reset =
      .next (State.booted program data period) := by
  have hload : hostLoad program data State.reset = .next { State.reset with mem := loadedMemory program data } := if_pos h
  simp only [runMoves, move, hostAction, hload]
  rfl

theorem loadedMemory_read_zero (v : Nat) (rest : List Nat) {data : List (Nat × Nat)} (h : 0 ∉ data.map Prod.fst) :
    (loadedMemory (v :: rest) data).read 0 = BitVec.ofNat 8 v := by
  rw [loadedMemory, Memory.read_writeEntries_other (Memory.wf_writeFrom rfl 0 _) (by simpa [Function.comp_def] using h),
    Memory.read_writeFrom rfl]
  rfl

theorem booted_canBegin (program : List Nat) (data : List (Nat × Nat)) (period : Nat) :
    (State.booted program data period).CanBegin :=
  ⟨rfl, ⟨rfl, rfl, rfl, rfl, rfl⟩, fun h => nomatch h.1⟩

theorem booted_lookupKnown (program : List Nat) (data : List (Nat × Nat)) (period : Nat) :
    (State.booted program data period).LookupKnown := by
  change (OpcodeMap.default.mnemonic? (Byte.high 0)).isSome = true
  decide

theorem booted_inMemory (program : List Nat) (data : List (Nat × Nat)) (period : Nat) :
    (State.booted program data period).InMemory (State.booted program data period).pc.low := by
  change (Byte.low 0).toNat < 2 ^ 4
  decide

/-- Settles O54: the load leaves the program's first byte in cell 0, and the start leaves a boundary that is about to fetch it. -/
theorem bootRunsTheByteAtAddressZero : Obligations.BootRunsTheByteAtAddressZero := by
  intro v period rest data i hfit hdata hdecode
  have hbyte : (State.booted (v :: rest) data period).fetchByte = BitVec.ofNat 8 v := loadedMemory_read_zero v rest hdata
  have hb := booted_canBegin (v :: rest) data period
  have hin := booted_inMemory (v :: rest) data period
  have hd : decode (State.booted (v :: rest) data period).params.opcodes (State.booted (v :: rest) data period).fetchByte =
      .ok i := by rwa [hbyte]
  exact ⟨_, boot_eq hfit period, rfl, ⟨hb, hin, (encode_of_decode hd).symm⟩,
    stepRunsTheDecodedInstruction _ i hb (booted_lookupKnown _ _ _) hin hd⟩

/-! ### The snapshot -/

theorem Memory.read_outside {m : Memory} {cells i : Nat} (h : m.within cells = true) (hi : cells ≤ i) :
    m.read i = unlistedByte := by
  induction m with
  | nil => rfl
  | cons c rest ih =>
    obtain ⟨k, v⟩ := c
    have hall := Memory.within_iff.1 h
    have hk : k ≠ i := by
      have := hall (k, v) List.mem_cons_self
      simp only at this
      omega
    rw [Memory.read, if_neg hk]
    exact ih (Memory.within_iff.2 fun c hc => hall c (List.mem_cons_of_mem _ hc))

/-- Two memories inside the address space that hold the same bytes in its cells are equal. -/
theorem Memory.eq_of_cells {m n : Memory} {cells : Nat} (hm : m.wf = true) (hn : n.wf = true)
    (hmw : m.within cells = true) (hnw : n.within cells = true)
    (h : (List.range cells).map m.read = (List.range cells).map n.read) : m = n := by
  refine Memory.eq_of_read_from hm hn fun i => ?_
  by_cases hi : i < cells
  · exact List.map_inj_left.1 h i (List.mem_range.2 hi)
  · rw [Memory.read_outside hmw (Nat.le_of_not_lt hi), Memory.read_outside hnw (Nat.le_of_not_lt hi)]

/-- A state is its parameters and what its snapshot shows, its memory and the published byte of IR among them. -/
theorem eq_of_snapshot {s t : State} (hp : s.params = t.params) (hm : s.mem = t.mem) (h : s.snapshot = t.snapshot) : s = t := by
  obtain ⟨_, _, _, _, _, _, _, _, _, _, _, _, ⟨⟩, _⟩ := s
  obtain ⟨_, _, _, _, _, _, _, _, _, _, _, _, ⟨⟩, _⟩ := t
  simp_all [State.snapshot, fanOutOrder, Modes.get, State.storage]

/-- Settles O58: the snapshot lists memory as the bytes of its cells, which fix a canonical memory inside the address space. -/
theorem snapshotShowsTheWholeState : Obligations.SnapshotShowsTheWholeState := by
  refine ⟨fun s => rfl, fun s t hs ht hp h => ?_⟩
  have hs' := State.Inv.sound hs
  have ht' := State.Inv.sound ht
  have hcells : (List.range s.params.cells).map s.mem.read = (List.range s.params.cells).map t.mem.read := by
    have hdevices := congrArg Snapshot.devices h
    simp only [State.snapshot, fanOutOrder, List.map_cons, List.cons.injEq, Prod.mk.injEq, State.storage, Storage.memory.injEq,
      ← hp] at hdevices
    obtain ⟨-, -, -, -, ⟨-, -, hcells, -⟩, -⟩ := hdevices
    exact hcells
  exact eq_of_snapshot hp (Memory.eq_of_cells hs'.canonical ht'.canonical hs'.within (hp ▸ ht'.within) hcells) h

end Sys2Proof.Machine
end

section
/-! PROOFS. What each instruction does, whole: the state after the meaning of an instruction whose byte and operand lie in memory,
from its row's words one after another. -/

namespace Sys2Proof.Machine

/-! ### The state an instruction leaves -/

/-- What an instruction's ALU word leaves besides the register it latches (42_alu_arith.md R150 to R152). -/
def State.afterCompute (s : State) (i : Instr) (subtract : Bool) : State :=
  { s.afterPrefix i 10 with
    bus := (aluCompute s.a s.b subtract).out
    alu := ⟨(aluCompute s.a s.b subtract).out, false, (aluCompute s.a s.b subtract).carryIn,
      (aluCompute s.a s.b subtract).carryOut⟩
    zero := (aluCompute s.a s.b subtract).zero
    carry := (aluCompute s.a s.b subtract).carry }

/-- The state an instruction leaves from a boundary that is ready for it, with its operand in memory: the effects of
41_loads.md to 45_control.md. Under SWAP_SEMANTICS = exchange the second register takes what the scratch cell reads back. -/
def State.completed (s : State) (i : Instr) : State :=
  match i with
  | .lda n => { s.afterPrefix i 10 with a := s.mem.read n.toNat, bus := s.mem.read n.toNat }
  | .ldo n => { s.afterPrefix i 10 with o := s.mem.read n.toNat, bus := s.mem.read n.toNat }
  | .adda _ => { s.afterCompute i false with a := (aluCompute s.a s.b false).out }
  | .addo _ => { s.afterCompute i false with o := (aluCompute s.a s.b false).out }
  | .suba _ => { s.afterCompute i true with a := (aluCompute s.a s.b true).out }
  | .subo _ => { s.afterCompute i true with o := (aluCompute s.a s.b true).out }
  | .stoa n => { s.afterPrefix i 10 with mem := s.mem.write n.toNat s.a, bus := s.a }
  | .stoo n => { s.afterPrefix i 10 with mem := s.mem.write n.toNat s.o, bus := s.o }
  | .swab n =>
    match s.params.swap with
    | .exchange =>
      { s.afterPrefix i 14 with
        mem := s.mem.write n.toNat s.a
        a := s.b
        b := (s.mem.write n.toNat s.a).read n.toNat
        bus := (s.mem.write n.toNat s.a).read n.toNat }
    | .transfer => { s.afterPrefix i 10 with b := s.a, bus := s.a }
  | .swao n =>
    match s.params.swap with
    | .exchange =>
      { s.afterPrefix i 14 with
        mem := s.mem.write n.toNat s.a
        a := s.o
        o := (s.mem.write n.toNat s.a).read n.toNat
        bus := (s.mem.write n.toNat s.a).read n.toNat }
    | .transfer => { s.afterPrefix i 10 with o := s.a, bus := s.a }
  | .jmpz _ =>
    if s.zero then { s.afterPrefix i 10 with pc := s.fetchedDrive, bus := s.fetchedDrive }
    else { s.afterPrefix i 8 with bus := s.fetchedDrive }
  | .jmpc _ =>
    if s.carry then { s.afterPrefix i 10 with pc := s.fetchedDrive, bus := s.fetchedDrive }
    else { s.afterPrefix i 8 with bus := s.fetchedDrive }
  | .hlt _ => { s.afterPrefix i 7 with bus := s.fetchedDrive, cursor := 4, pins := word [.hlt] }.stoppedHigh

/-! ### From step 3 to the boundary -/

/-- Before step 3 of an instruction. -/
def State.atStep3 (s : State) (i : Instr) : State := { s.afterPrefix i 6 with bus := s.fetchedDrive, cursor := 3 }

theorem afterStep2_eq {s : State} {i : Instr} (h : s.fetchByte = encode s.params.opcodes i) :
    s.afterStep2 = s.atStep3 i := by
  simp only [State.afterStep2, State.atStep3, State.afterPrefix, incrementPc_eq, h, encode_low]

/-- The meaning of an instruction is its row from step 3 on. -/
theorem exec_ready {s : State} {i : Instr} (h : s.ReadyFor i) :
    exec i s = .next ((s.atStep3 i).runEdges (microcodeRow s.params.swap i.mnemonic).word? State.betweenInstructions 8) := by
  rw [exec_eq, runInstruction_eq (microcodeRow_sequenced _ _) h, afterStep2_eq h.2.2]

/-- Before the word at cursor `k` of an instruction that is running. -/
structure State.BeforeStep (s : State) (k : Nat) : Prop where
  running : s.clock.running = true
  quiet : s.Quiet
  flags : s.FlagsExclusive
  cursor : s.cursor = k

theorem atStep3_beforeStep {s : State} (h : s.CanBegin) (i : Instr) : (s.atStep3 i).BeforeStep 3 :=
  have ⟨hr, ⟨_, hq⟩, hf⟩ := h
  ⟨hr, hq, hf, rfl⟩

section
variable {row : Row} {s t : State} {k : Nat}

theorem Row.word?_variant {v : FlagVariant} {ws : List MicroWord} {w : MicroWord}
    (hv : flagVariant? s.zero s.carry = some v) (hrow : row v = ws) (hc : s.cursor = k) (hw : ws[k]? = some w) :
    row.word? s = some w := by
  rw [Row.word?_eq hv, hrow, hc, hw]

/-- The words from step 3 on: the body and the yield word. -/
theorem Row.word?_body {body : List MicroWord} {w : MicroWord} (hrow : ∀ v, row v = sequence body)
    (h : s.BeforeStep (3 + k)) (hw : (body ++ [yieldWord])[k]? = some w) : row.word? s = some w := by
  obtain ⟨v, hv⟩ := flagVariant_of_exclusive h.flags
  refine Row.word?_variant hv (hrow v) h.cursor ?_
  rw [sequence, List.append_assoc, List.getElem?_append_right (Nat.le_add_right 3 k), ← hw]
  exact congrArg _ (Nat.add_sub_cancel_left 3 k)

theorem runEdges_word {l : State → Option MicroWord} (hs : s.BeforeStep (k + 1)) (h : Microstep l s t) (n : Nat) :
    s.runEdges l State.betweenInstructions (n + 2) = t.runEdges l State.betweenInstructions n :=
  runEdges_micro h betweenInstructions_high hs.running (betweenInstructions_of_cursor (by simp [hs.cursor]))

/-- The yield word ends the run at a boundary. -/
theorem runEdges_yield {l : State → Option MicroWord} (hs : s.BeforeStep (k + 1)) (hl : l s = some yieldWord) (n : Nat) :
    s.runEdges l State.betweenInstructions (n + 2) =
      { s with cursor := 0, clock := { s.clock with edges := s.clock.edges + 2 } } := by
  rw [runEdges_word hs (microstep_yield hs.quiet hl)]
  obtain ⟨-, -, -, ho⟩ := hs.quiet
  refine runEdges_done ?_ n
  exact betweenInstructions_iff.2 ⟨rfl, ho⟩

end

section
variable {s t : State} {i : Instr}

/-- The last word of an instruction and its falling edge, with the cursor back where the boundary had it. -/
def State.yielded (s t : State) : State :=
  { t with cursor := s.cursor, clock := { t.clock with edges := t.clock.edges + 2 } }

theorem runEdges_yielded {l : State → Option MicroWord} {k : Nat} (h : s.AtBoundary) (ht : t.BeforeStep (k + 1))
    (hy : l t = some yieldWord) (n : Nat) : t.runEdges l State.betweenInstructions (n + 2) = s.yielded t := by
  rw [runEdges_yield ht hy, State.yielded, h.1]

/-- A sequence with no body word. -/
theorem exec_noWord (h : s.ReadyFor i)
    (hy : (microcodeRow s.params.swap i.mnemonic).word? (s.atStep3 i) = some yieldWord) :
    exec i s = .next (s.yielded (s.atStep3 i)) := by
  have ⟨hb, _⟩ := h
  rw [exec_ready h, runEdges_yielded hb.2.1 (atStep3_beforeStep hb i) hy]

/-- One body word, looked up at step 3, and the yield word after it. -/
theorem exec_oneWord (h : s.ReadyFor i)
    (hw : Microstep (microcodeRow s.params.swap i.mnemonic).word? (s.atStep3 i) t)
    (hy : (microcodeRow s.params.swap i.mnemonic).word? t = some yieldWord) (ht : t.BeforeStep 4) :
    exec i s = .next (s.yielded t) := by
  have ⟨hb, _⟩ := h
  rw [exec_ready h, runEdges_word (atStep3_beforeStep hb i) hw, runEdges_yielded hb.2.1 ht hy]

/-- The same, of a row that is one sequence in every variant. -/
theorem exec_sequence {w : MicroWord} (h : s.ReadyFor i) (hrow : ∀ v, microcodeRow s.params.swap i.mnemonic v = sequence [w])
    (hw : ∀ {l}, l (s.atStep3 i) = some w → Microstep l (s.atStep3 i) t) (ht : t.BeforeStep 4) :
    exec i s = .next (s.yielded t) := by
  have ⟨hb, _⟩ := h
  exact exec_oneWord h (hw (Row.word?_body (k := 0) hrow (atStep3_beforeStep hb i) rfl))
    (Row.word?_body (k := 1) hrow ht rfl) ht

/-- A row of three body words: the exchanges. -/
theorem exec_exchange {w₁ w₂ w₃ : MicroWord} {t₁ t₂ : State} (h : s.ReadyFor i)
    (hrow : ∀ v, microcodeRow s.params.swap i.mnemonic v = sequence [w₁, w₂, w₃])
    (hw₁ : ∀ {l}, l (s.atStep3 i) = some w₁ → Microstep l (s.atStep3 i) t₁) (ht₁ : t₁.BeforeStep 4)
    (hw₂ : ∀ {l}, l t₁ = some w₂ → Microstep l t₁ t₂) (ht₂ : t₂.BeforeStep 5)
    (hw₃ : ∀ {l}, l t₂ = some w₃ → Microstep l t₂ t) (ht : t.BeforeStep 6) :
    exec i s = .next (s.yielded t) := by
  have ⟨hb, _⟩ := h
  have h₀ := atStep3_beforeStep hb i
  rw [exec_ready h, runEdges_word h₀ (hw₁ (Row.word?_body (k := 0) hrow h₀ rfl)),
    runEdges_word ht₁ (hw₂ (Row.word?_body (k := 1) hrow ht₁ rfl)),
    runEdges_word ht₂ (hw₃ (Row.word?_body (k := 2) hrow ht₂ rfl)),
    runEdges_yielded hb.2.1 ht (Row.word?_body (k := 3) hrow ht rfl)]

/-- A jump in the variant that takes it. -/
theorem exec_jump {v : FlagVariant} (h : s.ReadyFor i) (hv : flagVariant? s.zero s.carry = some v)
    (hrow : microcodeRow s.params.swap i.mnemonic v = sequence [word [.io, .ci]]) :
    exec i s = .next { s.afterPrefix i 10 with pc := s.fetchedDrive, bus := s.fetchedDrive } := by
  have ⟨hb, _⟩ := h
  obtain ⟨hr, hq, hf, -⟩ := atStep3_beforeStep hb i
  exact exec_oneWord h (microstep_io_ci hq (Row.word?_variant (k := 3) hv hrow rfl rfl))
    (Row.word?_variant (k := 4) hv hrow rfl rfl) ⟨hr, hq, hf, rfl⟩

/-- A jump in a variant that does not take it. -/
theorem exec_noJump {v : FlagVariant} (h : s.ReadyFor i) (hv : flagVariant? s.zero s.carry = some v)
    (hrow : microcodeRow s.params.swap i.mnemonic v = sequence []) :
    exec i s = .next { s.afterPrefix i 8 with bus := s.fetchedDrive } :=
  exec_noWord h (Row.word?_variant (s := s.atStep3 i) (k := 3) hv hrow rfl rfl)

theorem exec_jmpz {n : Nibble} (h : s.ReadyFor (.jmpz n)) : exec (.jmpz n) s = .next (s.completed (.jmpz n)) := by
  obtain ⟨⟨-, -, hf⟩, -⟩ := id h
  simp only [State.completed]
  cases hz : s.zero with
  | true =>
    have hc : s.carry = false := by simpa [hz] using hf
    exact exec_jump (v := .zero) h (by rw [hz, hc]; rfl) rfl
  | false =>
    cases hc : s.carry with
    | true => exact exec_noJump (v := .carry) h (by rw [hz, hc]; rfl) rfl
    | false => exact exec_noJump (v := .neither) h (by rw [hz, hc]; rfl) rfl

theorem exec_jmpc {n : Nibble} (h : s.ReadyFor (.jmpc n)) : exec (.jmpc n) s = .next (s.completed (.jmpc n)) := by
  obtain ⟨⟨-, -, hf⟩, -⟩ := id h
  simp only [State.completed]
  cases hc : s.carry with
  | true =>
    have hz : s.zero = false := by simpa [hc] using hf
    exact exec_jump (v := .carry) h (by rw [hz, hc]; rfl) rfl
  | false =>
    cases hz : s.zero with
    | true => exact exec_noJump (v := .zero) h (by rw [hz, hc]; rfl) rfl
    | false => exact exec_noJump (v := .neither) h (by rw [hz, hc]; rfl) rfl

/-- The HLT word ends the run within its rising edge. -/
theorem exec_hlt {n : Nibble} (h : s.ReadyFor (.hlt n)) : exec (.hlt n) s = .next (s.completed (.hlt n)) := by
  have ⟨hb, _⟩ := h
  have h₀ := atStep3_beforeStep hb (.hlt n)
  have hw : rowHlt.word? (s.atStep3 (.hlt n)) = some (word [.hlt]) := Row.word?_body (k := 0) (fun _ => rfl) h₀ rfl
  have hd : (s.atStep3 (.hlt n)).betweenInstructions = false := betweenInstructions_of_cursor (by simp [h₀.cursor])
  rw [exec_ready h]
  refine congrArg _ ((runEdges_one (n := 7) h₀.running hd).trans ?_)
  rw [show microcodeRow s.params.swap (Instr.hlt n).mnemonic = rowHlt from rfl, tick_hlt h₀.quiet hw]
  exact runEdges_stopped (by simp [Clock.running]) 7

end

/-- The meaning of every instruction leaves `State.completed`. -/
theorem exec_completed {s : State} {i : Instr} (h : s.ReadyFor i) (hin : s.InMemory i.operand) :
    exec i s = .next (s.completed i) := by
  have ⟨hb, _⟩ := h
  obtain ⟨hr, hq, hf, -⟩ := atStep3_beforeStep hb i
  obtain ⟨hp, hm, -, ho⟩ := id hq
  have hptr : (s.atStep3 i).pointerInRange = true := decide_eq_true hin
  have hexcl := aluCompute_exclusive s.a s.b
  cases i with
  | lda n => exact exec_sequence h (fun _ => rfl) (fun hw => microstep_ro_ai hq hw hptr) ⟨hr, hq, hf, rfl⟩
  | ldo n => exact exec_sequence h (fun _ => rfl) (fun hw => microstep_ro_oi hq hw hptr) ⟨hr, hq, hf, rfl⟩
  | adda n => exact exec_sequence h (fun _ => rfl) (microstep_eo_ai hq) ⟨hr, ⟨hp, hm, rfl, ho⟩, hexcl false, rfl⟩
  | addo n => exact exec_sequence h (fun _ => rfl) (microstep_eo_oi hq) ⟨hr, ⟨hp, hm, rfl, ho⟩, hexcl false, rfl⟩
  | suba n => exact exec_sequence h (fun _ => rfl) (microstep_eo_su_ai hq) ⟨hr, ⟨hp, hm, rfl, ho⟩, hexcl true, rfl⟩
  | subo n => exact exec_sequence h (fun _ => rfl) (microstep_eo_su_oi hq) ⟨hr, ⟨hp, hm, rfl, ho⟩, hexcl true, rfl⟩
  | stoa n => exact exec_sequence h (fun _ => rfl) (fun hw => microstep_ao_ri hq hw hptr) ⟨hr, hq, hf, rfl⟩
  | stoo n => exact exec_sequence h (fun _ => rfl) (fun hw => microstep_oo_ri hq hw hptr) ⟨hr, hq, hf, rfl⟩
  | swab n =>
    simp only [State.completed]
    cases hswap : s.params.swap with
    | exchange =>
      exact exec_exchange h (fun _ => by rw [hswap]; rfl) (fun hw => microstep_ao_ri hq hw hptr) ⟨hr, hq, hf, rfl⟩
        (microstep_bo_ai hq) ⟨hr, hq, hf, rfl⟩ (fun hw => microstep_ro_bi hq hw hptr) ⟨hr, hq, hf, rfl⟩
    | transfer => exact exec_sequence h (fun _ => by rw [hswap]; rfl) (microstep_ao_bi hq) ⟨hr, hq, hf, rfl⟩
  | swao n =>
    simp only [State.completed]
    cases hswap : s.params.swap with
    | exchange =>
      exact exec_exchange h (fun _ => by rw [hswap]; rfl) (fun hw => microstep_ao_ri hq hw hptr) ⟨hr, hq, hf, rfl⟩
        (microstep_oo_ai hq) ⟨hr, hq, hf, rfl⟩ (fun hw => microstep_ro_oi hq hw hptr) ⟨hr, hq, hf, rfl⟩
    | transfer => exact exec_sequence h (fun _ => by rw [hswap]; rfl) (microstep_ao_oi hq) ⟨hr, hq, hf, rfl⟩
  | jmpz n => exact exec_jmpz h
  | jmpc n => exact exec_jmpc h
  | hlt n => exact exec_hlt h

end Sys2Proof.Machine
end

section
/-! PROOFS. Who writes what (10_state.md R48), and that what a program observes decides its run (10_state.md R42). -/

namespace Sys2Proof.Machine

/-! ### What an instruction leaves as it was -/

section
variable {s : State} {i : Instr}

theorem completed_a (hi : i.mnemonic ∉ [.lda, .adda, .suba, .swab, .swao]) : (s.completed i).a = s.a := by
  cases i
  case lda | adda | suba | swab | swao => simp [Instr.mnemonic] at hi
  case jmpz | jmpc => simp only [State.completed]; split <;> rfl
  all_goals rfl

theorem completed_b (hi : i.mnemonic ≠ .swab) : (s.completed i).b = s.b := by
  cases i
  case swab => exact absurd rfl hi
  case swao | jmpz | jmpc => simp only [State.completed]; split <;> rfl
  all_goals rfl

theorem completed_o (hi : i.mnemonic ∉ [.ldo, .addo, .subo, .swao]) : (s.completed i).o = s.o := by
  cases i
  case ldo | addo | subo | swao => simp [Instr.mnemonic] at hi
  case swab | jmpz | jmpc => simp only [State.completed]; split <;> rfl
  all_goals rfl

theorem completed_flags (hi : i.mnemonic ∉ aluMnemonics) :
    (s.completed i).zero = s.zero ∧ (s.completed i).carry = s.carry ∧ (s.completed i).alu = s.alu := by
  cases i
  case adda | addo | suba | subo => simp [Instr.mnemonic, aluMnemonics] at hi
  case swab | swao | jmpz | jmpc => simp only [State.completed]; split <;> exact ⟨rfl, rfl, rfl⟩
  all_goals exact ⟨rfl, rfl, rfl⟩

theorem completed_pc : (s.completed i).pc = s.pc + 1 ∨ (i.mnemonic = .jmpz ∧ s.zero = true) ∨
    (i.mnemonic = .jmpc ∧ s.carry = true) := by
  cases i
  case jmpz =>
    simp only [State.completed]
    split
    · next hz => exact .inr (.inl ⟨rfl, hz⟩)
    · exact .inl rfl
  case jmpc =>
    simp only [State.completed]
    split
    · next hc => exact .inr (.inr ⟨rfl, hc⟩)
    · exact .inl rfl
  case swab | swao => simp only [State.completed]; split <;> exact .inl rfl
  all_goals exact .inl rfl

/-- What no instruction changes, and the byte every one leaves published. -/
theorem completed_kept : (s.completed i).params = s.params ∧ (s.completed i).errors = s.errors ∧
    (s.completed i).faulted = s.faulted ∧ (s.completed i).currentInstruction = s.fetchByte := by
  cases i
  case swab | swao | jmpz | jmpc => simp only [State.completed]; split <;> exact ⟨rfl, rfl, rfl, rfl⟩
  all_goals exact ⟨rfl, rfl, rfl, rfl⟩

end

/-- Settles O27: row by row of the access matrix, from the state each instruction leaves. -/
theorem onlyTheListedInstructionsWriteEachRegister : Obligations.OnlyTheListedInstructionsWriteEachRegister := by
  intro i s t h hin hexec
  rw [exec_completed h hin] at hexec
  cases hexec
  obtain ⟨hparams, herrors, hfaulted, -⟩ := completed_kept (s := s) (i := i)
  exact ⟨completed_a, completed_b, completed_o, completed_flags, completed_pc, hparams, herrors, hfaulted⟩

/-! ### Every instruction but HLT ends at a boundary -/

theorem completed_canBegin {s : State} {i : Instr} (h : s.CanBegin) (hi : i.mnemonic ≠ .hlt) : (s.completed i).CanBegin := by
  obtain ⟨hr, ⟨hc, hp, hm, hs, ho⟩, hf⟩ := h
  have hexcl := aluCompute_exclusive s.a s.b
  cases i
  case hlt => exact absurd rfl hi
  case adda | addo => exact ⟨hr, ⟨hc, hp, hm, rfl, ho⟩, hexcl false⟩
  case suba | subo => exact ⟨hr, ⟨hc, hp, hm, rfl, ho⟩, hexcl true⟩
  case swab | swao | jmpz | jmpc => simp only [State.completed]; split <;> exact ⟨hr, ⟨hc, hp, hm, hs, ho⟩, hf⟩
  all_goals exact ⟨hr, ⟨hc, hp, hm, hs, ho⟩, hf⟩

theorem completed_hlt_running (s : State) (n : Nibble) : (s.completed (.hlt n)).clock.running = false := by
  simp [State.completed, State.stoppedHigh, Clock.running]

theorem mnemonic?_of_decode {m : OpcodeMap} {b : Byte} {i : Instr} (h : decode m b = .ok i) :
    (m.mnemonic? b.high).isSome = true := by
  unfold decode at h
  split at h
  · next k hk => rw [hk]; rfl
  · cases h

theorem completed_lookupKnown {s : State} {i j : Instr} (hd : decode s.params.opcodes s.fetchByte = .ok j) :
    (s.completed i).LookupKnown := by
  obtain ⟨hparams, -, -, hbyte⟩ := completed_kept (s := s) (i := i)
  rw [State.LookupKnown, hparams, hbyte]
  exact mnemonic?_of_decode hd

/-! ### A byte with no entry -/

/-- A byte with no entry stops the core in the rising edge of step 2 (60_exceptions.md R204). -/
theorem step_of_reject {s : State} {r : Reject} (hb : s.CanBegin) (hk : s.LookupKnown) (hin : s.InMemory s.pc.low)
    (hd : decode s.params.opcodes s.fetchByte = .error r) : step s = .next s.stoppedByDecode := by
  obtain ⟨hr, ⟨hcur, hp, hm, hs, ho⟩, hf⟩ := id hb
  have hfetch : s.fetch = s.afterFetch :=
    runFetch_eq hb hin (tableWord_prefix hk hf hcur (by decide))
      (tableWord_prefix (s := s.afterStep0) hk hf (k := 1) rfl (by decide))
  have hmiss : s.afterFetch.tableWord? = none := by
    have hrow : tableRow? s.afterFetch.params s.afterFetch.currentInstruction.high = none := tableRow_of_reject hd
    rw [State.tableWord?, hrow]
  rw [step_fetches hr fun _ => ho, hfetch, finishStep_error (s := s.afterFetch) hr hd,
    clockEdge_running (s := s.afterFetch) hr, tick_rising (s := s.afterFetch) ho, hmiss]
  simp [State.executeWord, State.decodeError, State.raiseFatal, State.record, State.haltClock, State.countTick,
    State.afterFetch, State.stoppedByDecode, State.stoppedBy, State.stoppedHigh, incrementPc_eq, ho]

theorem stoppedByDecode_running (s : State) : s.stoppedByDecode.clock.running = false := by
  simp [State.stoppedByDecode, State.stoppedBy, State.stoppedHigh, Clock.running]

/-! ### Two machines that agree on what a program observes -/

theorem low_succ {b c : Byte} (h : b.low = c.low) : (b + 1).low = (c + 1).low := by
  have hnat : b.toNat % 16 = c.toNat % 16 := by rw [← low_toNat, ← low_toNat, h]
  refine BitVec.eq_of_toNat_eq ?_
  rw [low_toNat, low_toNat, BitVec.toNat_add, BitVec.toNat_add]
  omega

section
variable {s t : State}

theorem SameToProgram.fetchByte (h : s.SameToProgram t) : s.fetchByte = t.fetchByte := by
  obtain ⟨-, -, -, hmem, -, -, hpc, -⟩ := h
  rw [State.fetchByte, State.fetchByte, State.fetchAddress, State.fetchAddress, hmem, hpc]

/-- IR drives the same operand under either IR_DRIVE_WIDTH (40_cycle.md R117). -/
theorem SameToProgram.fetchedDrive_low (h : s.SameToProgram t) : s.fetchedDrive.low = t.fetchedDrive.low := by
  rw [State.fetchedDrive, State.fetchedDrive, irDrive_low, irDrive_low, SameToProgram.fetchByte h]

/-- What a program observes after an instruction is computed from what it observed before. -/
theorem completed_sameToProgram (h : s.SameToProgram t) (i : Instr) : (s.completed i).SameToProgram (t.completed i) := by
  have hdrive := SameToProgram.fetchedDrive_low h
  obtain ⟨ha, hb, ho, hmem, hz, hc, hpc, hpages, hswap, hops⟩ := h
  have hpc' := low_succ hpc
  have hread (n : Nibble) : s.mem.read n.toNat = t.mem.read n.toNat := by rw [hmem]
  have hwrite (n : Nibble) : s.mem.write n.toNat s.a = t.mem.write n.toNat t.a := by rw [hmem, ha]
  have hscratch (n : Nibble) := congrArg (Memory.read · n.toNat) (hwrite n)
  have halu (x : Bool) : aluCompute s.a s.b x = aluCompute t.a t.b x := by rw [ha, hb]
  have hout (x : Bool) := congrArg AluResult.out (halu x)
  have hz' (x : Bool) := congrArg AluResult.zero (halu x)
  have hc' (x : Bool) := congrArg AluResult.carry (halu x)
  cases i with
  | lda n => exact ⟨hread n, hb, ho, hmem, hz, hc, hpc', hpages, hswap, hops⟩
  | ldo n => exact ⟨ha, hb, hread n, hmem, hz, hc, hpc', hpages, hswap, hops⟩
  | adda n => exact ⟨hout false, hb, ho, hmem, hz' false, hc' false, hpc', hpages, hswap, hops⟩
  | addo n => exact ⟨ha, hb, hout false, hmem, hz' false, hc' false, hpc', hpages, hswap, hops⟩
  | suba n => exact ⟨hout true, hb, ho, hmem, hz' true, hc' true, hpc', hpages, hswap, hops⟩
  | subo n => exact ⟨ha, hb, hout true, hmem, hz' true, hc' true, hpc', hpages, hswap, hops⟩
  | stoa n => exact ⟨ha, hb, ho, hwrite n, hz, hc, hpc', hpages, hswap, hops⟩
  | stoo n => exact ⟨ha, hb, ho, by rw [State.completed, State.completed, hmem, ho], hz, hc, hpc', hpages, hswap, hops⟩
  | swab n =>
    simp only [State.completed, hswap]
    split
    · exact ⟨hb, hscratch n, ho, hwrite n, hz, hc, hpc', hpages, hswap, hops⟩
    · exact ⟨ha, ha, ho, hmem, hz, hc, hpc', hpages, hswap, hops⟩
  | swao n =>
    simp only [State.completed, hswap]
    split
    · exact ⟨ho, hb, hscratch n, hwrite n, hz, hc, hpc', hpages, hswap, hops⟩
    · exact ⟨ha, hb, ha, hmem, hz, hc, hpc', hpages, hswap, hops⟩
  | jmpz n =>
    simp only [State.completed, hz]
    split
    · exact ⟨ha, hb, ho, hmem, hz, hc, hdrive, hpages, hswap, hops⟩
    · exact ⟨ha, hb, ho, hmem, hz, hc, hpc', hpages, hswap, hops⟩
  | jmpc n =>
    simp only [State.completed, hc]
    split
    · exact ⟨ha, hb, ho, hmem, hz, hc, hdrive, hpages, hswap, hops⟩
    · exact ⟨ha, hb, ho, hmem, hz, hc, hpc', hpages, hswap, hops⟩
  | hlt n => exact ⟨ha, hb, ho, hmem, hz, hc, hpc', hpages, hswap, hops⟩

theorem stoppedByDecode_sameToProgram (h : s.SameToProgram t) : s.stoppedByDecode.SameToProgram t.stoppedByDecode := by
  obtain ⟨ha, hb, ho, hmem, hz, hc, hpc, hpages, hswap, hops⟩ := h
  exact ⟨ha, hb, ho, hmem, hz, hc, low_succ hpc, hpages, hswap, hops⟩

/-- The next edge of the machine begins an instruction, at PAGES = 4 and with a known lookup: what one of the two machines keeps
while it runs. -/
structure State.Begins (s : State) : Prop where
  pages : s.params.pages = 4
  canBegin : s.CanBegin
  known : s.LookupKnown

/-- At PAGES = 4 every 4-bit address names a cell. -/
theorem State.Begins.inMemory (h : s.Begins) (n : Nibble) : s.InMemory n := by
  rw [State.InMemory, Params.cells, h.pages]
  exact n.isLt

/-- A step of a machine that begins an instruction, by the byte it fetches. -/
theorem State.Begins.step_ok {i : Instr} (h : s.Begins) (hd : decode s.params.opcodes s.fetchByte = .ok i) :
    step s = .next (s.completed i) := by
  rw [stepRunsTheDecodedInstruction s i h.canBegin h.known (h.inMemory _) hd]
  exact exec_completed ⟨h.canBegin, h.inMemory _, (encode_of_decode hd).symm⟩ (h.inMemory _)

theorem State.Begins.step_error {r : Reject} (h : s.Begins) (hd : decode s.params.opcodes s.fetchByte = .error r) :
    step s = .next s.stoppedByDecode :=
  step_of_reject h.canBegin h.known (h.inMemory _) hd

theorem State.Begins.completed {i : Instr} (h : s.Begins) (hd : decode s.params.opcodes s.fetchByte = .ok i)
    (hi : i.mnemonic ≠ .hlt) : (s.completed i).Begins where
  pages := by rw [completed_kept.1, h.pages]
  canBegin := completed_canBegin h.canBegin hi
  known := completed_lookupKnown hd

/-- One step each of two machines that agree: they agree again, and both go on or both stop. -/
theorem sameToProgram_step (hs : s.Begins) (ht : t.Begins) (h : s.SameToProgram t) :
    ∃ s' t', step s = .next s' ∧ step t = .next t' ∧ s'.SameToProgram t' ∧
      ((s'.Begins ∧ t'.Begins) ∨ (s'.clock.running = false ∧ t'.clock.running = false)) := by
  have hbyte : decode s.params.opcodes s.fetchByte = decode t.params.opcodes t.fetchByte := by
    obtain ⟨-, -, -, -, -, -, -, -, -, hops⟩ := id h
    rw [hops, SameToProgram.fetchByte h]
  cases hd : decode s.params.opcodes s.fetchByte with
  | error r =>
    exact ⟨_, _, hs.step_error hd, ht.step_error (hbyte ▸ hd), stoppedByDecode_sameToProgram h,
      .inr ⟨stoppedByDecode_running s, stoppedByDecode_running t⟩⟩
  | ok i =>
    refine ⟨_, _, hs.step_ok hd, ht.step_ok (hbyte ▸ hd), completed_sameToProgram h i, ?_⟩
    by_cases hi : i.mnemonic = .hlt
    · cases i <;> cases hi
      exact .inr ⟨completed_hlt_running s _, completed_hlt_running t _⟩
    · exact .inl ⟨hs.completed hd hi, ht.completed (hbyte ▸ hd) hi⟩

/-! ### Runs of steps -/

theorem core_run_succ (h : step s = .next t) (n : Nat) : core.run (n + 1) s = core.run n t := by
  have h' : core.step s = .next t := h
  simp only [Host.Core.run, h']

/-- A stopped machine runs no step. -/
theorem core_run_stopped {n : Nat} (hr : s.clock.running = false) (h : core.run n s = .next t) : n = 0 ∧ s = t := by
  cases n with
  | zero =>
    cases h
    exact ⟨rfl, rfl⟩
  | succ n =>
    have hstep : core.step s = .fault s.stopReason := if_neg (by simp [hr])
    simp only [Host.Core.run, hstep] at h
    cases h

/-- Two machines that agree and begin an instruction run alike. -/
theorem sameToProgram_run (n : Nat) {s' : State} (hs : s.Begins) (ht : t.Begins) (h : s.SameToProgram t)
    (hrun : core.run n s = .next s') :
    ∃ t', core.run n t = .next t' ∧ s'.SameToProgram t' ∧ s'.clock.running = t'.clock.running := by
  induction n generalizing s t with
  | zero =>
    cases hrun
    exact ⟨t, rfl, h, hs.canBegin.1.trans ht.canBegin.1.symm⟩
  | succ n ih =>
    obtain ⟨s₁, t₁, hs₁, ht₁, hsame, hnext⟩ := sameToProgram_step hs ht h
    rw [core_run_succ hs₁] at hrun
    rw [core_run_succ ht₁]
    rcases hnext with ⟨hbs, hbt⟩ | ⟨hrs, hrt⟩
    · exact ih hbs hbt hsame hrun
    · obtain ⟨rfl, rfl⟩ := core_run_stopped hrs hrun
      exact ⟨t₁, rfl, hsame, hrs.trans hrt.symm⟩

end

/-- Settles O31, by induction on the number of steps. The invariant is not needed beside the boundary. -/
theorem whatAProgramObservesDecidesItsRun : Obligations.WhatAProgramObservesDecidesItsRun := by
  intro n s t s' _ _ hpages hbs hbt hks hkt h hrun
  obtain ⟨-, -, -, -, -, -, -, hpagesEq, -⟩ := id h
  exact sameToProgram_run n ⟨hpages, hbs, hks⟩ ⟨hpagesEq ▸ hpages, hbt, hkt⟩ h hrun

end Sys2Proof.Machine
end

section
/-! PROOFS. The host's moves: what a load places in memory (60_exceptions.md R220), and that every move keeps the invariant
(R223, R224). -/

namespace Sys2Proof.Machine

/-! ### A load -/

/-- A cell an entry names holds that entry's byte, when no address comes twice. -/
theorem Memory.read_writeEntries_entry {m : Memory} (h : m.wf = true) {es : List (Nat × Byte)} (hnd : (es.map Prod.fst).Nodup)
    {j : Nat} {v : Byte} (hmem : (j, v) ∈ es) : (m.writeEntries es).read j = v := by
  induction es generalizing m with
  | nil => cases hmem
  | cons e es ih =>
    obtain ⟨hfirst, hrest⟩ := List.nodup_cons.1 hnd
    have hwf := Memory.wf_write h e.1 e.2
    rcases List.mem_cons.1 hmem with rfl | hin
    · rw [Memory.writeEntries, Memory.read_writeEntries_other hwf hfirst, Memory.read_write h, if_pos rfl]
    · exact ih hwf hrest hin

/-- The entries of a data map, as the bytes a load writes. -/
def dataEntries (data : List (Nat × Nat)) : List (Nat × Byte) := data.map fun e => (e.1, BitVec.ofNat 8 e.2)

theorem dataEntries_addresses (data : List (Nat × Nat)) : (dataEntries data).map Prod.fst = data.map Prod.fst := by
  simp [dataEntries]

/-- A memory after a load: the program from cell 0 on, then the data map. -/
def Memory.load (m : Memory) (program : List Nat) (data : List (Nat × Nat)) : Memory :=
  (m.writeFrom 0 (program.map fun v => BitVec.ofNat 8 v)).writeEntries (dataEntries data)

/-- A load that is allowed and fits changes memory alone. -/
theorem hostLoad_fits {program : List Nat} {data : List (Nat × Nat)} {s : State} (hs : s.clock.started = false)
    (hfit : loadFits s.params.cells program data = true) :
    hostLoad program data s = .next { s with mem := s.mem.load program data } := by
  rw [hostLoad, hs, hfit]
  rfl

theorem loadFits_iff {cells : Nat} {program : List Nat} {data : List (Nat × Nat)} :
    loadFits cells program data = true ↔
      (program.length ≤ cells ∧ ∀ v ∈ program, v < 256) ∧ ∀ e ∈ data, e.1 < cells ∧ e.2 < 256 := by
  simp [loadFits]

section
variable {m : Memory} {program : List Nat} {data : List (Nat × Nat)}

theorem Memory.wf_load (h : m.wf = true) : (m.load program data).wf = true :=
  Memory.wf_writeEntries (Memory.wf_writeFrom h _ _) _

theorem Memory.within_load {cells : Nat} (h : m.within cells = true) (hfit : loadFits cells program data = true) :
    (m.load program data).within cells = true := by
  obtain ⟨⟨hlength, -⟩, hdata⟩ := loadFits_iff.1 hfit
  refine Memory.within_writeEntries (Memory.within_writeFrom h 0 _ (by simpa using hlength)) _ fun e he => ?_
  obtain ⟨d, hd, rfl⟩ := List.mem_map.1 he
  exact (hdata d hd).1

theorem Memory.read_load_data (h : m.wf = true) (hnd : (data.map Prod.fst).Nodup) {i v : Nat} (hmem : (i, v) ∈ data) :
    (m.load program data).read i = BitVec.ofNat 8 v :=
  Memory.read_writeEntries_entry (Memory.wf_writeFrom h _ _) (by rwa [dataEntries_addresses])
    (List.mem_map.2 ⟨(i, v), hmem, rfl⟩)

theorem Memory.read_load_program (h : m.wf = true) {i : Nat} (hi : i ∉ data.map Prod.fst) :
    (m.load program data).read i = ((program[i]?).map (BitVec.ofNat 8)).getD (m.read i) := by
  rw [Memory.load, Memory.read_writeEntries_other (Memory.wf_writeFrom h _ _) (by rwa [dataEntries_addresses]),
    Memory.read_writeFrom h, if_pos (Nat.zero_le i), Nat.sub_zero, List.getElem?_map]

end

/-- Settles O51: a cell the data map names holds its entry, and the entries leave the others as the program wrote them. -/
theorem loadPlacesProgramThenData : Obligations.LoadPlacesProgramThenData := by
  intro program data s hwf hs hfit hnd
  refine ⟨_, hostLoad_fits hs hfit, rfl, fun i v => Memory.read_load_data hwf hnd, fun i hi => ?_⟩
  refine (Memory.read_load_program hwf hi).trans ?_
  cases program[i]? <;> rfl

/-! ### The invariant over host actions -/

/-- What a host action may change: memory, kept canonical and inside the address space, and the clock, but for its output bit
and the halt of a fatal error. -/
theorem State.Inv.with_mem_clock {s : State} (h : s.Inv) {m : Memory} {c : Clock} (hm : m.wf = true)
    (hin : m.within s.params.cells = true) (ho : c.output = s.clock.output)
    (hhalt : s.clock.haltCalled = true → c.haltCalled = true) : State.Inv { s with mem := m, clock := c } := by
  obtain ⟨hp, -, -, hptr, hpub, hflags, hw, halu, hq, hc, hfault⟩ := h
  refine ⟨hp, hm, hin, hptr, hpub, hflags, hw, halu, fun hlow => ?_, hc, fun hf => hhalt (hfault hf)⟩
  obtain ⟨hpins, hmodes, hsub, hout⟩ := hq (ho.symm.trans hlow)
  exact ⟨hpins, hmodes, hsub, hlow⟩

theorem hostLoad_next {program : List Nat} {data : List (Nat × Nat)} {s t : State}
    (h : hostLoad program data s = .next t) :
    loadFits s.params.cells program data = true ∧ t = { s with mem := s.mem.load program data } := by
  unfold hostLoad at h
  split_ifs at h with hs hfit
  cases h
  exact ⟨hfit, rfl⟩

theorem hostStart_next {period : Nat} {s t : State} (h : hostStart period s = .next t) :
    t = s ∨ t = { s with clock := { s.clock with started := true, period := period } } := by
  unfold hostStart at h
  split_ifs at h
  all_goals cases h
  · exact .inl rfl
  · exact .inr rfl

theorem State.Inv.hostAction {s t : State} {a : HostAction} (h : s.Inv) (ha : hostAction a s = .next t) : t.Inv := by
  have hs := State.Inv.sound h
  cases a with
  | load program data =>
    obtain ⟨hfit, rfl⟩ := hostLoad_next ha
    exact State.Inv.with_mem_clock h (c := s.clock) (Memory.wf_load hs.canonical) (Memory.within_load hs.within hfit) rfl id
  | start period =>
    rcases hostStart_next ha with rfl | rfl
    · exact h
    · exact State.Inv.with_mem_clock h hs.canonical hs.within rfl id
  | halt =>
    cases ha
    exact State.Inv.with_mem_clock h hs.canonical hs.within rfl fun _ => rfl
  | snapshot =>
    cases ha
    exact h

theorem State.Inv.move {s t : State} {m : Move} (h : s.Inv) (hm : move m s = .next t) : t.Inv := by
  cases m with
  | edge => exact everyEdgeKeepsTheInvariant s t h hm
  | host a => exact State.Inv.hostAction h hm

theorem runMoves_cons {m : Move} {ms : List Move} {s u : State} (h : runMoves (m :: ms) s = .next u) :
    ∃ t, move m s = .next t ∧ runMoves ms t = .next u := by
  unfold runMoves at h
  split at h
  · next t ht => exact ⟨t, ht, h⟩
  · cases h
  · cases h

/-- Settles O45, by induction on the list of moves. -/
theorem everyRunOfMovesKeepsTheInvariant : Obligations.EveryRunOfMovesKeepsTheInvariant := by
  intro ms s t h hrun
  induction ms generalizing s with
  | nil =>
    cases hrun
    exact h
  | cons m ms ih =>
    obtain ⟨u, hm, hu⟩ := runMoves_cons hrun
    exact ih u (State.Inv.move h hm) hu

end Sys2Proof.Machine
end

section
/-! PROOFS. Memory as the instructions use it: the cell each one stores to and what that means for the next fetch (20_memory.md
R64, R66), and the fetch past the end (R55). -/

namespace Sys2Proof.Machine

/-! ### The cell an instruction stores to -/

/-- The byte an instruction stores to the cell of its operand, if it stores one (43_stores.md R170, R171, 44_swaps.md R181,
R182). -/
def State.storedByte? (s : State) : Instr → Option Byte
  | .stoa _ => some s.a
  | .stoo _ => some s.o
  | .swab _ | .swao _ =>
    match s.params.swap with
    | .exchange => some s.a
    | .transfer => none
  | _ => none

section
variable {s : State} {i : Instr}

/-- The memory an instruction leaves. -/
theorem completed_mem :
    (s.completed i).mem = (s.storedByte? i).elim s.mem (s.mem.write i.operand.toNat) := by
  cases i
  case swab | swao => simp only [State.completed, State.storedByte?]; cases s.params.swap <;> rfl
  case jmpz | jmpc => simp only [State.completed]; split <;> rfl
  all_goals rfl

theorem completed_read_other (hwf : s.mem.wf = true) {k : Nat} (hk : k ≠ i.operand.toNat) :
    (s.completed i).mem.read k = s.mem.read k := by
  rw [completed_mem]
  cases s.storedByte? i with
  | none => rfl
  | some v => exact (Memory.read_write hwf _ k v).trans (if_neg hk)

theorem completed_read_operand (hwf : s.mem.wf = true) :
    (s.completed i).mem.read i.operand.toNat = (s.storedByte? i).getD (s.mem.read i.operand.toNat) := by
  rw [completed_mem]
  cases s.storedByte? i with
  | none => rfl
  | some v => exact (Memory.read_write hwf _ _ v).trans (if_pos rfl)

end

/-- Settles O28, from the memory each instruction leaves (`completed_mem`). -/
theorem onlyTheStoredCellOfMemoryChanges : Obligations.OnlyTheStoredCellOfMemoryChanges := by
  intro i s h hin hwf
  refine ⟨_, exec_completed h hin, fun k hk => completed_read_other hwf hk, (completed_read_operand hwf).trans ?_⟩
  cases i
  case swab | swao => simp only [State.storedByte?]; cases s.params.swap <;> rfl
  all_goals rfl

/-! ### A store to the address of the next instruction -/

section
variable {s : State} {i : Instr} {v : Byte}

/-- What an instruction that stores leaves besides: it is no jump and no halt, so the PC moves on by one, and IR holds the
fetched byte. -/
theorem completed_of_stored (h : s.storedByte? i = some v) :
    (s.completed i).pc = s.pc + 1 ∧ (s.completed i).ir = s.fetchByte ∧ i.mnemonic ≠ .hlt := by
  cases i
  case stoa | stoo => exact ⟨rfl, rfl, nofun⟩
  case swab | swao => simp only [State.completed]; split <;> exact ⟨rfl, rfl, nofun⟩
  all_goals cases h

theorem storedByte?_eq_some (h : (i.mnemonic = .stoa ∧ v = s.a) ∨ (i.mnemonic = .stoo ∧ v = s.o) ∨
    (i.mnemonic ∈ [.swab, .swao] ∧ s.params.swap = .exchange ∧ v = s.a)) : s.storedByte? i = some v := by
  rcases h with ⟨hi, rfl⟩ | ⟨hi, rfl⟩ | ⟨hi, hswap, rfl⟩
  · cases i <;> cases hi
    rfl
  · cases i <;> cases hi
    rfl
  · cases i
    case swab | swao => simp only [State.storedByte?, hswap]
    all_goals simp [Instr.mnemonic] at hi

theorem decode_of_unassigned {m : OpcodeMap} {b : Byte} (h : ∀ k, m.code k ≠ b.high) :
    decode m b = .error (.opcodeUnassigned b.high) := by
  have hnone : m.mnemonic? b.high = none := by
    rw [← Option.not_isSome_iff_eq_none, mnemonic?_isSome_iff]
    exact fun ⟨k, hk⟩ => h k hk
  rw [decode, hnone]

/-- An instruction that has run leaves its own opcode published, which its map knows. -/
theorem completed_ready_lookupKnown (h : s.ReadyFor i) : (s.completed i).LookupKnown := by
  obtain ⟨-, -, hbyte⟩ := h
  obtain ⟨hparams, -, -, hpublished⟩ := completed_kept (s := s) (i := i)
  rw [State.LookupKnown, hparams, hpublished, hbyte, encode_high]
  exact mnemonic?_isSome_iff.2 ⟨_, rfl⟩

end

/-- Settles O30: the instruction leaves a boundary whose fetch address is the cell it stored to. -/
theorem aStoredByteIsTheNextInstruction : Obligations.AStoredByteIsTheNextInstruction := by
  intro i s v h hwf hnext hin hstores
  have hv := storedByte?_eq_some hstores
  obtain ⟨hpc, hir, hhlt⟩ := completed_of_stored hv
  obtain ⟨hb, -, hbyte⟩ := id h
  have hparams := (completed_kept (s := s) (i := i)).1
  have hlow : (s.completed i).pc.low = i.operand := by rw [hpc, hnext]
  have hfetch : (s.completed i).fetchByte = v := by
    rw [State.fetchByte, State.fetchAddress, hlow, completed_read_operand hwf, hv]
    rfl
  have hb' := completed_canBegin hb hhlt
  have hk' := completed_ready_lookupKnown h
  have hin' : (s.completed i).InMemory (s.completed i).pc.low := by rwa [hlow, State.InMemory, hparams]
  refine ⟨_, exec_completed h hin, hir.trans hbyte, hfetch, fun j hj => ?_, fun hnone => ?_⟩
  · exact stepRunsTheDecodedInstruction _ j hb' hk' hin' (by rwa [hparams, hfetch])
  · exact step_of_reject hb' hk' hin' (by rw [hparams, hfetch]; exact decode_of_unassigned hnone)

/-! ### A fetch past the end -/

theorem fetchOutOfRange_running (s : State) : s.fetchOutOfRange.clock.running = false := by
  simp [State.fetchOutOfRange, State.stoppedBy, State.stoppedHigh, Clock.running]

/-- A step of a clock that is not running. -/
theorem step_stopped {s : State} (h : s.clock.running = false) : step s = .fault s.stopReason := by simp [step, h]

/-- Settles O23: the step is the stopped fetch, and a core stopped by an error has no next step. -/
theorem fetchPastTheEndStopsTheCore : Obligations.FetchPastTheEndStopsTheCore := by
  intro s hb hk hout
  obtain ⟨hr, ⟨hc, -, -, -, ho⟩, hf⟩ := id hb
  have hfetch : s.fetch = s.fetchOutOfRange :=
    runFetch_outOfRange hb hout (tableWord_prefix hk hf hc (by decide))
      (tableWord_prefix (s := s.afterStep0) hk hf (k := 1) rfl (by decide))
  have hstop := fetchOutOfRange_running s
  refine ⟨?_, step_stopped hstop⟩
  rw [step_fetches hr fun _ => ho, hfetch, finishStep_stopped hstop]

end Sys2Proof.Machine
end

section
/-! PROOFS. The byte of an instruction (30_encoding.md R70 to R75): the decoder and the encoder are inverse to each other, and
what the decoder rejects. -/

namespace Sys2Proof.Machine

theorem instr_mnemonic_operand (i : Instr) : i.mnemonic.instr i.operand = i := by cases i <;> rfl

theorem mem_mnemonics (k : Mnemonic) : k ∈ Mnemonic.all := by cases k <;> decide

/-- A well-formed instruction's mnemonic is the only one with its opcode. -/
theorem wellFormed_iff {m : OpcodeMap} {i : Instr} :
    i.wellFormed m = true ↔ ∀ k, m.code k = m.code i.mnemonic → k = i.mnemonic := by
  simp [Instr.wellFormed, mem_mnemonics, or_iff_not_imp_right]

theorem injective_iff {m : OpcodeMap} : m.injective = true ↔ Function.Injective m.code := by
  have hall : Mnemonic.all.Nodup := by decide
  simp only [OpcodeMap.injective, decide_eq_true_eq, List.nodup_map_iff_inj_on hall]
  exact ⟨fun h j k => h j (mem_mnemonics j) k (mem_mnemonics k), fun h j _ k _ => @h j k⟩

/-- The decoder's search finds a well-formed instruction's own mnemonic. -/
theorem mnemonic?_code {m : OpcodeMap} {i : Instr} (h : i.wellFormed m = true) :
    m.mnemonic? (m.code i.mnemonic) = some i.mnemonic := by
  obtain ⟨k, hk⟩ := Option.isSome_iff_exists.1 (mnemonic?_isSome_iff.2 ⟨i.mnemonic, rfl⟩)
  rw [hk, wellFormed_iff.1 h k (code_of_mnemonic hk)]

/-- Settles O1: the opcode field finds the mnemonic, and the operand field is the operand. -/
theorem decodeOfEncodeIsTheInstruction : Obligations.DecodeOfEncodeIsTheInstruction := by
  intro m i h
  rw [decode, encode_high, mnemonic?_code h, encode_low]
  exact congrArg Except.ok (instr_mnemonic_operand i)

/-- Settles O2. -/
theorem encodeOfDecodeIsTheByte : Obligations.EncodeOfDecodeIsTheByte := fun _ _ _ => encode_of_decode

/-- A byte whose opcode some mnemonic has decodes. -/
theorem decode_of_assigned {m : OpcodeMap} {b : Byte} {k : Mnemonic} (h : m.code k = b.high) : ∃ i, decode m b = .ok i := by
  obtain ⟨j, hj⟩ := Option.isSome_iff_exists.1 (mnemonic?_isSome_iff.2 ⟨k, h⟩)
  exact ⟨j.instr b.low, by rw [decode, hj]⟩

/-- Settles O3. -/
theorem decodeRejectsExactlyUnassignedOpcodes : Obligations.DecodeRejectsExactlyUnassignedOpcodes := by
  refine fun m b => ⟨⟨fun hreject k hk => ?_, decode_of_unassigned⟩, fun hinj i => ?_⟩
  · obtain ⟨i, hi⟩ := decode_of_assigned hk
    cases hreject.symm.trans hi
  · exact wellFormed_iff.2 fun k hk => injective_iff.1 hinj hk

/-- Settles O22: the miss at step 2 is `step_of_reject`, and the stop has set `faulted`. -/
theorem unassignedOpcodeRaisesDecodeError : Obligations.UnassignedOpcodeRaisesDecodeError := fun s hb hk hin hnone =>
  ⟨step_of_reject hb hk hin (decode_of_unassigned hnone), step_stopped (stoppedByDecode_running s)⟩

/-- Settles O4. -/
theorem tableBytesDecodeAsListed : Obligations.TableBytesDecodeAsListed :=
  ⟨rfl, rfl, rfl, rfl, rfl, rfl, rfl, rfl, rfl, rfl, rfl, rfl, rfl⟩

/-! ### The byte `withFetchWord` places -/

theorem decode_of_tableWord {nbits w : Nat} {i : Instr} (h : decodeTableWord nbits w = some i) :
    decode .default (BitVec.ofNat 8 (w % 2 ^ nbits)) = .ok i := by
  unfold decodeTableWord at h
  split at h
  · next j hj =>
    cases h
    exact hj
  · cases h

/-- From reset, placing a word is the host's load of its byte as the whole program, and a start with period 0. -/
theorem withFetchWord_reset (nbits w : Nat) : State.reset.withFetchWord nbits w = State.booted [w % 2 ^ nbits] [] 0 := rfl

/-- Settles O55: the boot (O54) of a program that is this byte. -/
theorem placedByteRunsAsTheFirstInstruction : Obligations.PlacedByteRunsAsTheFirstInstruction := by
  intro w i h
  have hfit : loadFits 16 [w % 2 ^ 8] [] = true := by simp [loadFits, Nat.mod_lt]
  obtain ⟨s, hs, -, hready, hstep⟩ :=
    bootRunsTheByteAtAddressZero (w % 2 ^ 8) 0 [] [] i hfit List.not_mem_nil (decode_of_tableWord h)
  rw [boot_eq hfit] at hs
  cases hs
  rw [withFetchWord_reset]
  exact ⟨hready, hstep⟩

end Sys2Proof.Machine
end

section
/-! PROOFS. The discipline of the microcode table (30_encoding.md R94 to R96): what its words assert together, and where in a row
the yield and HLT words stand. -/

namespace Sys2Proof.Machine

/-! ### The words -/

/-- The READ pins: the `in` pin of each device that has one (30_encoding.md R76). -/
def readPins : List Pin := fanOutOrder.filterMap Device.inPin?

/-- The WRITE pins: the `out` pin of each device (30_encoding.md R76). -/
def writePins : List Pin := fanOutOrder.map Device.outPin

/-- A decidable property of every word of a list, checked word by word. -/
theorem forall_mem_of_all {P : MicroWord → Prop} [DecidablePred P] {ws : List MicroWord}
    (h : ws.all (fun w => decide (P w)) = true) : ∀ w ∈ ws, P w := by simpa using h

theorem tableWords_one_write : ∀ w ∈ tableWords, (writePins.filter (asserts w)).length ≤ 1 := fun w hw => by
  have hone := of_decide_eq_true (List.all_eq_true.1 tableWords_one_out w hw)
  rwa [writePins, List.filter_map, List.length_map]

theorem tableWords_write_of_read :
    ∀ w ∈ tableWords, readPins.any (asserts w) = true → (writePins.filter (asserts w)).length = 1 := forall_mem_of_all (by decide)

theorem tableWords_ri : ∀ w ∈ tableWords, asserts w .ri = true → ∀ p ∈ [Pin.mi, .co, .mo, .io], asserts w p = false :=
  forall_mem_of_all (by decide)

theorem tableWords_ce :
    ∀ w ∈ tableWords, asserts w .ce = true → asserts w .co = false ∧ asserts w .ci = false := forall_mem_of_all (by decide)

theorem tableWords_no_mo : ∀ w ∈ tableWords, asserts w .mo = false := forall_mem_of_all (by decide)

theorem tableWords_hlt : ∀ w ∈ tableWords, asserts w .hlt = true → w = 0x40000 := forall_mem_of_all (by decide)

/-! ### The rows -/

/-- Every sequence is the three fetch words (30_encoding.md R91), none, one or three words of its own that do not yield, and the
yield word. -/
theorem microcodeRow_eq_sequence (semantics : SwapSemantics) (k : Mnemonic) (v : FlagVariant) :
    ∃ body, microcodeRow semantics k v = sequence body ∧ body.length ∈ [0, 1, 3] ∧ ∀ w ∈ body, asserts w .yld = false := by
  cases semantics <;> cases k <;> cases v <;> exact ⟨_, rfl, by decide, forall_mem_of_all (by decide)⟩

theorem sequence_getLast? (body : List MicroWord) : (sequence body).getLast? = some yieldWord := by
  simp [sequence]

theorem sequence_dropLast (body : List MicroWord) : (sequence body).dropLast = prefixWords ++ body := by
  rw [sequence, List.dropLast_concat]

theorem length_sequence (body : List MicroWord) : (sequence body).length = body.length + 4 := by
  simp [sequence, prefixWords]

theorem prefixWords_no_yield : ∀ w ∈ prefixWords, asserts w .yld = false := forall_mem_of_all (by decide)

/-- Only HLT's row has the HLT word (30_encoding.md R92). -/
theorem mnemonic_of_hlt {semantics : SwapSemantics} {k : Mnemonic} {v : FlagVariant} {w : MicroWord}
    (h : w ∈ microcodeRow semantics k v) (hh : asserts w .hlt = true) : k = .hlt := by
  by_contra hk
  have hnone : ∀ w ∈ microcodeRow semantics k v, asserts w .hlt = false := by
    cases k
    case hlt => exact absurd rfl hk
    all_goals cases semantics <;> cases v <;> exact forall_mem_of_all (by decide)
  simp [hnone w h] at hh

/-- Settles O37: each word is one of the table's, and each row is a sequence. -/
theorem microcodeTableKeepsItsDiscipline : Obligations.MicrocodeTableKeepsItsDiscipline := by
  intro semantics k v
  obtain ⟨body, hrow, -, hyield⟩ := microcodeRow_eq_sequence semantics k v
  refine ⟨by rw [hrow, sequence_getLast?]; rfl, fun w hw => ?_, fun w hw => ?_⟩
  · rw [hrow, sequence_dropLast] at hw
    exact (List.mem_append.1 hw).elim (prefixWords_no_yield w) (hyield w)
  · have ht := microcodeRow_mem semantics k v w hw
    exact ⟨tableWords_one_write w ht, tableWords_write_of_read w ht, tableWords_ri w ht, tableWords_ce w ht,
      tableWords_no_mo w ht, modeOf_alu_ne_read w, fun hh => ⟨tableWords_hlt w ht hh, mnemonic_of_hlt hw hh⟩⟩

theorem microcodeRow_variant (semantics : SwapSemantics) {k : Mnemonic} (hz : k ≠ .jmpz) (hc : k ≠ .jmpc)
    (v w : FlagVariant) : microcodeRow semantics k v = microcodeRow semantics k w := by
  cases k
  case jmpz => exact absurd rfl hz
  case jmpc => exact absurd rfl hc
  all_goals rfl

/-- Settles O38. -/
theorem onlyJumpsBranchOnTheFlagVariant : Obligations.OnlyJumpsBranchOnTheFlagVariant := by
  refine ⟨fun semantics k v w hz hc => microcodeRow_variant semantics hz hc v w, fun semantics k v => ?_⟩
  obtain ⟨body, hrow, hlen, -⟩ := microcodeRow_eq_sequence semantics k v
  rw [hrow, length_sequence]
  simpa using hlen

end Sys2Proof.Machine
end

section
/-! PROOFS. The settling property (40_cycle.md R110, 30_encoding.md R95): every word of the table has one device drive the bus
and one latch it, or moves nothing. -/

namespace Sys2Proof.Machine

/-- A device holds the bus byte: AR its low 4 bits, Memory in the cell at its pointer. The ALU has no latch. -/
def State.HoldsBus (t : State) : Device → Prop
  | .alu => False
  | .a => t.a = t.bus
  | .b => t.b = t.bus
  | .o => t.o = t.bus
  | .memory => t.mem.read t.pointer.toNat = t.bus
  | .pc => t.pc = t.bus
  | .ar => t.ar = t.bus.low
  | .ir => t.ir = t.bus

/-- The bus of `t` holds what a device drives in an edge from `s` (40_cycle.md R112, R113, R117); the ALU drives a fresh compute.
AR drives in no edge. -/
def State.BusDrivenBy (s t : State) : Device → Prop
  | .alu => t.bus = t.alu.out ∧ t.alu.out = (aluCompute s.a s.b t.alu.subtractMode).out
  | .a => t.bus = s.a
  | .b => t.bus = s.b
  | .o => t.bus = s.o
  | .memory => t.bus = s.mem.read s.pointer.toNat
  | .pc => t.bus = s.pc
  | .ar => False
  | .ir => t.bus = irDrive s.params.irDrive s.ir

/-- What the bus and the devices have settled on in `t`, after a rising edge from `s`. -/
structure Settled (s t : State) : Prop where
  readers : ∀ d, t.modes.get d = .read → t.HoldsBus d
  driven : (∃ d, t.modes.get d = .read) → ∃ d, t.modes.get d = .write
  writers : ∀ d, t.modes.get d = .write → s.BusDrivenBy t d

theorem Settled.of_float {s t : State} (h : t.modes = .allFloat) : Settled s t := by
  have hfloat (d : Device) : t.modes.get d = .float := h ▸ Modes.get_allFloat d
  constructor <;> simp [hfloat]

/-- One device in READ mode, which holds the bus, and one in WRITE mode, which drove it. -/
theorem Settled.of_pair {s t : State} {r w : Device} (hm : t.modes = (Modes.allFloat.set r .read).set w .write)
    (hr : t.HoldsBus r) (hw : s.BusDrivenBy t w) : Settled s t := by
  have hwriter : t.modes.get w = .write := by rw [hm, Modes.get_set_same]
  have hother {d : Device} (hd : d ≠ w) : t.modes.get d = if d = r then .read else .float := by
    rw [hm, Modes.get_set_other _ hd]
    split
    · next h => rw [h, Modes.get_set_same]
    · next h => rw [Modes.get_set_other _ h, Modes.get_allFloat]
  refine ⟨fun d hd => ?_, fun _ => ⟨w, hwriter⟩, fun d hd => ?_⟩
  · have hdw : d ≠ w := by
      rintro rfl
      cases hwriter.symm.trans hd
    have hdr : d = r := by
      by_contra h
      simp [hother hdw, h] at hd
    exact hdr ▸ hr
  · have hdw : d = w := by
      by_contra h
      rw [hother h] at hd
      split at hd <;> cases hd
    exact hdw ▸ hw

/-! ### The words of the table -/

/-- From `s` the fan-out of word `w`, if it goes through, settles. -/
def FanOutSettles (s : State) (w : MicroWord) : Prop := s.pins = w → ∀ u, s.updateAllPins = .going u → Settled s u

theorem fanOutSettles_of_going {s g : State} {w : MicroWord} (hg : s.pins = w → s.updateAllPins = .going g)
    (h : Settled s g) : FanOutSettles s w := by
  intro hp u hu
  cases (hg hp).symm.trans hu
  exact h

/-- A word in which Memory acts goes through only where the pointer is in range. -/
theorem fanOutSettles_of_memory {s g f : State} {w : MicroWord}
    (hin : s.pins = w → s.pointerInRange = true → s.updateAllPins = .going g)
    (hout : s.pins = w → s.pointerInRange = false → s.updateAllPins = .stopped f) (h : Settled s g) : FanOutSettles s w := by
  intro hp u hu
  cases hr : s.pointerInRange with
  | true =>
    cases (hin hp hr).symm.trans hu
    exact h
  | false => cases (hout hp hr).symm.trans hu

theorem Memory.read_write_same {m : Memory} (h : m.wf = true) (i : Nat) (v : Byte) : (m.write i v).read i = v := by
  rw [Memory.read_write h, if_pos rfl]

theorem tableWords_settle {s : State} (hm : s.modes = .allFloat) (hwf : s.mem.wf = true) :
    ∀ w ∈ tableWords, FanOutSettles s w := by
  have hstored (v : Byte) := Memory.read_write_same hwf s.pointer.toNat v
  simp only [tableWords, List.forall_mem_cons, List.not_mem_nil, false_implies, implies_true, and_true]
  refine ⟨?_, ?_, ?_, ?_, ?_, ?_, ?_, ?_, ?_, ?_, ?_, ?_, ?_, ?_, ?_, ?_, ?_, ?_, ?_⟩
  · exact fanOutSettles_of_going (fanOut_co_mi asks_co_mi hm) (.of_pair (r := .ar) (w := .pc) rfl rfl rfl)
  · exact fanOutSettles_of_memory (fanOut_ro_ii_ce asks_ro_ii_ce asks_ro_ii hm) (fanOut_ro_ii_ce_outOfRange asks_ro_ii_ce hm)
      (.of_pair (r := .ir) (w := .memory) rfl rfl rfl)
  · exact fanOutSettles_of_going (fanOut_io_mi asks_io_mi hm) (.of_pair (r := .ar) (w := .ir) rfl rfl rfl)
  · exact fanOutSettles_of_memory (fanOut_ro_ai asks_ro_ai hm) (fanOut_ro_ai_outOfRange asks_ro_ai hm)
      (.of_pair (r := .a) (w := .memory) rfl rfl rfl)
  · exact fanOutSettles_of_memory (fanOut_ro_bi asks_ro_bi hm) (fanOut_ro_bi_outOfRange asks_ro_bi hm)
      (.of_pair (r := .b) (w := .memory) rfl rfl rfl)
  · exact fanOutSettles_of_memory (fanOut_ro_oi asks_ro_oi hm) (fanOut_ro_oi_outOfRange asks_ro_oi hm)
      (.of_pair (r := .o) (w := .memory) rfl rfl rfl)
  · exact fanOutSettles_of_memory (fanOut_ao_ri asks_ao_ri hm) (fanOut_ao_ri_outOfRange asks_ao_ri hm)
      (.of_pair (r := .memory) (w := .a) rfl (hstored s.a) rfl)
  · exact fanOutSettles_of_memory (fanOut_oo_ri asks_oo_ri hm) (fanOut_oo_ri_outOfRange asks_oo_ri hm)
      (.of_pair (r := .memory) (w := .o) rfl (hstored s.o) rfl)
  · exact fanOutSettles_of_going (fanOut_bo_ai asks_bo_ai hm) (.of_pair (r := .a) (w := .b) rfl rfl rfl)
  · exact fanOutSettles_of_going (fanOut_oo_ai asks_oo_ai hm) (.of_pair (r := .a) (w := .o) rfl rfl rfl)
  · exact fanOutSettles_of_going (fanOut_ao_bi asks_ao_bi hm) (.of_pair (r := .b) (w := .a) rfl rfl rfl)
  · exact fanOutSettles_of_going (fanOut_ao_oi asks_ao_oi hm) (.of_pair (r := .o) (w := .a) rfl rfl rfl)
  · exact fanOutSettles_of_going (fanOut_io_ci asks_io_ci hm) (.of_pair (r := .pc) (w := .ir) rfl rfl rfl)
  · exact fanOutSettles_of_going (fanOut_eo_ai asks_eo_ai hm) (.of_pair (r := .a) (w := .alu) rfl rfl ⟨rfl, rfl⟩)
  · exact fanOutSettles_of_going (fanOut_eo_oi asks_eo_oi hm) (.of_pair (r := .o) (w := .alu) rfl rfl ⟨rfl, rfl⟩)
  · exact fanOutSettles_of_going (fanOut_eo_su_ai asks_eo_su_ai hm) (.of_pair (r := .a) (w := .alu) rfl rfl ⟨rfl, rfl⟩)
  · exact fanOutSettles_of_going (fanOut_eo_su_oi asks_eo_su_oi hm) (.of_pair (r := .o) (w := .alu) rfl rfl ⟨rfl, rfl⟩)
  · exact fanOutSettles_of_going (fanOut_nothing ⟨by intro d; cases d <;> rfl, rfl, rfl, rfl⟩) (.of_float rfl)
  · exact fanOutSettles_of_going (fanOut_nothing ⟨by intro d; cases d <;> rfl, rfl, rfl, rfl⟩) (.of_float rfl)

/-! ### A rising edge -/

/-- An executed word of the table that raises no fatal error settles. -/
theorem executeWord_settled {s : State} (hm : s.modes = .allFloat) (hwf : s.mem.wf = true)
    (hf : (s.executeWord s.tableWord?).faulted = false) : Settled s (s.executeWord s.tableWord?) := by
  cases hw : s.tableWord? with
  | none =>
    rw [hw] at hf
    cases hf
  | some w =>
    rw [hw] at hf
    have hmem := tableWord_mem hw
    cases hy : asserts w .yld with
    | true =>
      rw [executeWord_yield hy]
      exact .of_float hm
    | false =>
      rcases tableWords_fanOutEnds (s := { s with pins := w }) hm w hmem rfl with ⟨u, hu⟩ | ⟨-, -, u, hu, -⟩
      · obtain ⟨readers, driven, writers⟩ := tableWords_settle (s := { s with pins := w }) hm hwf w hmem rfl u hu
        obtain ⟨c, hex⟩ := executeWord_advances hy hu
        rw [hex]
        exact ⟨readers, driven, writers⟩
      · rw [executeWord_stopped hy hu] at hf
        cases hf

/-- Settles O36: the edge executes a word from the quiet. -/
theorem readersSettleOnTheBusByte : Obligations.ReadersSettleOnTheBusByte := by
  intro s t h ho hedge hfault
  have hwf := (State.Inv.sound h).canonical
  obtain ⟨-, -, -, -, -, -, -, -, hq, -⟩ := h
  obtain ⟨-, hm, -⟩ := hq ho
  obtain ⟨-, rfl⟩ := clockEdge_next hedge
  rw [tick_rising ho] at hfault ⊢
  obtain ⟨readers, driven, writers⟩ := executeWord_settled (s := s.countTick) hm hwf hfault
  exact ⟨readers .a, readers .b, readers .o, readers .memory, readers .pc, readers .ar, readers .ir, driven,
    writers .alu, writers .a, writers .b, writers .o, writers .memory, writers .pc, writers .ir, writers .ar⟩

end Sys2Proof.Machine
end

section
/-! PROOFS. The clock's two ends: an edge of a clock that stands still, and the falling edge, the HLT word and the yield word of
one that runs. -/

namespace Sys2Proof.Machine

theorem clockEdge_stopped {s : State} (h : s.clock.running = false) : clockEdge s = .fault s.stopReason := by
  simp [clockEdge, h]

theorem exec_stopped {s : State} (h : s.clock.running = false) (i : Instr) : exec i s = .fault s.stopReason := by
  simp [exec_eq, State.runInstruction, h]

/-- Settles O35. -/
theorem aClockThatIsNotRunningStandsStill : Obligations.AClockThatIsNotRunningStandsStill := fun _ i h =>
  ⟨clockEdge_stopped h, step_stopped h, exec_stopped h i⟩

/-- Settles O32. -/
theorem fallingEdgeOnlyFloats : Obligations.FallingEdgeOnlyFloats := fun s hr ho => by
  rw [clockEdge_running hr, tick_falling ho]

theorem stoppedHigh_running (s : State) : s.stoppedHigh.clock.running = false := by simp [State.stoppedHigh, Clock.running]

/-- The yield word's rising edge (40_cycle.md R120). -/
theorem tick_yield {l : State → Option MicroWord} {s : State} (ho : s.clock.output = false) (hl : l s = some yieldWord) :
    s.tick l =
      { s with
        cursor := 0
        pins := yieldWord
        clock := { s.clock with output := true, edges := s.clock.edges + 1 } } := by
  rw [tick_rising ho, hl, executeWord_yield rfl]
  simp [State.countTick, ho]

/-- A microcode word of the table takes two clock edges. -/
theorem clockEdges_two {s t : State} (hr : s.clock.running = true) (h : Microstep State.tableWord? s t) :
    clockEdges 2 s = .next t := by
  simp [clockEdges, clockEdge_running hr, clockEdge_running (h.running.trans hr), h.ticks]

/-- Settles O34: the two words are `0x40000` and `0x20000`. -/
theorem hltAndYieldWordsMoveNothing : Obligations.HltAndYieldWordsMoveNothing := by
  intro s hr q
  have ⟨_, _, _, ho⟩ := q
  refine ⟨fun hw => ⟨_, rfl, ?_, _, clockEdge_stopped (stoppedHigh_running _)⟩, fun hw => ⟨?_, ?_⟩⟩
  · rw [clockEdge_running hr, tick_hlt q hw]
    rfl
  · rw [clockEdge_running hr, tick_yield ho hw]
    rfl
  · exact clockEdges_two hr (microstep_yield q hw)

end Sys2Proof.Machine
end

section
/-! PROOFS. The host's halt in a run of moves (40_cycle.md R103, 60_exceptions.md R219, R223). -/

namespace Sys2Proof.Machine

theorem haltClock_of_halted {s : State} (h : s.clock.haltCalled = true) : s.haltClock = s := by
  obtain ⟨a, b, o, pc, ar, ir, ci, cur, pins, z, c, alu, modes, bus, mem, ptr, ⟨st, hc, co, pe, ed⟩, errs, f, params⟩ := s
  cases h
  rfl

/-- A move of a started core whose clock was halted has no next state but the same: an edge faults, a load is refused, and the
other host actions change nothing. -/
theorem move_halted {m : Move} {s t : State} (hs : s.clock.started = true) (hh : s.clock.haltCalled = true)
    (hm : move m s = .next t) : t = s := by
  cases m with
  | edge => exact absurd (clockEdge_next hm).1 (by simp [Clock.running, hh])
  | host action =>
    cases action with
    | load program data => simp [move, hostAction, hostLoad, hs] at hm
    | start period =>
      simp only [move, hostAction, hostStart, if_pos hh] at hm
      cases hm
      rfl
    | halt =>
      cases hm
      exact haltClock_of_halted hh
    | snapshot =>
      cases hm
      rfl

/-- Settles O56, by induction on the list of moves. -/
theorem aHaltedCoreNeverChangesAgain : Obligations.AHaltedCoreNeverChangesAgain := by
  intro ms s t hs hh hrun
  induction ms with
  | nil =>
    cases hrun
    rfl
  | cons m ms ih =>
    obtain ⟨u, hm, hu⟩ := runMoves_cons hrun
    obtain rfl := move_halted hs hh hm
    exact ih hu

/-- A run of moves with one more at its end is the run and then that move. -/
theorem runMoves_concat {ms : List Move} {m : Move} {s t : State} (h : runMoves (ms ++ [m]) s = .next t) :
    ∃ u, runMoves ms s = .next u ∧ move m u = .next t := by
  induction ms generalizing s with
  | nil =>
    obtain ⟨u, hm, hu⟩ := runMoves_cons h
    cases hu
    exact ⟨s, rfl, hm⟩
  | cons k ms ih =>
    obtain ⟨v, hk, hv⟩ := runMoves_cons h
    obtain ⟨u, hu, hm⟩ := ih hv
    exact ⟨u, by rw [runMoves, hk]; exact hu, hm⟩

/-- Settles O57: the last move is `haltClock`. -/
theorem hostHaltFreezesTheStateInPlace : Obligations.HostHaltFreezesTheStateInPlace := by
  intro ms s t h
  obtain ⟨u, hu, hm⟩ := runMoves_concat h
  cases hm
  exact ⟨u, hu, rfl, _, clockEdge_stopped (haltClock_running u)⟩

end Sys2Proof.Machine
end

section
/-! PROOFS. Where a step ends (40_cycle.md R121, R125): its edges always lead to the next boundary or to the stop of the clock, so
the fuel of a run of edges is never what ends it. -/

namespace Sys2Proof.Machine

/-- From any state, the next boundary or the stop is at most 14 edges after the first one. -/
theorem exists_reaches_after_tick (s : State) : ∃ u, (s.tick State.tableWord?).Reaches 14 u := by
  cases ho : s.clock.output with
  | true => exact exists_reaches_of_low 6 (by simp [tick_output, ho]) (Nat.le_add_left 6 _)
  | false =>
    have hhigh : (s.tick State.tableWord?).clock.output = true := by simp [tick_output, ho]
    have hlow : ((s.tick State.tableWord?).tick State.tableWord?).clock.output = false := by simp [tick_output, ho]
    have hcur := tick_falling_cursor (l := State.tableWord?) hhigh
    rcases tick_rising_cases ho with hstop | hyield | ⟨-, hnext⟩
    · exact ⟨_, reaches_stopped hstop _⟩
    · exact reaches_tick ⟨_, reaches_boundary (betweenInstructions_iff.2 ⟨hcur.trans hyield, hlow⟩) _⟩
    · exact reaches_tick ((exists_reaches_of_low 5 hlow (by omega)).imp fun u hu => hu.mono (by decide))

/-- What a state reaches is a boundary or has a stopped clock: otherwise one more edge would lead further. -/
theorem State.Reaches.ends {n : Nat} {s u : State} (h : s.Reaches n u) :
    u.clock.running = false ∨ u.betweenInstructions = true := by
  induction n generalizing s with
  | zero =>
    obtain rfl : s = u := h 0 le_rfl
    by_contra hne
    obtain ⟨hr, hb⟩ := not_or.1 hne
    have htick : s.tick State.tableWord? = s := by
      have hone := h 1 (Nat.zero_le 1)
      rwa [runEdges_one (by simpa using hr) (by simpa using hb)] at hone
    have hout := tick_output (l := State.tableWord?) s
    rw [htick] at hout
    simp at hout
  | succ n ih =>
    cases hr : s.clock.running with
    | false => exact .inl (by rw [← h (n + 1) le_rfl, runEdges_stopped hr, hr])
    | true =>
      cases hb : s.betweenInstructions with
      | true => exact .inr (by rw [← h (n + 1) le_rfl, runEdges_done hb, hb])
      | false => exact ih ((reaches_succ_iff hr hb).1 h)

theorem toNextBoundary_ends (s : State) :
    s.toNextBoundary.clock.running = false ∨ s.toNextBoundary.betweenInstructions = true := by
  obtain ⟨u, hu⟩ := exists_reaches_after_tick s
  rw [toNextBoundary_of_reaches hu]
  exact hu.ends

theorem State.Inv.atBoundary {s : State} (h : s.Inv) (hb : s.betweenInstructions = true) : s.AtBoundary := by
  obtain ⟨-, -, -, -, -, -, -, -, hquiet, -⟩ := h
  obtain ⟨hc, ho⟩ := betweenInstructions_iff.1 hb
  exact ⟨hc, hquiet ho⟩

/-- Settles O25: the step is the edges to the next boundary (`stepIsTheEdgesToTheNextBoundary`), and keeps the invariant. -/
theorem stepEndsAtABoundaryOrStops : Obligations.StepEndsAtABoundaryOrStops := by
  intro s t h hstep
  have hinv : t.Inv := everyStepKeepsTheInvariant s t h hstep
  rw [stepIsTheEdgesToTheNextBoundary s h (step_next_running hstep)] at hstep
  cases hstep
  cases hr : s.toNextBoundary.clock.running with
  | false => exact .inr rfl
  | true =>
    have hb := (toNextBoundary_ends s).resolve_left (by simp [hr])
    exact .inl ⟨rfl, State.Inv.atBoundary hinv hb⟩

end Sys2Proof.Machine
end

section
/-! PROOFS. The bus: what a write of any width puts on it, and what the devices make of the notification (40_cycle.md R106, R107,
R112). -/

namespace Sys2Proof.Machine

/-! ### The bus byte -/

/-- The bus byte a write of `w` bits leaves (40_cycle.md R106, 60_exceptions.md R201). -/
def writtenByte (bus : Byte) {w : Nat} (data : BitVec w) : Byte := if w ≤ 8 then alignLow bus data else data.setWidth 8

/-- The bus and the error record as a write leaves them before its notification. -/
def State.withBusByte {w : Nat} (data : BitVec w) (s : State) : State :=
  { s with
    bus := writtenByte s.bus data
    errors := if w ≤ 8 then s.errors else s.errors ++ [.overflow w] }

theorem busWrite_eq {w : Nat} (data : BitVec w) (s : State) : s.busWrite data = (s.withBusByte data).notify attachOrder := by
  unfold State.busWrite State.withBusByte writtenByte
  split <;> rfl

theorem alignLow_getLsbD (bus : Byte) {w : Nat} (data : BitVec w) {i : Nat} (hi : i < 8) :
    (alignLow bus data).getLsbD i = if i < w then data.getLsbD i else bus.getLsbD i := by
  unfold alignLow
  by_cases hw : i < w
  · simp [hi, hw]
  · simp [hi, hw, BitVec.getLsbD_of_ge data i (Nat.not_lt.1 hw), Nat.add_sub_cancel' (Nat.not_lt.1 hw)]

theorem writtenByte_getLsbD (bus : Byte) {w : Nat} (data : BitVec w) {i : Nat} (hi : i < 8) :
    (writtenByte bus data).getLsbD i = if i < w then data.getLsbD i else bus.getLsbD i := by
  unfold writtenByte
  split
  · exact alignLow_getLsbD bus data hi
  · next hw =>
    have hiw : i < w := by omega
    simp [hi, hiw]

/-! ### The notification -/

/-- What a device makes of a notification that goes through: in READ mode it latches the bus byte, else it does nothing. -/
def State.notified (s : State) : Device → State
  | .alu => if s.modes.alu = .read then s.record .invalidMode else s
  | .a => { s with a := if s.modes.a = .read then s.bus else s.a }
  | .b => { s with b := if s.modes.b = .read then s.bus else s.b }
  | .o => { s with o := if s.modes.o = .read then s.bus else s.o }
  | .memory => { s with mem := if s.modes.memory = .read then s.mem.write s.pointer.toNat s.bus else s.mem }
  | .pc => { s with pc := if s.modes.pc = .read then s.bus else s.pc }
  | .ar =>
    { s with
      ar := if s.modes.ar = .read then s.bus.low else s.ar
      pointer := if s.modes.ar = .read then s.bus.low else s.pointer }
  | .ir =>
    { s with
      ir := if s.modes.ir = .read then s.bus else s.ir
      currentInstruction := if s.modes.ir = .read then s.bus else s.currentInstruction }

theorem notified_of_not_read {s : State} {d : Device} (h : s.modes.get d ≠ .read) : s.notified d = s := by
  cases d <;> simp only [Modes.get] at h <;> simp only [State.notified, if_neg h]

theorem latch_notified {s t : State} {d : Device} (hd : s.modes.get d = .read) (h : s.latch d s.bus = .going t) :
    t = s.notified d := by
  cases d <;> simp only [Modes.get] at hd <;> simp only [State.latch] at h <;> simp only [State.notified, if_pos hd]
  case memory =>
    split at h
    · cases h; rfl
    · cases h
  all_goals
    cases h
    rfl

theorem notify_going {ds : List Device} {s t : State} (h : s.notify ds = .going t) : t = ds.foldl State.notified s := by
  induction ds generalizing s with
  | nil =>
    cases h
    rfl
  | cons d ds ih =>
    simp only [State.notify] at h
    split at h
    · next hd =>
      cases hl : s.latch d s.bus with
      | stopped u =>
        rw [hl] at h
        cases h
      | going u =>
        rw [hl] at h
        obtain rfl := latch_notified hd hl
        exact ih h
    · next hd => rw [List.foldl_cons, notified_of_not_read hd, ih h]

/-- The state a bus write leaves, if it goes through, where the ALU is not in READ mode: the devices after it, one by one. -/
theorem busWrite_going {w : Nat} {data : BitVec w} {s t : State} (halu : s.modes.alu ≠ .read)
    (h : s.busWrite data = .going t) :
    t = [.a, .b, .o, .memory, .pc, .ar, .ir].foldl State.notified (s.withBusByte data) := by
  rw [busWrite_eq] at h
  have hsame : (s.withBusByte data).notified .alu = s.withBusByte data := notified_of_not_read (d := .alu) halu
  rw [notify_going h, attachOrder, fanOutOrder, List.foldl_cons, hsame]

/-- Settles O39: each device's notification writes the fields of that device alone. -/
theorem busWriteAlignsNotifiesAndRecordsOverflow : Obligations.BusWriteAlignsNotifiesAndRecordsOverflow := by
  intro w data s t halu h
  obtain rfl := busWrite_going halu h
  exact ⟨fun i hi => writtenByte_getLsbD s.bus data hi, rfl, rfl, rfl, rfl, rfl, rfl, rfl, rfl, rfl, rfl, rfl, rfl, rfl, rfl,
    rfl, rfl, rfl, rfl, rfl⟩

end Sys2Proof.Machine
end

section
/-! PROOFS. Two writers in one fan-out (40_cycle.md R111, 60_exceptions.md R207). -/

namespace Sys2Proof.Machine

/-- The ALU and the PC have nothing to do on the pins: no CE, no EO, and SU is what `subtractMode` holds. -/
structure State.NothingToPrepare (s : State) : Prop where
  ce : asserts s.pins .ce = false
  eo : asserts s.pins .eo = false
  su : asserts s.pins .su = s.alu.subtractMode

theorem prepare_eq_self {s : State} {d : Device} (hd : d ≠ .alu) (hce : asserts s.pins .ce = false) : s.prepare d = s := by
  cases d
  case alu => exact absurd rfl hd
  case pc => simp [State.prepare, hce]
  all_goals rfl

theorem State.NothingToPrepare.prepare {s : State} (h : s.NothingToPrepare) (d : Device) : s.prepare d = s := by
  by_cases hd : d = .alu
  · subst hd
    simp [State.prepare, h.eo, h.su]
  · exact prepare_eq_self hd h.ce

theorem commandMode_write (d : Device) (s : State) : s.commandMode d .write = { s with modes := s.modes.set d .write } := by
  simp [State.commandMode]

theorem Modes.set_get_self (m : Modes) (d : Device) : m.set d (m.get d) = m := by cases d <;> rfl

/-- A floating device whose pins ask nothing does nothing. -/
theorem updateControlPins_float {s : State} {d : Device} (hp : s.prepare d = s) (hpins : d.modeOf s.pins = .float)
    (hm : s.modes.get d = .float) (writer : Option Device) : s.updateControlPins d writer = .going s := by
  have hset : s.modes.set d .float = s.modes := hm ▸ Modes.set_get_self s.modes d
  simp [State.updateControlPins, hp, hpins, State.commandMode, hset, State.updateState, hm]

/-- The first device to enter WRITE mode drives. -/
theorem updateControlPins_firstWriter {s : State} {d : Device} (hp : s.prepare d = s) (hpins : d.modeOf s.pins = .write) :
    s.updateControlPins d none = { s with modes := s.modes.set d .write }.drive d := by
  simp [State.updateControlPins, hp, hpins, commandMode_write, State.updateState]

/-- The second one is BusContention. -/
theorem updateControlPins_secondWriter {s : State} {d : Device} (hp : s.prepare d = s) (hpins : d.modeOf s.pins = .write)
    (first : Device) : s.updateControlPins d (some first) =
      .stopped ({ s with modes := s.modes.set d .write }.raiseFatal (.busContention first d)) := by
  simp [State.updateControlPins, hp, hpins, commandMode_write, State.updateState]

/-- The devices that float and whose pins ask nothing are passed over. -/
theorem fanOut_skip {s : State} {ds : List Device} (h : s.NothingToPrepare)
    (hds : ∀ d ∈ ds, d.modeOf s.pins = .float ∧ s.modes.get d = .float) (rest : List Device) (writer : Option Device) :
    s.fanOut (ds ++ rest) writer = s.fanOut rest writer := by
  induction ds with
  | nil => rfl
  | cons d ds ih =>
    obtain ⟨hpins, hm⟩ := hds d List.mem_cons_self
    rw [List.cons_append, State.fanOut, updateControlPins_float (h.prepare d) hpins hm]
    simpa [Flow.andThen, hm] using ih fun e he => hds e (List.mem_cons_of_mem _ he)

theorem busWrite_none_reading {s : State} (h : ∀ d, s.modes.get d ≠ .read) (v : Byte) :
    s.busWrite v = .going { s with bus := v } := by
  rw [busWrite_byte]
  exact notify_none_reading fun d _ => h d

theorem Modes.set_write_ne_read (d e : Device) : (Modes.allFloat.set d .write).get e ≠ .read := by
  by_cases h : e = d
  · rw [h, Modes.get_set_same]
    decide
  · rw [Modes.get_set_other _ h, Modes.get_allFloat]
    decide

theorem nothingToPrepare_of_asks {s : State} {w : MicroWord} {m : Modes} (hw : Asks w m false false false) (hp : s.pins = w)
    (hsu : s.alu.subtractMode = false) : s.NothingToPrepare where
  ce := by rw [hp, hw.ce]
  eo := by rw [hp, hw.eo]
  su := by rw [hp, hw.su, hsu]

/-- The modes where two devices are in WRITE mode and the others float. -/
def Modes.twoWriters (first second : Device) : Modes := (Modes.allFloat.set first .write).set second .write

theorem Modes.twoWriters_get_first {first second : Device} (h : first ≠ second) :
    (Modes.twoWriters first second).get first = .write := by
  rw [Modes.twoWriters, Modes.get_set_other _ h, Modes.get_set_same]

theorem Modes.twoWriters_get_second (first second : Device) : (Modes.twoWriters first second).get second = .write :=
  Modes.get_set_same _ _ _

theorem Modes.twoWriters_get_other {first second d : Device} (h : d ≠ first) (h' : d ≠ second) :
    (Modes.twoWriters first second).get d = .float := by
  rw [Modes.twoWriters, Modes.get_set_other _ h', Modes.get_set_other _ h, Modes.get_allFloat]

/-- The fan-out of a word with two writers: the first one in the order drives its byte `v`, the second one is stopped, and the
others have nothing to do. -/
theorem updateAllPins_twoWriters {s : State} {w : MicroWord} {first second : Device} {before between after : List Device}
    {v : Byte} (hw : Asks w (.twoWriters first second) false false false) (hp : s.pins = w) (hm : s.modes = .allFloat)
    (hsu : s.alu.subtractMode = false) (horder : fanOutOrder = before ++ first :: (between ++ second :: after))
    (hne : first ≠ second) (hothers : ∀ d ∈ before ++ between, d ≠ first ∧ d ≠ second)
    (hdrive : ∀ m, { s with modes := m }.drive first = { s with modes := m }.busWrite v) :
    s.updateAllPins = .stopped ({ s with bus := v, modes := .twoWriters first second }.raiseFatal
      (.busContention first second)) := by
  have h : s.NothingToPrepare := nothingToPrepare_of_asks hw hp hsu
  have hfloat {d : Device} (hd : d ∈ before ++ between) : d.modeOf s.pins = .float := by
    obtain ⟨hd1, hd2⟩ := hothers d hd
    rw [hp, hw.modes, Modes.twoWriters_get_other hd1 hd2]
  have hfirst : first.modeOf s.pins = .write := by rw [hp, hw.modes, Modes.twoWriters_get_first hne]
  have hsecond : second.modeOf s.pins = .write := by rw [hp, hw.modes, Modes.twoWriters_get_second]
  have hskip : s.updateAllPins = s.fanOut (first :: (between ++ second :: after)) none := by
    rw [State.updateAllPins, horder]
    exact fanOut_skip h (fun d hd => ⟨hfloat (List.mem_append_left _ hd), by rw [hm, Modes.get_allFloat]⟩) _ _
  have hgo : s.updateControlPins first none = .going { s with bus := v, modes := Modes.allFloat.set first .write } := by
    rw [updateControlPins_firstWriter (h.prepare first) hfirst, hdrive, hm]
    exact busWrite_none_reading (Modes.set_write_ne_read first) v
  have hdriven : { s with bus := v, modes := Modes.allFloat.set first .write }.NothingToPrepare := ⟨h.ce, h.eo, h.su⟩
  have hbetween : ∀ d ∈ between, d.modeOf s.pins = .float ∧ (Modes.allFloat.set first .write).get d = .float := fun d hd => by
    have hd' := List.mem_append_right before hd
    exact ⟨hfloat hd', by rw [Modes.get_set_other _ (hothers d hd').1, Modes.get_allFloat]⟩
  rw [hskip, State.fanOut, hgo]
  simp only [Flow.andThen, Modes.get_set_same, if_true]
  rw [fanOut_skip hdriven hbetween, State.fanOut, updateControlPins_secondWriter (hdriven.prepare second) hsecond]
  rfl

theorem asks_ao_bo : Asks (word [.ao, .bo]) (.twoWriters .a .b) false false false :=
  ⟨by intro d; cases d <;> rfl, rfl, rfl, rfl⟩

theorem asks_co_io : Asks (word [.co, .io]) (.twoWriters .pc .ir) false false false :=
  ⟨by intro d; cases d <;> rfl, rfl, rfl, rfl⟩

/-- Settles O40. -/
theorem twoWritersAreBusContention : Obligations.TwoWritersAreBusContention := by
  refine ⟨fun s first d hd hce hw => updateControlPins_secondWriter (prepare_eq_self hd hce) hw first,
    fun s hm hsu => ⟨?_, ?_⟩⟩
  · exact updateAllPins_twoWriters (before := [.alu]) (between := []) asks_ao_bo rfl hm hsu rfl (by decide) (by decide)
      fun _ => rfl
  · exact updateAllPins_twoWriters (before := [.alu, .a, .b, .o, .memory]) (between := [.ar]) asks_co_io rfl hm hsu rfl
      (by decide) (by decide) fun _ => rfl

end Sys2Proof.Machine
end

section
/-! PROOFS. The loads (41_loads.md R140, R141), and the two ways in which an instruction stops at an address past the end
(60_exceptions.md R205): in its fetch, and in its step 3. -/

namespace Sys2Proof.Machine

section
variable {s : State} {i : Instr}

/-- A fetch past the end stops every instruction alike. -/
theorem exec_fetchOutOfRange (i : Instr) (hb : s.CanBegin) (hout : ¬s.InMemory s.pc.low) :
    exec i s = .next s.fetchOutOfRange := by
  rw [exec_eq]
  exact runInstruction_outOfRange (microcodeRow_sequenced _ _) hb hout

/-- A fatal error in the fan-out of the word of step 3 ends the instruction there. -/
theorem exec_stoppedInStep3 {w : MicroWord} {body : List MicroWord} {u : State} {e : CoreError} (h : s.ReadyFor i)
    (hrow : ∀ v, microcodeRow s.params.swap i.mnemonic v = sequence (w :: body)) (hy : asserts w .yld = false)
    (hu : { (s.atStep3 i).countTick with pins := w }.updateAllPins = .stopped (u.raiseFatal e)) :
    exec i s = .next (u.raiseFatal e) := by
  have ⟨hb, _⟩ := h
  have h₀ := atStep3_beforeStep hb i
  obtain ⟨-, -, -, ho⟩ := h₀.quiet
  have hw : (microcodeRow s.params.swap i.mnemonic).word? (s.atStep3 i) = some w := Row.word?_body (k := 0) hrow h₀ rfl
  have hd : (s.atStep3 i).betweenInstructions = false := betweenInstructions_of_cursor (by simp [h₀.cursor])
  rw [exec_ready h, runEdges_one h₀.running hd, tick_stopped ho hw hy hu, runEdges_stopped (raiseFatal_running e u)]

/-- Inside the rising edge of step 3: the word is on the pins, the modes are `modes`, and A, O and the bus hold what the fan-out
has left in them. -/
def State.insideStep3 (s : State) (i : Instr) (w : MicroWord) (modes : Modes) (a o bus : Byte) : State :=
  { (s.atStep3 i).countTick with
    a := a, o := o, bus := bus, pins := w, modes := modes
    alu := { s.alu with subtractMode := false } }

/-- An AddressOutOfRange there leaves `State.stoppedAtStep3`. -/
theorem raiseFatal_insideStep3 (hb : s.AtBoundary) (i : Instr) (w : MicroWord) (modes : Modes) (a o bus : Byte) :
    (s.insideStep3 i w modes a o bus).raiseFatal (.addressOutOfRange i.operand) =
      { s.stoppedAtStep3 i w modes with a := a, o := o, bus := bus } := by
  obtain ⟨-, -, -, hsub, ho⟩ := hb
  have halu : { s.alu with subtractMode := false } = s.alu := by rw [← hsub]
  simp [halu, ho, State.insideStep3, State.raiseFatal, State.record, State.haltClock, State.countTick, State.atStep3,
    State.afterPrefix, State.stoppedAtStep3, State.stoppedBy, State.stoppedHigh]

/-- An instruction in whose step 3 Memory acts on an operand past the end (60_exceptions.md R205). -/
theorem exec_operandOutOfRange {w : MicroWord} {body : List MicroWord} {modes : Modes} {a o bus : Byte} (h : s.ReadyFor i)
    (hrow : ∀ v, microcodeRow s.params.swap i.mnemonic v = sequence (w :: body)) (hy : asserts w .yld = false)
    (hu : { (s.atStep3 i).countTick with pins := w }.updateAllPins =
      .stopped ((s.insideStep3 i w modes a o bus).raiseFatal (.addressOutOfRange i.operand))) :
    exec i s = .next { s.stoppedAtStep3 i w modes with a := a, o := o, bus := bus } := by
  have ⟨⟨_, hb, _⟩, _⟩ := h
  rw [exec_stoppedInStep3 h hrow hy hu, raiseFatal_insideStep3 hb]

end

/-- Settles O8: in step 3 A latches the cell, or, past the end, keeps the byte step 2 left on the bus. -/
theorem ldaLoadsTheCellIntoA : Obligations.LdaLoadsTheCellIntoA := by
  refine ⟨fun _ => rfl, fun _ => rfl, fun n s => ⟨exec_completed, fun h hout => ?_, exec_fetchOutOfRange _⟩⟩
  have ⟨⟨_, ⟨_, _, hm, _⟩, _⟩, _⟩ := h
  exact exec_operandOutOfRange h (fun _ => rfl) rfl (fanOut_ro_ai_outOfRange asks_ro_ai hm rfl (decide_eq_false hout))

/-- Settles O9: in step 3 O latches the cell, or, past the end, keeps the byte step 2 left on the bus. -/
theorem ldoLoadsTheCellIntoO : Obligations.LdoLoadsTheCellIntoO := by
  refine ⟨fun _ => rfl, fun _ => rfl, fun n s => ⟨exec_completed, fun h hout => ?_, exec_fetchOutOfRange _⟩⟩
  have ⟨⟨_, ⟨_, _, hm, _⟩, _⟩, _⟩ := h
  exact exec_operandOutOfRange h (fun _ => rfl) rfl (fanOut_ro_oi_outOfRange asks_ro_oi hm rfl (decide_eq_false hout))

end Sys2Proof.Machine
end

section
/-! PROOFS. The ALU's arithmetic (42_alu_arith.md R153, R154): the ripple of R151 is the sum modulo 256 with its carry, so a compute
is unsigned addition, or, on the complement of B with the seed carry, unsigned subtraction. With it, the four ALU instructions
(R157 to R160). -/

namespace Sys2Proof.Machine

/-! ### The ripple -/

/-- R151's carry is the majority of its three bits. -/
theorem carryBit_eq_atLeastTwo (a b c : Bool) : carryBit a b c = a.atLeastTwo b c := by
  cases a <;> cases b <;> cases c <;> rfl

theorem rippleUpTo_carry (a b : Byte) (c : Bool) (n : Nat) : (rippleUpTo a b c n).2 = BitVec.carry n a b c := by
  induction n with
  | zero => rw [BitVec.carry_zero, rippleUpTo]
  | succ n ih => rw [BitVec.carry_succ, ← ih, rippleUpTo, carryBit_eq_atLeastTwo]

theorem getLsbD_bit_shiftLeft (x : Bool) (n j : Nat) :
    ((BitVec.ofBool x).setWidth 8 <<< n).getLsbD j = (decide (j < 8) && (decide (j = n) && x)) := by
  simp only [BitVec.getLsbD_shiftLeft, BitVec.getLsbD_setWidth, BitVec.getLsbD_ofBool]
  grind

/-- The lowest `n` bits of the ripple are those of the sum; the others are still 0. -/
theorem rippleUpTo_getLsbD (a b : Byte) (c : Bool) (n : Nat) {j : Nat} (hj : j < 8) :
    (rippleUpTo a b c n).1.getLsbD j = (decide (j < n) && (a + b + (BitVec.ofBool c).setWidth 8).getLsbD j) := by
  induction n with
  | zero => simp [rippleUpTo]
  | succ n ih =>
    simp only [rippleUpTo, BitVec.getLsbD_or, ih, getLsbD_bit_shiftLeft, rippleUpTo_carry, hj]
    rcases lt_trichotomy j n with hlt | rfl | hgt
    · simp [hlt.ne, hlt, hlt.trans n.lt_succ_self]
    · rw [BitVec.getLsbD_add_add_bool hj]
      simp [sumBit]
    · simp [hgt.ne', hgt.not_gt, show ¬j < n + 1 by omega]

theorem rippleUpTo_eight (a b : Byte) (c : Bool) :
    rippleUpTo a b c 8 = (a + b + (BitVec.ofBool c).setWidth 8, decide (256 ≤ a.toNat + b.toNat + c.toNat)) := by
  refine Prod.ext (BitVec.eq_of_getLsbD_eq fun j hj => ?_) ?_
  · rw [rippleUpTo_getLsbD a b c 8 hj, decide_eq_true hj, Bool.true_and]
  · rw [rippleUpTo_carry, BitVec.carry, Nat.mod_eq_of_lt a.isLt, Nat.mod_eq_of_lt b.isLt]

/-! ### A compute -/

theorem zeroFlag_eq (r : Byte) : zeroFlag r = decide (r = 0) := beq_eq_decide r 0

theorem carryFlag_eq (r : Byte) (c : Bool) : carryFlag r c = decide (c = true ∧ r ≠ 0) := by
  simp [carryFlag, zeroFlag_eq]

/-- The compute of an addition, field by field (R153). -/
theorem aluCompute_add (a b : Byte) : aluCompute a b false =
    { out := a + b
      carryIn := false
      carryOut := decide (256 ≤ a.toNat + b.toNat)
      zero := decide ((a.toNat + b.toNat) % 256 = 0)
      carry := decide (256 < a.toNat + b.toNat) } := by
  have hripple : rippleUpTo a b false 8 = (a + b, decide (256 ≤ a.toNat + b.toNat)) := by simp [rippleUpTo_eight]
  have hzero : a + b = 0 ↔ (a.toNat + b.toNat) % 256 = 0 := by simp [BitVec.toNat_eq]
  have hcarry : 256 ≤ a.toNat + b.toNat ∧ a + b ≠ 0 ↔ 256 < a.toNat + b.toNat := by
    have ha := a.isLt
    have hb := b.isLt
    rw [ne_eq, hzero]
    omega
  simp only [aluCompute, hripple, zeroFlag_eq, carryFlag_eq, decide_eq_true_eq, hzero, hcarry, Bool.false_eq_true, if_false]

theorem sub_eq_add_not_add_one (a b : Byte) : a - b = a + ~~~b + 1 := by
  rw [BitVec.sub_eq_add_neg, BitVec.neg_eq_not_add, ← BitVec.add_assoc]
  rfl

/-- The compute of a subtraction, field by field (R154). -/
theorem aluCompute_sub (a b : Byte) : aluCompute a b true =
    { out := a - b
      carryIn := true
      carryOut := decide (b.toNat ≤ a.toNat)
      zero := decide (a = b)
      carry := decide (b.toNat < a.toNat) } := by
  have hcarryOut : 256 ≤ a.toNat + (~~~b).toNat + 1 ↔ b.toNat ≤ a.toNat := by
    have hb := b.isLt
    rw [BitVec.toNat_not]
    omega
  have hripple : rippleUpTo a (~~~b) true 8 = (a - b, decide (b.toNat ≤ a.toNat)) := by
    rw [rippleUpTo_eight, sub_eq_add_not_add_one, ← decide_eq_decide.2 hcarryOut]
    rfl
  have hzero : a - b = 0 ↔ a = b := sub_eq_zero
  have hcarry : b.toNat ≤ a.toNat ∧ a ≠ b ↔ b.toNat < a.toNat := by
    rw [ne_eq, BitVec.toNat_eq]
    omega
  simp only [aluCompute, hripple, zeroFlag_eq, carryFlag_eq, decide_eq_true_eq, hzero, hcarry, ne_eq, if_true]

/-- Settles O5: every field of the compute is a comparison of `A + B` with 0 and 256, and `A + B` is below 512. -/
theorem addIsModularWithExclusiveFlags : Obligations.AddIsModularWithExclusiveFlags := by
  intro a b
  have ha := a.isLt
  have hb := b.isLt
  simp only [aluCompute_add, decide_eq_true_eq, decide_eq_false_iff_not, ne_eq, decide_eq_decide]
  exact ⟨trivial, trivial, by omega, trivial, by omega, by omega⟩

/-- The two flags of a subtraction name the order of A and B. -/
theorem flagVariant_of_compare (a b : Byte) : flagVariant? (decide (a = b)) (decide (b.toNat < a.toNat)) =
    some (if a.toNat < b.toNat then .neither else if a = b then .zero else .carry) := by
  rcases lt_trichotomy a.toNat b.toNat with hlt | heq | hgt
  · have hne : a ≠ b := fun h => hlt.ne (congrArg _ h)
    simp [flagVariant?, hlt, hlt.not_gt, hne]
  · obtain rfl := BitVec.eq_of_toNat_eq heq
    simp [flagVariant?]
  · have hne : a ≠ b := fun h => hgt.ne' (congrArg _ h)
    simp [flagVariant?, hgt, hgt.not_gt, hne]

/-- Settles O6: every field of the compute is a comparison of A with B. -/
theorem subtractIsModularAndCompares : Obligations.SubtractIsModularAndCompares := by
  intro a b
  have hzero : 0 < a.toNat ↔ a ≠ 0 := by rw [Nat.pos_iff_ne_zero, ne_eq, ne_eq, BitVec.toNat_eq]; rfl
  rw [aluCompute_sub]
  refine ⟨rfl, sub_eq_add_not_add_one a b, decide_eq_true_iff, decide_eq_true_iff, decide_eq_true_iff,
    flagVariant_of_compare a b, ?_⟩
  rintro rfl
  exact ⟨decide_eq_true a.toNat.zero_le, decide_eq_true_iff.trans hzero, decide_eq_true_iff⟩

/-! ### The ALU instructions -/

/-- The ALU instructions complete whatever their operand: their words leave Memory alone. -/
theorem exec_alu {s : State} {i : Instr} (h : s.ReadyFor i) (hi : i.mnemonic ∈ aluMnemonics) :
    exec i s = .next (s.completed i) := by
  have ⟨hb, _⟩ := h
  obtain ⟨hr, hq, -, -⟩ := atStep3_beforeStep hb i
  obtain ⟨hp, hm, -, ho⟩ := id hq
  have hexcl := aluCompute_exclusive s.a s.b
  cases i
  case adda => exact exec_sequence h (fun _ => rfl) (microstep_eo_ai hq) ⟨hr, ⟨hp, hm, rfl, ho⟩, hexcl false, rfl⟩
  case addo => exact exec_sequence h (fun _ => rfl) (microstep_eo_oi hq) ⟨hr, ⟨hp, hm, rfl, ho⟩, hexcl false, rfl⟩
  case suba => exact exec_sequence h (fun _ => rfl) (microstep_eo_su_ai hq) ⟨hr, ⟨hp, hm, rfl, ho⟩, hexcl true, rfl⟩
  case subo => exact exec_sequence h (fun _ => rfl) (microstep_eo_su_oi hq) ⟨hr, ⟨hp, hm, rfl, ho⟩, hexcl true, rfl⟩
  all_goals simp [Instr.mnemonic, aluMnemonics] at hi

/-- Settles O10: A latches the sum. -/
theorem addaAddsIntoA : Obligations.AddaAddsIntoA := by
  refine ⟨fun _ => rfl, fun _ => rfl, fun n s => ⟨fun h => ?_, exec_fetchOutOfRange _⟩⟩
  rw [exec_alu h (by simp [Instr.mnemonic, aluMnemonics])]
  simp only [State.completed, State.afterCompute, aluCompute_add]

/-- Settles O11: O latches the sum. -/
theorem addoAddsIntoO : Obligations.AddoAddsIntoO := by
  refine ⟨fun _ => rfl, fun _ => rfl, fun n s => ⟨fun h => ?_, exec_fetchOutOfRange _⟩⟩
  rw [exec_alu h (by simp [Instr.mnemonic, aluMnemonics])]
  simp only [State.completed, State.afterCompute, aluCompute_add]

/-- Settles O12: A latches the difference. -/
theorem subaSubtractsIntoA : Obligations.SubaSubtractsIntoA := by
  refine ⟨fun _ => rfl, fun _ => rfl, fun n s => ⟨fun h => ?_, exec_fetchOutOfRange _⟩⟩
  rw [exec_alu h (by simp [Instr.mnemonic, aluMnemonics])]
  simp only [State.completed, State.afterCompute, aluCompute_sub]

/-- Settles O13: O latches the difference. -/
theorem suboSubtractsIntoO : Obligations.SuboSubtractsIntoO := by
  refine ⟨fun _ => rfl, fun _ => rfl, fun n s => ⟨fun h => ?_, exec_fetchOutOfRange _⟩⟩
  rw [exec_alu h (by simp [Instr.mnemonic, aluMnemonics])]
  simp only [State.completed, State.afterCompute, aluCompute_sub]

end Sys2Proof.Machine
end

section
/-! PROOFS. The stores (43_stores.md R170, R171): the register's drive stands on the bus before Memory, later in the fan-out order,
looks at its pointer, so a store past the end leaves that byte on the bus and writes no cell. -/

namespace Sys2Proof.Machine

/-- Settles O14: in step 3 Memory writes A, which A has put on the bus; past the end only the bus takes it. -/
theorem stoaStoresAIntoTheCell : Obligations.StoaStoresAIntoTheCell := by
  refine ⟨fun _ => rfl, fun _ => rfl, fun n s => ⟨exec_completed, fun h hout => ?_, exec_fetchOutOfRange _⟩⟩
  have ⟨⟨_, ⟨_, _, hm, _⟩, _⟩, _⟩ := h
  exact exec_operandOutOfRange h (fun _ => rfl) rfl (fanOut_ao_ri_outOfRange asks_ao_ri hm rfl (decide_eq_false hout))

/-- Settles O15: in step 3 Memory writes O, which O has put on the bus; past the end only the bus takes it. -/
theorem stooStoresOIntoTheCell : Obligations.StooStoresOIntoTheCell := by
  refine ⟨fun _ => rfl, fun _ => rfl, fun n s => ⟨exec_completed, fun h hout => ?_, exec_fetchOutOfRange _⟩⟩
  have ⟨⟨_, ⟨_, _, hm, _⟩, _⟩, _⟩ := h
  exact exec_operandOutOfRange h (fun _ => rfl) rfl (fanOut_oo_ri_outOfRange asks_oo_ri hm rfl (decide_eq_false hout))

end Sys2Proof.Machine
end

section
/-! PROOFS. The swaps (44_swaps.md R181, R182): an exchange goes through the scratch cell, which reads back the byte A stored there,
and stops where a store of A does; a transfer asks nothing of Memory, so it completes whatever its operand. -/

namespace Sys2Proof.Machine

/-- The stop of an exchange: its step 3 is STOA's. -/
theorem exec_exchange_outOfRange {s : State} {i : Instr} {body : List MicroWord} (h : s.ReadyFor i) (hout : ¬s.InMemory i.operand)
    (hrow : ∀ v, microcodeRow s.params.swap i.mnemonic v = sequence (word [.ao, .ri] :: body)) :
    exec i s = .next
      { s.stoppedAtStep3 i (word [.ao, .ri]) { Modes.allFloat with a := .write, memory := .read } with bus := s.a } := by
  have ⟨⟨_, ⟨_, _, hm, _⟩, _⟩, _⟩ := h
  exact exec_operandOutOfRange h hrow rfl (fanOut_ao_ri_outOfRange asks_ao_ri hm rfl (decide_eq_false hout))

/-- Settles O16: under exchange B takes the scratch cell, which holds the old A. -/
theorem swabSwapsAWithB : Obligations.SwabSwapsAWithB := by
  refine ⟨fun _ => rfl, fun _ => rfl, fun _ => rfl, fun n s =>
    ⟨fun h hswap hwf hin => ?_, fun h hswap hout => ?_, fun h hswap => ?_, exec_fetchOutOfRange _⟩⟩
  · rw [exec_completed h hin]
    simp only [State.completed, hswap, Memory.read_write_same hwf]
  · exact exec_exchange_outOfRange h hout fun _ => by rw [hswap]; rfl
  · have ⟨hb, _⟩ := h
    obtain ⟨hr, hq, hf, -⟩ := atStep3_beforeStep hb (.swab n)
    exact exec_sequence h (fun _ => by rw [hswap]; rfl) (microstep_ao_bi hq) ⟨hr, hq, hf, rfl⟩

/-- Settles O17: under exchange O takes the scratch cell, which holds the old A. -/
theorem swaoSwapsAWithO : Obligations.SwaoSwapsAWithO := by
  refine ⟨fun _ => rfl, fun _ => rfl, fun _ => rfl, fun n s =>
    ⟨fun h hswap hwf hin => ?_, fun h hswap hout => ?_, fun h hswap => ?_, exec_fetchOutOfRange _⟩⟩
  · rw [exec_completed h hin]
    simp only [State.completed, hswap, Memory.read_write_same hwf]
  · exact exec_exchange_outOfRange h hout fun _ => by rw [hswap]; rfl
  · have ⟨hb, _⟩ := h
    obtain ⟨hr, hq, hf, -⟩ := atStep3_beforeStep hb (.swao n)
    exact exec_sequence h (fun _ => by rw [hswap]; rfl) (microstep_ao_oi hq) ⟨hr, hq, hf, rfl⟩

end Sys2Proof.Machine
end

section
/-! PROOFS. The jumps and the halt (45_control.md R190 to R192): a taken jump leaves in the PC what IR drives, whose low 4 bits are
the operand under both settings of IR_DRIVE_WIDTH; a halt leaves a clock that no edge and no start of the host moves. -/

namespace Sys2Proof.Machine

section
variable {s : State}

theorem fetchByte_low {i : Instr} (h : s.ReadyFor i) : s.fetchByte.low = i.operand := by
  obtain ⟨-, -, hbyte⟩ := h
  rw [hbyte, encode_low]

/-- The byte a taken jump leaves in the PC: the next fetch is from the operand, and IR_DRIVE_WIDTH decides the upper 4 bits
(40_cycle.md R117). -/
theorem fetchedDrive_of_ready {i : Instr} (h : s.ReadyFor i) :
    s.fetchedDrive.low = i.operand ∧ (s.params.irDrive = .full → s.fetchedDrive = s.fetchByte) ∧
      (s.params.irDrive = .operand → s.fetchedDrive = i.operand.zext) := by
  refine ⟨?_, fun hfull => ?_, fun hoperand => ?_⟩
  · rw [State.fetchedDrive, irDrive_low, fetchByte_low h]
  · rw [State.fetchedDrive, hfull, irDrive]
  · rw [State.fetchedDrive, hoperand, irDrive, fetchByte_low h]

/-- A start of a clock that has been halted does nothing (40_cycle.md R101). -/
theorem hostStart_halted (h : s.clock.haltCalled = true) (period : Nat) : hostStart period s = .next s := if_pos h

end

/-- Settles O18: the flag variant of ZERO is the one whose row has the jump word. -/
theorem jmpzJumpsIfZero : Obligations.JmpzJumpsIfZero := by
  refine ⟨rfl, rfl, rfl, fun _ => rfl, fun n s => ⟨fun h hz => ⟨?_, fetchedDrive_of_ready h⟩, fun h hz => ?_,
    exec_fetchOutOfRange _⟩⟩
  all_goals
    rw [exec_jmpz h, State.completed, hz]
    rfl

/-- Settles O19: the flag variant of CARRY is the one whose row has the jump word. -/
theorem jmpcJumpsIfCarry : Obligations.JmpcJumpsIfCarry := by
  refine ⟨rfl, rfl, rfl, fun _ => rfl, fun n s => ⟨fun h hc => ⟨?_, fetchedDrive_of_ready h⟩, fun h hc => ?_,
    exec_fetchOutOfRange _⟩⟩
  all_goals
    rw [exec_jmpc h, State.completed, hc]
    rfl

/-- Settles O20: the HLT word has set `haltCalled`, which nothing takes back. -/
theorem hltStopsTheClockForGood : Obligations.HltStopsTheClockForGood :=
  ⟨fun _ => rfl, fun _ => rfl, fun _ _ => ⟨fun h =>
    ⟨_, rfl, exec_hlt h, ⟨_, clockEdge_stopped (stoppedHigh_running _)⟩, hostStart_halted rfl⟩, exec_fetchOutOfRange _⟩⟩

end Sys2Proof.Machine
end

section
/-! PROOFS. The errors (60_exceptions.md R200 to R210): a fan-out in which the ALU is not in READ mode records none that does not
stop it, so an edge raises at most one; and what a host's load is refused with (R208, R220, R224). -/

namespace Sys2Proof.Machine

/-! ### A command of the ALU into READ -/

theorem commandMode_alu_read (s : State) : s.commandMode .alu .read = s.record .invalidMode := if_pos ⟨rfl, rfl⟩

/-- Settles O41. -/
theorem aluReadIsRecordedAndHarmless : Obligations.AluReadIsRecordedAndHarmless :=
  ⟨commandMode_alu_read, modeOf_alu_ne_read⟩

/-! ### The errors of a fan-out -/

/-- From `s` to `t` nothing was recorded, and the ALU, the one device whose latch is an error, is not in READ mode. -/
structure NoError (s t : State) : Prop where
  errors : t.errors = s.errors
  faulted : t.faulted = s.faulted
  alu : t.modes.alu ≠ .read

theorem NoError.trans {s t u : State} (h : NoError s t) (k : NoError t u) : NoError s u :=
  ⟨k.errors.trans h.errors, k.faulted.trans h.faulted, k.alu⟩

theorem NoError.refl {s : State} (h : s.modes.alu ≠ .read) : NoError s s := ⟨rfl, rfl, h⟩

/-- A flow from `s` has recorded no error while it went on; if it has stopped, one fatal error stopped it. -/
def Flow.AtMostOneError (s : State) : Flow → Prop
  | .going t => NoError s t
  | .stopped t => ∃ u e, NoError s u ∧ t = u.raiseFatal e

theorem Flow.AtMostOneError.after {s t : State} {r : Flow} (k : r.AtMostOneError t) (h : NoError s t) :
    r.AtMostOneError s := by
  cases r with
  | going u => exact h.trans k
  | stopped u =>
    obtain ⟨v, e, hv, rfl⟩ := k
    exact ⟨v, e, h.trans hv, rfl⟩

theorem Flow.AtMostOneError.andThen {s : State} {r : Flow} {f : State → Flow} (h : r.AtMostOneError s)
    (k : ∀ t : State, t.modes.alu ≠ .read → (f t).AtMostOneError t) : (r.andThen f).AtMostOneError s := by
  cases r with
  | going t => exact (k t h.alu).after h
  | stopped t => exact h

section
variable {s : State}

theorem raiseFatal_atMostOneError (h : s.modes.alu ≠ .read) (e : CoreError) :
    (Flow.stopped (s.raiseFatal e)).AtMostOneError s := ⟨s, e, .refl h, rfl⟩

theorem latch_atMostOneError (h : s.modes.alu ≠ .read) {d : Device} (hd : s.modes.get d = .read) (v : Byte) :
    (s.latch d v).AtMostOneError s := by
  cases d <;> simp only [State.latch]
  case alu => exact absurd hd h
  case memory =>
    split
    · exact ⟨rfl, rfl, h⟩
    · exact raiseFatal_atMostOneError h _
  all_goals exact ⟨rfl, rfl, h⟩

theorem notify_atMostOneError (ds : List Device) (h : s.modes.alu ≠ .read) : (s.notify ds).AtMostOneError s := by
  induction ds generalizing s with
  | nil => exact .refl h
  | cons d ds ih =>
    simp only [State.notify]
    split
    · next hd => exact (latch_atMostOneError h hd s.bus).andThen fun _ => ih
    · exact ih h

/-- A write no wider than the bus is no OverflowError (60_exceptions.md R201). -/
theorem busWrite_atMostOneError {w : Nat} (hw : w ≤ 8) (h : s.modes.alu ≠ .read) (data : BitVec w) :
    (s.busWrite data).AtMostOneError s := by
  rw [State.busWrite, if_pos hw]
  have hbus : NoError s { s with bus := alignLow s.bus data } := ⟨rfl, rfl, h⟩
  exact (notify_atMostOneError attachOrder hbus.alu).after hbus

theorem drive_atMostOneError (d : Device) (h : s.modes.alu ≠ .read) : (s.drive d).AtMostOneError s := by
  cases d <;> simp only [State.drive]
  case memory =>
    split
    · exact busWrite_atMostOneError (by decide) h _
    · exact raiseFatal_atMostOneError h _
  all_goals exact busWrite_atMostOneError (by decide) h _

theorem updateState_atMostOneError (d : Device) (writer : Option Device) (h : s.modes.alu ≠ .read) :
    (s.updateState d writer).AtMostOneError s := by
  unfold State.updateState
  split
  · next hd => exact latch_atMostOneError h hd s.bus
  · split
    · exact drive_atMostOneError d h
    · exact raiseFatal_atMostOneError h _
  · exact .refl h

theorem prepare_noError (d : Device) (h : s.modes.alu ≠ .read) : NoError s (s.prepare d) := by
  refine ⟨?_, ?_, by rwa [prepare_modes]⟩
  all_goals
    cases d <;> simp only [State.prepare]
    case alu | pc => split <;> rfl

/-- The pins never ask the ALU to READ, so their command of a mode is no InvalidModeError. -/
theorem commandMode_noError (d : Device) (h : s.modes.alu ≠ .read) : NoError s (s.commandMode d (d.modeOf s.pins)) := by
  rcases commandMode_cases d (d.modeOf s.pins) s with ⟨-, rfl, hread⟩ | heq
  · exact absurd hread (modeOf_alu_ne_read _)
  · rw [heq]
    refine ⟨rfl, rfl, ?_⟩
    cases d
    case alu => exact modeOf_alu_ne_read _
    all_goals exact h

theorem updateControlPins_atMostOneError (d : Device) (writer : Option Device) (h : s.modes.alu ≠ .read) :
    (s.updateControlPins d writer).AtMostOneError s := by
  have hprepare := prepare_noError d h
  have hcommand := commandMode_noError d hprepare.alu
  exact (updateState_atMostOneError d writer hcommand.alu).after (hprepare.trans hcommand)

theorem fanOut_atMostOneError (ds : List Device) (writer : Option Device) (h : s.modes.alu ≠ .read) :
    (s.fanOut ds writer).AtMostOneError s := by
  induction ds generalizing s writer with
  | nil => exact .refl h
  | cons d ds ih => exact (updateControlPins_atMostOneError d writer h).andThen fun _ => ih _

/-! ### The error of a rising edge -/

/-- Between `s` and `t` the fatal error `e` stopped the clock, and nothing else was recorded (60_exceptions.md R206). -/
structure Raised (e : CoreError) (s t : State) : Prop where
  errors : t.errors = s.errors ++ [e]
  faulted : t.faulted = true
  stopped : t.clock.running = false
  cursor : t.cursor = s.cursor

theorem decodeError_raised (s : State) :
    Raised (.decode s.currentInstruction.high (variantNumber s.zero s.carry) s.cursor) s s.decodeError :=
  ⟨rfl, rfl, raiseFatal_running _ s, rfl⟩

/-- The error a fan-out stops with is the only one it records. -/
theorem updateAllPins_raised {u : State} {e : CoreError} (h : s.modes.alu ≠ .read)
    (hu : s.updateAllPins = .stopped (u.raiseFatal e)) : Raised e s (u.raiseFatal e) := by
  have hone : s.updateAllPins.AtMostOneError s := fanOut_atMostOneError fanOutOrder none h
  have hkept := updateAllPins_kept s
  rw [hu] at hone hkept
  obtain ⟨v, e', hv, heq⟩ := hone
  have herrors : u.errors ++ [e] = s.errors ++ [e'] := by
    rw [← hv.errors]
    exact congrArg State.errors heq
  obtain ⟨hsame, -⟩ := List.append_inj' herrors rfl
  exact ⟨congrArg (· ++ [e]) hsame, rfl, raiseFatal_running e u, hkept.cursor⟩

/-- An executed word of the table records no error, or AddressOutOfRange of a pointer past the end. -/
theorem executeWord_errors {w : MicroWord} (hw : w ∈ tableWords) (hm : s.modes = .allFloat) :
    ((s.executeWord (some w)).errors = s.errors ∧ (s.executeWord (some w)).faulted = s.faulted) ∨
      (s.params.cells ≤ s.pointer.toNat ∧ Raised (.addressOutOfRange s.pointer) s (s.executeWord (some w))) := by
  have halu : ({ s with pins := w } : State).modes.alu ≠ .read := by simp [hm, Modes.allFloat]
  cases hy : asserts w .yld with
  | true =>
    rw [executeWord_yield hy]
    exact .inl ⟨rfl, rfl⟩
  | false =>
    rcases tableWords_fanOutEnds (s := { s with pins := w }) hm w hw rfl with ⟨u, hu⟩ | ⟨hout, -, u, hu, -⟩
    · have hnone : ({ s with pins := w }.updateAllPins).AtMostOneError { s with pins := w } :=
        fanOut_atMostOneError fanOutOrder none halu
      rw [hu] at hnone
      obtain ⟨c, hex⟩ := executeWord_advances hy hu
      rw [hex]
      exact .inl ⟨hnone.errors, hnone.faulted⟩
    · obtain ⟨herrors, hfaulted, hstopped, hcursor⟩ := updateAllPins_raised halu hu
      rw [executeWord_stopped hy hu]
      exact .inr ⟨Nat.not_lt.1 (of_decide_eq_false hout), herrors, hfaulted, hstopped, hcursor⟩

/-- Where the cursor is in its sequence, the lookup misses only for an opcode with no entry. -/
theorem unassigned_of_tableWord_none (hc : s.cursorInSequence = true) (hw : s.tableWord? = none) :
    ∀ k, s.params.opcodes.code k ≠ s.currentInstruction.high := by
  intro k hk
  obtain ⟨m, hm⟩ := Option.isSome_iff_exists.1 (mnemonic?_isSome_iff.2 ⟨k, hk⟩)
  have hrow : tableRow? s.params s.currentInstruction.high = some (microcodeRow s.params.swap m) := by simp [tableRow?, hm]
  rw [tableWord_of_row hrow, Row.word?] at hw
  rw [State.cursorInSequence, hrow] at hc
  cases hv : flagVariant? s.zero s.carry with
  | none => simp [hv] at hc
  | some v =>
    have hlt : s.cursor < (microcodeRow s.params.swap m v).length := by simpa [hv] using hc
    simp [hv, hlt] at hw

/-- At PAGES = 4 every pointer is in range (60_exceptions.md R205). -/
theorem pages_ne_four_of_outOfRange {p : Params} {n : Nibble} (h : p.cells ≤ n.toNat) : p.pages ≠ 4 := by
  intro hp
  rw [Params.cells, hp] at h
  omega

end

/-- Settles O42: a falling edge records nothing, and a rising edge misses in the table or executes a word of it. -/
theorem anEdgeRaisesAtMostOneFatalError : Obligations.AnEdgeRaisesAtMostOneFatalError := by
  intro s t hinv hedge
  obtain ⟨-, -, -, -, -, -, -, -, hq, hc, -⟩ := hinv
  obtain ⟨-, rfl⟩ := clockEdge_next hedge
  cases ho : s.clock.output with
  | true =>
    rw [tick_falling ho]
    exact .inl ⟨rfl, rfl⟩
  | false =>
    obtain ⟨-, hm, -⟩ := hq ho
    rw [tick_rising ho]
    cases hw : s.tableWord? with
    | none =>
      obtain ⟨herrors, hfaulted, hstopped, hcursor⟩ := decodeError_raised s.countTick
      exact .inr ⟨_, herrors, hfaulted, hstopped, hcursor, .inr ⟨rfl, rfl, unassigned_of_tableWord_none hc hw⟩,
        fun _ _ => CoreError.noConfusion⟩
    | some w =>
      rcases executeWord_errors (s := s.countTick) (tableWord_mem hw) hm with hnone | ⟨hout, hraised⟩
      · exact .inl hnone
      · exact .inr ⟨_, hraised.errors, hraised.faulted, hraised.stopped, hraised.cursor, .inl ⟨_, rfl, hout⟩,
          fun hp => absurd hp (pages_ne_four_of_outOfRange hout)⟩

/-! ### A refused load -/

theorem loadFits_eq_false {cells : Nat} {program : List Nat} {data : List (Nat × Nat)}
    (h : cells < program.length ∨ (∃ e ∈ data, cells ≤ e.1) ∨ (∃ v ∈ program, 256 ≤ v) ∨ ∃ e ∈ data, 256 ≤ e.2) :
    loadFits cells program data = false := by
  rw [← Bool.not_eq_true, loadFits_iff]
  rintro ⟨⟨hlength, hprogram⟩, hdata⟩
  rcases h with hlong | ⟨e, he, haddress⟩ | ⟨v, hv, hwide⟩ | ⟨e, he, hwide⟩
  · exact absurd hlength (Nat.not_le.2 hlong)
  · exact absurd (hdata e he).1 (Nat.not_lt.2 haddress)
  · exact absurd (hprogram v hv) (Nat.not_lt.2 hwide)
  · exact absurd (hdata e he).2 (Nat.not_lt.2 hwide)

/-- Settles O52: lateness is tested first, then fit. -/
theorem loadsThatDoNotFitOrComeLateAreRefused : Obligations.LoadsThatDoNotFitOrComeLateAreRefused := by
  refine fun program data s => ⟨fun hs => if_pos hs, fun hs h => ?_⟩
  rw [hostLoad, hs, loadFits_eq_false h]
  rfl

end Sys2Proof.Machine
end

section
/-! PROOFS. The clock edges a step counts (70_reset_and_hazards.md R246). -/

namespace Sys2Proof.Machine

/-- The edges counted in the state an instruction leaves: two for each word it executes, one less for HLT. -/
theorem completed_edges {s : State} {i : Instr} : (s.completed i).clock.edges = s.clock.edges + s.ticksOf i := by
  cases i
  case swab | swao => simp only [State.completed, State.ticksOf]; cases s.params.swap <;> rfl
  case jmpz | jmpc => simp only [State.completed, State.ticksOf]; split <;> rfl
  all_goals rfl

/-- Settles O26: the step leaves `State.completed`, or, where the decoder rejects the byte, `State.stoppedByDecode`. -/
theorem instructionsTakeTheListedTicks : Obligations.InstructionsTakeTheListedTicks := by
  refine fun s hb hk hin _ => ⟨fun i hd hop => ?_, fun hnone => ?_⟩
  · have hready : s.ReadyFor i := ⟨hb, hin, (encode_of_decode hd).symm⟩
    exact ⟨_, (stepRunsTheDecodedInstruction s i hb hk hin hd).trans (exec_completed hready hop), completed_edges⟩
  · exact ⟨_, step_of_reject hb hk hin (decode_of_unassigned hnone), rfl⟩

end Sys2Proof.Machine
end
